-- ==== Sys2Proof/Word.lean ====
section
/-! DEFINITION. The two word types of the block: a data byte and the 7-bit bus device value. -/

namespace Sys2Proof

/-- A data byte or a word-address byte (00_scope.md R10, 30_encoding.md R77). -/
abbrev Byte := BitVec 8

/-- A 7-bit bus device value: the register `dsb`, the masks and `DEV7` (10_state.md R20, 90_conflicts.md C4). -/
abbrev Dev7 := BitVec 7

end Sys2Proof
end

