-- ==== Sys2Proof/Config.lean ====
section
/-! DEFINITION. The configuration of one instance of the block (00_scope.md R5 to R9) and the model's free values. -/

namespace Sys2Proof

/-- The build-time parameters of an instance, "fixed for a given binary" (00_scope.md R5, R6, R7, R9).
Whether the values go together is `Machine.admitted` (R8). -/
structure Config where
  /-- `MEMORY_SIZE`, "total addressable bytes" (R5). -/
  memorySize : Nat
  /-- `PAGES`, number of pages (R5). -/
  pages : Nat
  /-- `PAGE_SIZE`, bytes per page (R5). -/
  pageSize : Nat
  /-- `BASE_ADDR`, the 7-bit device-family address (R5; R8 (d) holds by the type). -/
  baseAddr : Dev7
  /-- `ADDR_HIGH_MASK`, the bits of the device value that carry high memory-address bits (R5). -/
  addrHighMask : Dev7
  /-- `ADDR_PIN_MASK`, the bits of the device value driven by strap pins (R5). -/
  addrPinMask : Dev7
  /-- `STRAP`, the strap levels of a single-device instance (R7). -/
  strap : Dev7
  /-- `WRITE_CYCLE_MS`, the argument of the fixed delay (R5). -/
  writeCycleMs : Nat
  /-- `MULTI_DEVICES` (R6). -/
  multiDevices : Bool
  /-- `WP_CONTROL` (R6). -/
  wpControl : Bool
  /-- `ACK_POLLING` (R6). -/
  ackPolling : Bool
  /-- `INTEGRITY_CHECK` (R6). -/
  integrityCheck : Bool
  /-- `ADDR_W`, width of the byte-address operand (R9). -/
  addrW : Nat
  /-- `PAGE_W`, width of the page operand (R9). -/
  pageW : Nat
  /-- `LEN_W`, width of the length operand (R9). -/
  lenW : Nat
  /-- `ID_W`, width of SELECT_DEVICE's operand (R9). -/
  idW : Nat
  /-- `FAULT_W`, width of a fault set (R9, 30_encoding.md R85). -/
  faultW : Nat
deriving DecidableEq, Repr

/-- The instance `State.reset` describes: `V2M` with the defaults of R5 and R9, `STRAP` = A2 high, and both
optional commands present. DESIGN CHOICE (log 2): the spec fixes no instance. -/
def Config.atReset : Config where
  memorySize := 0x40000
  pages := 1024
  pageSize := 256
  baseAddr := 0x50
  addrHighMask := 0x03
  addrPinMask := 0x04
  strap := 0x04
  writeCycleMs := 10
  multiDevices := true
  wpControl := true
  ackPolling := false
  integrityCheck := false
  addrW := 32
  pageW := 16
  lenW := 16
  idW := 8
  faultW := 8

/-- Free value (log 7): the fault set that the `k`-th undetermined environment answer carries (10_state.md R32, U14). -/
opaque Config.freeFault : Nat → Nat

/-- Free value (log 7): the byte that the `k`-th undetermined environment answer carries (R32, U6, U8). -/
opaque Config.freeByte : Nat → Byte

/-- Free value (log 7): whether an addressed chip's write cycle has ended at the `k`-th undetermined answer
(20_memory.md R65, U5). -/
opaque Config.freeEnds : Nat → Bool

/-- Free value (log 14): what the host's buffer port gives where WRITE_PAGE reads the `k`-th byte that the host does not
present (30_encoding.md R72, 92_eei_decisions.md D23). -/
opaque Config.freePortByte : Nat → Byte

end Sys2Proof
end

