-- ==== Sys2Proof/Syntax.lean ====
section
/-! DEFINITION. The eight host commands and the record in which the command port carries one (30_encoding.md R70 to R72). -/

namespace Sys2Proof

/-- The operand of WP (30_encoding.md R72, R89). -/
inductive WpMode where
  /-- "write-protect active": the pin HIGH. -/
  | enabled
  /-- writable: the pin LOW. -/
  | disabled
deriving DecidableEq, Repr

/-- The commands, one constructor per row of spec/opcode_table.json. Operands are natural numbers of the widths
of 00_scope.md R9 (R10); `WellFormed.lean` checks the widths. -/
inductive Instr where
  /-- `init()` (41_init_select.md R110). -/
  | init
  /-- `select_device(id)` (R111). -/
  | selectDevice (id : Nat)
  /-- `wp(mode)` (45_wp.md R170). -/
  | wp (mode : WpMode)
  /-- `write_byte(addr, data)` (43_write.md R130). -/
  | writeByte (a : Nat) (d : Byte)
  /-- `write_page(page, buf, n)` (R131); `buf` is the host's read port, `buf[0]` first. -/
  | writePage (p : Nat) (n : Nat) (buf : List Byte)
  /-- `read_current_byte(out)` (44_read.md R150). -/
  | readCurrentByte
  /-- `read_byte(addr, out)` (R151). -/
  | readByte (a : Nat)
  /-- `read_sequential(addr, buf, n)` (R152). -/
  | readSequential (a : Nat) (n : Nat)
deriving DecidableEq, Repr

/-- What the host presents on the command port (30_encoding.md R70): the wires of `op` and of the operand ports,
read as one number (numbering: log 12), and beside them the read-only buffer port of WRITE_PAGE. -/
structure Command where
  word : Nat
  buf  : List Byte
deriving DecidableEq, Repr

end Sys2Proof
end

