-- ==== Sys2Proof/WellFormed.lean ====
section
/-! DEFINITION. Which commands are well formed for an instance: the widths of 00_scope.md R9 and the commands that exist
(30_encoding.md R73). -/

namespace Sys2Proof

/-- Why a command is not well formed for an instance. -/
inductive IllFormed where
  /-- SELECT_DEVICE without `MULTI_DEVICES`, WP without `WP_CONTROL` (R73, U1). -/
  | featureAbsent
  /-- an operand that its port cannot carry (R9). -/
  | operandTooWide
deriving DecidableEq, Repr

/-- `v` fits a port of `w` wires (00_scope.md R10). -/
abbrev fits (w v : Nat) : Bool := decide (v < 2 ^ w)

/-- Every operand of the command fits its port (00_scope.md R9, 30_encoding.md R72). -/
def Instr.operandsFit (c : Config) : Instr → Bool
  | .init => true
  | .selectDevice id => fits c.idW id
  | .wp _ => true
  | .writeByte a _ => fits c.addrW a
  | .writePage p n _ => fits c.pageW p && fits c.lenW n
  | .readCurrentByte => true
  | .readByte a => fits c.addrW a
  | .readSequential a n => fits c.addrW a && fits c.lenW n

/-- The command exists in the instance (30_encoding.md R71, R73). -/
def Instr.existsIn (c : Config) : Instr → Bool
  | .init => true
  | .selectDevice _ => c.multiDevices
  | .wp _ => c.wpControl
  | .writeByte _ _ => true
  | .writePage _ _ _ => true
  | .readCurrentByte => true
  | .readByte _ => true
  | .readSequential _ _ => true

/-- The first reason why the command is not well formed for the instance, or none. -/
def Instr.problem (c : Config) (i : Instr) : Option IllFormed :=
  if i.existsIn c = false then some .featureAbsent
  else if i.operandsFit c = false then some .operandTooWide
  else none

/-- The command is well formed for the instance. -/
abbrev Instr.wellFormed (c : Config) (i : Instr) : Bool :=
  i.existsIn c && i.operandsFit c

end Sys2Proof
end

