-- ==== Sys2Proof/Decode.lean ====
section
/-! DEFINITION. The command record as bits: the decoder of the command port (30_encoding.md R70 to R73), total on any
record, and the encoder written from the same layout. The code `op` and its place (bits 2:0) are the table's; the order
in which the operand ports' wires are numbered after it is the model's (log 12). -/

namespace Sys2Proof

/-- Why the port's record is no command. -/
inductive DecodeError where
  /-- a wire is set that no port of the record has. -/
  | bitsBeyondRecord
deriving DecidableEq, Repr

/-- The record `(op, a, d, p, n, id, mode)` of 30_encoding.md R70, each field a number. -/
structure Fields where
  op   : Nat
  a    : Nat := 0
  d    : Nat := 0
  p    : Nat := 0
  n    : Nat := 0
  id   : Nat := 0
  mode : Nat := 0
deriving DecidableEq, Repr

/-- How many wires the record has: `op` 3, then the ports of R72 with the widths of R9. -/
def recordBits (c : Config) : Nat := 3 + c.addrW + 8 + c.pageW + c.lenW + c.idW + 1

/-- The wires as one number: `op` in bits 2:0, and each next port of R70's record directly above the one before it. -/
def packFields (c : Config) (f : Fields) : Nat :=
  f.op + 2 ^ 3 * (f.a + 2 ^ c.addrW * (f.d + 2 ^ 8 * (f.p + 2 ^ c.pageW * (f.n + 2 ^ c.lenW *
    (f.id + 2 ^ c.idW * f.mode)))))

/-- The fields of a record, each port's own wires. -/
def unpackFields (c : Config) (w : Nat) : Fields :=
  let w1 := w / 2 ^ 3
  let w2 := w1 / 2 ^ c.addrW
  let w3 := w2 / 2 ^ 8
  let w4 := w3 / 2 ^ c.pageW
  let w5 := w4 / 2 ^ c.lenW
  { op := w % 2 ^ 3
    a := w1 % 2 ^ c.addrW
    d := w2 % 2 ^ 8
    p := w3 % 2 ^ c.pageW
    n := w4 % 2 ^ c.lenW
    id := w5 % 2 ^ c.idW
    mode := w5 / 2 ^ c.idW % 2 }

/-- `mode` on its wire: 1 is ENABLED, 0 is DISABLED (30_encoding.md R72). -/
def wpModeOfBit (b : Nat) : WpMode := if b = 1 then .enabled else .disabled

/-- The wire value of `mode` (30_encoding.md R72). -/
def wpModeBit : WpMode → Nat
  | .enabled => 1
  | .disabled => 0

/-- The command a record's fields name (30_encoding.md R71); operands its row of R72 does not name are ignored (R70).
Every 3-bit code names a command (R73). -/
def instrOfFields (f : Fields) (buf : List Byte) : Instr :=
  if f.op = 0 then .init
  else if f.op = 1 then .selectDevice f.id
  else if f.op = 2 then .wp (wpModeOfBit f.mode)
  else if f.op = 3 then .writeByte f.a (BitVec.ofNat 8 f.d)
  else if f.op = 4 then .writePage f.p f.n buf
  else if f.op = 5 then .readCurrentByte
  else if f.op = 6 then .readByte f.a
  else .readSequential f.a f.n

/-- The decoder of the command port, for an instance's widths. -/
def decode (c : Config) (r : Command) : Except DecodeError Instr :=
  if 2 ^ recordBits c ≤ r.word then .error .bitsBeyondRecord
  else .ok (instrOfFields (unpackFields c r.word) r.buf)

/-- The command code of a command (30_encoding.md R71). -/
def opcodeOf : Instr → Nat
  | .init => 0
  | .selectDevice _ => 1
  | .wp _ => 2
  | .writeByte _ _ => 3
  | .writePage _ _ _ => 4
  | .readCurrentByte => 5
  | .readByte _ => 6
  | .readSequential _ _ => 7

/-- The record's fields of a command: its code and its own operands, every other port at 0 (30_encoding.md R70 to R72). -/
def fieldsOf : Instr → Fields
  | .init => { op := 0 }
  | .selectDevice id => { op := 1, id := id }
  | .wp mode => { op := 2, mode := wpModeBit mode }
  | .writeByte a d => { op := 3, a := a, d := d.toNat }
  | .writePage p n _ => { op := 4, p := p, n := n }
  | .readCurrentByte => { op := 5 }
  | .readByte a => { op := 6, a := a }
  | .readSequential a n => { op := 7, a := a, n := n }

/-- The buffer port of a command: WRITE_PAGE's, and nothing for the others (30_encoding.md R72). -/
def bufferOf : Instr → List Byte
  | .init => []
  | .selectDevice _ => []
  | .wp _ => []
  | .writeByte _ _ => []
  | .writePage _ _ buf => buf
  | .readCurrentByte => []
  | .readByte _ => []
  | .readSequential _ _ => []

/-- The encoder: what a host drives to issue the command. -/
def encode (c : Config) (i : Instr) : Command := { word := packFields c (fieldsOf i), buf := bufferOf i }

/-- The command of an opcode-table word: the word's `nbits` bits, every further wire 0, no buffer. -/
def decodeTableWord (nbits w : Nat) : Option Instr :=
  (decode Config.atReset { word := w % 2 ^ nbits, buf := [] }).toOption

end Sys2Proof
end

