-- ==== Sys2Proof/Machine/State.lean ====
section
/-! DEFINITION. The state of the block and of its environment as plain data (10_state.md, 20_memory.md section 5), the
reasons a step can stop, and the state after reset (10_state.md R31, 70_reset_and_hazards.md R210). -/

namespace Sys2Proof.Machine

/-- Level of the WP pin: HIGH is protected, LOW is writable (10_state.md R30). -/
inductive Level where
  | low
  | high
deriving DecidableEq, Repr

/-- Direction of an addressed phase (30_encoding.md R84). -/
inductive Dir where
  | write
  | read
deriving DecidableEq, Repr

/-- The master's answer to a received byte (30_encoding.md R84). -/
inductive AckPolicy where
  | ack
  | nack
deriving DecidableEq, Repr

/-- The status taxonomy (30_encoding.md R74). -/
inductive Status where
  | ok
  | addressError
  | pageError
  | sizeError
  | dataError
  | transportError
  | generalError
deriving DecidableEq, Repr

/-- The step register at the places where a step of the model can end (10_state.md R25; log 11): no command runs, or
the next step of the running write command is the start of another polling attempt. -/
inductive Seq where
  | idle
  | pollStart
deriving DecidableEq, Repr

/-- One collaborator call with its answer, as a trace writes it (00_scope.md R12, 30_encoding.md R84). -/
inductive Call where
  /-- `S` -/
  | start
  /-- `P` -/
  | stop
  /-- `addr(dev,dir)=answer`; 0 is ACK -/
  | addr (dev : Dev7) (dir : Dir) (answer : Nat)
  /-- `send(b)=answer`; 0 is ACK -/
  | send (b : Byte) (answer : Nat)
  /-- `recv(pol)=b` -/
  | recv (pol : AckPolicy) (b : Byte)
  /-- `wait_ms(n)` -/
  | waitMs (n : Nat)
  /-- `wp(level)` -/
  | wp (level : Level)
deriving DecidableEq, Repr

/-- One chip of the reference environment (10_state.md R29, 20_memory.md R59). `mem` is the array in canonical form
(`memWf` in Ops.lean): addresses rising, no byte listed that an unlisted address reads as (log 9). -/
structure Chip where
  pins  : Dev7
  mem   : List Host.Cell
  ptr   : Nat
  busy  : Bool
  stage : List Byte
deriving DecidableEq, Repr

/-- Which environment answers the calls (10_state.md R32). -/
inductive EnvKind where
  /-- a transport of which nothing is known: every answer is a draw -/
  | mock
  /-- the reference environment ENV (20_memory.md R59 to R66) -/
  | chips
  /-- ENV with fault injection (R66) -/
  | faultyChips
deriving DecidableEq, Repr

/-- What the environment chooses at one `BusAddr`, `BusSend` or `BusRecv` (10_state.md R32; log 6). -/
structure Draw where
  /-- the fault set answered (mock) or injected (faulty ENV) -/
  fault : Nat
  /-- the byte answered by a receive that no chip drives -/
  byte  : Byte
  /-- the addressed chip's write cycle has ended by now (R65) -/
  ends  : Bool
deriving DecidableEq, Repr

/-- The environment's state (20_memory.md R59; log 6, log 7, log 18). -/
structure Env where
  kind    : EnvKind
  chips   : List Chip
  sel     : Option Nat
  dir     : Dir
  hi      : Dev7
  ah      : Byte
  nsent   : Nat
  wpLevel : Level
  /-- the nonzero fault set by which this transport says NACK (30_encoding.md R85) -/
  nackSet : Nat
  /-- the coming choices, as far as they are given as data -/
  draws   : List Draw
  /-- how many free draws have been taken after `draws` ran out -/
  drawn   : Nat
deriving DecidableEq, Repr

/-- The state of the machine. INVENTORY.md lists every field with its rule. -/
structure State where
  /-- the instance's configuration; no step changes it (00_scope.md R5 to R9, 10_state.md R28; log 1) -/
  cfg     : Config
  /-- the one architectural register (R20) -/
  dsb     : Dev7
  /-- `dsb` holds a value (70_reset_and_hazards.md R211; log 3) -/
  dsbSet  : Bool
  /-- the step register (R25) -/
  seq     : Seq
  /-- the bus-fault accumulator (R26) -/
  fault   : Nat
  /-- latched command code (R27) -/
  op      : BitVec 3
  /-- latched byte address (R27) -/
  a       : Nat
  /-- latched data byte (R27) -/
  d       : Byte
  /-- latched length (R27) -/
  n       : Nat
  /-- loop index (R27) -/
  i       : Nat
  /-- the host's buffer read port while WRITE_PAGE runs (R27, 30_encoding.md R72) -/
  bufPort : List Byte
  /-- the MODEL's own: how many free bytes the buffer port has given where the host presented none (log 14) -/
  portDrawn : Nat
  /-- the verify step's scratch (43_write.md R133) -/
  rb      : List Byte
  /-- the response's status; none while a command runs and before the first (R31, 30_encoding.md R70) -/
  status  : Option Status
  /-- the output path of the one-byte reads (30_encoding.md R72) -/
  out     : Byte
  /-- what READ_SEQUENTIAL's write port has stored at the host, `buf[0]` first (R72; log 26) -/
  outBuf  : List Byte
  /-- the commands the host will issue, the next one first (R70, 20_memory.md R51) -/
  port    : List Command
  /-- the collaborators (20_memory.md R59) -/
  env     : Env
  /-- every collaborator call so far, the oldest first (00_scope.md R12; log 25) -/
  trace   : List Call
deriving DecidableEq, Repr

/-- Why a command makes the machine stop. -/
inductive Fault where
  /-- Raised by WRITE_BYTE, WRITE_PAGE, READ_CURRENT_BYTE, READ_BYTE and READ_SEQUENTIAL before any INIT or
  SELECT_DEVICE has completed: "every command that reads it has no defined behaviour. A model ... makes such a command a
  fault of the model" (70_reset_and_hazards.md R211, U2). Safe: nothing is claimed of such a command. -/
  | dsbHasNoValue
deriving DecidableEq, Repr

/-- Why a command has no meaning. -/
inductive Refusal where
  /-- Raised only by an arm of `exec` that has no meaning yet (none at present). Safe. -/
  | notModelled (mnemonic : String)
  /-- Raised by a step whose record is no record of the port. Safe. -/
  | badRecord (e : DecodeError)
  /-- Raised by a step, and by SELECT_DEVICE and WP themselves, for a command that is not well formed for the instance
  (30_encoding.md R73, U1; 00_scope.md R9; 92_eei_decisions.md D23). Safe. -/
  | illFormed (e : IllFormed)
  /-- Raised by every command and by polling when the configuration breaks 00_scope.md R8 or the bounds of R9 (U15). Safe. -/
  | badConfiguration
  /-- Raised by every command offered while another one runs (20_memory.md R51, U11). Safe. -/
  | busy
deriving DecidableEq, Repr

/-- A chip as 95_test_vectors.md section 3 starts one: "every `mem` byte `0xFF` and every `ptr = 0`" (log 8). -/
def Chip.fresh (pins : Dev7) : Chip where
  pins := pins
  mem := []
  ptr := 0
  busy := false
  stage := []

/-- The environment at reset: ENV with the two chips that fit on a V2M bus (20_memory.md R43, R59; DESIGN CHOICE, log 5
and log 8). -/
def Env.atReset : Env where
  kind := .chips
  chips := [Chip.fresh 0x00, Chip.fresh 0x04]
  sel := none
  dir := .write
  hi := 0
  ah := 0
  nsent := 0
  wpLevel := .low
  nackSet := 1
  draws := []
  drawn := 0

/-- The machine right after reset (10_state.md R31, 70_reset_and_hazards.md R210): IDLE, no command pending, `dsb`
without a value, no call made, no status. Fields the spec leaves unspecified hold the values of log 3, 4, 5, 8 and 14. -/
def State.reset : State where
  cfg := Config.atReset
  dsb := 0
  dsbSet := false
  seq := .idle
  fault := 0
  op := 0
  a := 0
  d := 0
  n := 0
  i := 0
  bufPort := []
  portDrawn := 0
  rb := []
  status := none
  out := 0
  outBuf := []
  port := []
  env := Env.atReset
  trace := []

end Sys2Proof.Machine
end

