-- ==== Sys2Proof/Machine/Flags.lean ====
section
/-! DEFINITION. The block's one flag, the bus-fault accumulator (10_state.md R26). -/

namespace Sys2Proof.Machine

/-- A fault set as the transport's `FAULT_W` wires carry it (30_encoding.md R85). -/
def faultSet (c : Config) (f : Nat) : Nat := f % 2 ^ c.faultW

/-- `fault <- 0`, when a command has passed validation (10_state.md R26). -/
def clearFault (s : State) : State := { s with fault := 0 }

/-- `fault <- fault | f` (10_state.md R26). -/
def orFault (f : Nat) (s : State) : State := { s with fault := s.fault ||| f }

/-- The fault check: only zero against nonzero is ever used (10_state.md R26). -/
def transferStatus (s : State) : Status := if s.fault = 0 then .ok else .transportError

end Sys2Proof.Machine
end

