-- ==== Sys2Proof/Machine/Operands.lean ====
section
/-! DEFINITION. What the block computes from operands and configuration: admitted configurations (00_scope.md R8, R9),
the address encoder (40_address_phase.md R100), the values of `dsb`, the validation tests, the receive policy and the
status codes. -/

namespace Sys2Proof.Machine

/-- `ADDR_HIGH_MASK` by memory size (00_scope.md R5). -/
def highMaskFor (memorySize : Nat) : Dev7 := if 262144 ≤ memorySize then 0x03 else 0x01

/-- `ADDR_PIN_MASK` by memory size (00_scope.md R5). -/
def pinMaskFor (memorySize : Nat) : Dev7 := if 262144 ≤ memorySize then 0x04 else 0x06

/-- The configurations a model admits: 00_scope.md R8 (a), (b), (c), (e), (f) ((d) holds by type, (g) speaks of the
chip), and the lower bounds of R9. -/
def admitted (c : Config) : Bool :=
  decide (c.pages * c.pageSize = c.memorySize) &&
  decide (0 < c.memorySize) && decide (c.memorySize ≤ 262144) &&
  decide (c.addrHighMask = highMaskFor c.memorySize) && decide (c.addrPinMask = pinMaskFor c.memorySize) &&
  decide (c.baseAddr &&& (c.addrHighMask ||| c.addrPinMask) = 0) &&
  decide (2 ≤ c.pageSize) &&
  decide (c.memorySize < 2 ^ c.addrW) && decide (c.pages < 2 ^ c.pageW) && decide (c.pageSize < 2 ^ c.lenW) &&
  decide (3 ≤ c.idW) && decide (1 ≤ c.faultW)

/-- What the encoder hands to the address phase (40_address_phase.md R100). -/
structure Encoded where
  dev7 : Dev7
  ah   : Byte
  al   : Byte
deriving DecidableEq, Repr

/-- ENCODE (40_address_phase.md R100): `dsb | ((a >> 16) & ADDR_HIGH_MASK)`, `(a >> 8) & 0xFF`, `a & 0xFF`; the
byte masks are the truncation to 8 bits. -/
def encodeAddr (c : Config) (dsb : Dev7) (a : Nat) : Encoded where
  dev7 := dsb ||| (BitVec.ofNat 7 (a >>> 16) &&& c.addrHighMask)
  ah := BitVec.ofNat 8 (a >>> 8)
  al := BitVec.ofNat 8 a

/-- The address a chip reassembles from the high bits and the two word-address bytes (20_memory.md R62,
40_address_phase.md R102). -/
def joinAddr (hi : Dev7) (ah al : Byte) : Nat := (hi.toNat <<< 16) ||| (ah.toNat <<< 8) ||| al.toNat

/-- The `dsb` INIT loads (41_init_select.md R110, 00_scope.md R7). -/
def initialDsb (c : Config) : Dev7 :=
  if c.multiDevices then c.baseAddr else c.baseAddr ||| (c.strap &&& c.addrPinMask)

/-- The `dsb` SELECT_DEVICE loads (41_init_select.md R111). -/
def selectedDsb (c : Config) (id : Nat) : Dev7 := c.baseAddr ||| (BitVec.ofNat 7 id &&& c.addrPinMask)

/-- The byte-address test (60_exceptions.md R181). -/
def addressOutOfRange (c : Config) (a : Nat) : Bool := decide (c.memorySize ≤ a)

/-- The page-index test (60_exceptions.md R182). -/
def pageOutOfRange (c : Config) (p : Nat) : Bool := decide (c.pages ≤ p)

/-- The length test of WRITE_PAGE, whose upper bound is strict (60_exceptions.md R183, 70_reset_and_hazards.md R219). -/
def pageLengthBad (c : Config) (n : Nat) : Bool := decide (n = 0) || decide (c.pageSize ≤ n)

/-- The target address of WRITE_PAGE (43_write.md R131). -/
def pageAddress (c : Config) (p : Nat) : Nat := p * c.pageSize

/-- The policy of a receive after which `rest` more bytes are to come: NACK for the last one only (44_read.md R153). -/
def recvPolicy (rest : Nat) : AckPolicy := if rest = 0 then .nack else .ack

/-- The level WP drives (30_encoding.md R89). -/
def levelOf : WpMode → Level
  | .enabled => .high
  | .disabled => .low

/-- The code of a status on the 3-bit port (30_encoding.md R74). -/
def statusCode : Status → BitVec 3
  | .ok => 0
  | .addressError => 1
  | .pageError => 2
  | .sizeError => 3
  | .dataError => 4
  | .transportError => 5
  | .generalError => 6

/-- The host's buffer after the write port has stored `bytes` at `0, 1, ...`; further places keep what they held
(30_encoding.md R72; log 26). -/
def storeAtHost (bytes old : List Byte) : List Byte := bytes ++ old.drop bytes.length

end Sys2Proof.Machine
end

