-- ==== Sys2Proof/Machine/Ops.lean ====
section
/-! DEFINITION. The shared operations: the chip's array, the reference environment ENV (20_memory.md R59 to R66), the
collaborator calls (00_scope.md R12), and the acceptance and end of a command (30_encoding.md R70,
60_exceptions.md R191). -/

namespace Sys2Proof.Machine

/-! ### The array of a chip -/

/-- What a byte nothing has written reads as (95_test_vectors.md section 3; DESIGN CHOICE, log 9). -/
def blankByte : Byte := 0xFF

/-- `MemRead(x, 1)` (20_memory.md R59). -/
def memRead : List Host.Cell → Nat → Byte
  | [], _ => blankByte
  | (y, b) :: m, x => if y = x then b else memRead m x

/-- `cell x v` in front of `m`, or nothing when an unlisted address reads as `v` already. -/
def consCell (x : Nat) (v : Byte) (m : List Host.Cell) : List Host.Cell := if v = blankByte then m else (x, v) :: m

/-- `MemWrite(x, 1, v)` (20_memory.md R59), keeping the canonical form. -/
def memWrite : List Host.Cell → Nat → Byte → List Host.Cell
  | [], x, v => consCell x v []
  | (y, b) :: m, x, v =>
    if x < y then consCell x v ((y, b) :: m)
    else if x = y then consCell x v m
    else (y, b) :: memWrite m x v

/-- Addresses at least `lo`, strictly rising, below `size`, and no entry an unlisted address reads as. -/
def memWfFrom (size : Nat) : Nat → List Host.Cell → Bool
  | _, [] => true
  | lo, (x, b) :: m => decide (lo ≤ x) && decide (x < size) && decide (b ≠ blankByte) && memWfFrom size (x + 1) m

/-- The canonical form of an array of `size` bytes. -/
def memWf (size : Nat) (m : List Host.Cell) : Bool := memWfFrom size 0 m

/-- Stores `bytes` at `x, x+1, ...` (20_memory.md R63). An address at or above `size` does not exist and stores nothing;
the block's own writes never reach one (R42; log 19). -/
def memWriteAll (size : Nat) : List Host.Cell → Nat → List Byte → List Host.Cell
  | m, _, [] => m
  | m, x, b :: bs => memWriteAll size (if x < size then memWrite m x b else m) (x + 1) bs

/-! ### The environment -/

/-- The environment's next choice: the next given one, or a free one (10_state.md R32; log 6, log 7). -/
def nextDraw (e : Env) : Draw × Env :=
  match e.draws with
  | d :: ds => (d, { e with draws := ds })
  | [] =>
    ({ fault := Config.freeFault e.drawn, byte := Config.freeByte e.drawn, ends := Config.freeEnds e.drawn },
     { e with drawn := e.drawn + 1 })

/-- The fault set injected by a faulty environment (20_memory.md R66; log 17). -/
def injected (c : Config) (k : EnvKind) (f : Nat) : Nat :=
  match k with
  | .mock => 0
  | .chips => 0
  | .faultyChips => faultSet c f

/-- The chip a device value addresses: `dev7 & ~ADDR_HIGH_MASK == BASE_ADDR | pins_k` (20_memory.md R61). -/
def chipFor (c : Config) (chips : List Chip) (dev : Dev7) : Option Nat :=
  chips.findIdx? fun ch => decide (dev &&& ~~~c.addrHighMask = c.baseAddr ||| ch.pins)

/-- Chip `k` is busy, unless its write cycle ends now (20_memory.md R61, R65; log 16). -/
def stillBusy (e : Env) (k : Nat) (ends : Bool) : Bool :=
  match e.chips[k]? with
  | some ch => ch.busy && !ends
  | none => false

/-- `BusAddr` in ENV (20_memory.md R61): whether a chip acknowledges, and the environment after. -/
def chipsAddr (c : Config) (dev : Dev7) (dir : Dir) (ends : Bool) (e : Env) : Bool × Env :=
  match chipFor c e.chips dev with
  | none => (false, { e with sel := none })
  | some k =>
    if stillBusy e k ends then (false, { e with sel := none })
    else (true, { e with
      chips := e.chips.modify k fun ch => { ch with busy := false, stage := [] }
      sel := some k
      dir := dir
      hi := dev &&& c.addrHighMask
      nsent := 0 })

/-- `BusSend` in ENV (20_memory.md R62): whether a chip acknowledges, and the environment after. -/
def chipsSend (b : Byte) (e : Env) : Bool × Env :=
  match e.sel, e.dir with
  | none, _ => (false, e)
  | some _, .read => (false, e)
  | some k, .write =>
    if e.nsent = 0 then (true, { e with ah := b, nsent := e.nsent + 1 })
    else if e.nsent = 1 then
      (true, { e with chips := e.chips.modify k fun ch => { ch with ptr := joinAddr e.hi e.ah b }, nsent := e.nsent + 1 })
    else
      (true, { e with chips := e.chips.modify k fun ch => { ch with stage := ch.stage ++ [b] }, nsent := e.nsent + 1 })

/-- What a chip does with the bytes of a write transaction at its stop (20_memory.md R63). -/
def commitStage (c : Config) (level : Level) (ch : Chip) : Chip :=
  if ch.stage = [] then ch
  else if c.wpControl = true ∧ level = .high then { ch with stage := [] }
  else { ch with
    mem := memWriteAll c.memorySize ch.mem ch.ptr ch.stage
    ptr := (ch.ptr + ch.stage.length) % c.memorySize
    busy := true }

/-- `BusStop` in ENV (20_memory.md R63). -/
def chipsStop (c : Config) (e : Env) : Env :=
  match e.sel, e.dir with
  | none, _ => { e with sel := none }
  | some _, .read => { e with sel := none }
  | some k, .write => { e with chips := e.chips.modify k (commitStage c e.wpLevel), sel := none }

/-- `BusRecv` in ENV (20_memory.md R64): the byte of the chip that drives the bus, if one does, and the environment after. -/
def chipsRecv (c : Config) (e : Env) : Option Byte × Env :=
  match e.sel, e.dir with
  | none, _ => (none, e)
  | some _, .write => (none, e)
  | some k, .read =>
    match e.chips[k]? with
    | none => (none, e)
    | some ch =>
      (some (memRead ch.mem ch.ptr),
       { e with chips := e.chips.modify k fun ch => { ch with ptr := (ch.ptr + 1) % c.memorySize } })

/-- The answer to a `BusAddr` or `BusSend`: 0 is ACK, `nackSet` a plain NACK, and a faulty environment ORs what it
injects (30_encoding.md R85, 20_memory.md R66). -/
def chipsAnswer (c : Config) (e : Env) (acked : Bool) (f : Nat) : Nat :=
  (if acked then 0 else e.nackSet) ||| injected c e.kind f

/-- `start()` (20_memory.md R60). -/
def envStart (e : Env) : Env :=
  match e.kind with
  | .mock => e
  | .chips => { e with nsent := 0 }
  | .faultyChips => { e with nsent := 0 }

/-- `stop()` (20_memory.md R63). -/
def envStop (c : Config) (e : Env) : Env :=
  match e.kind with
  | .mock => e
  | .chips => chipsStop c e
  | .faultyChips => chipsStop c e

/-- A `BusAddr` answered by chips, with the draw taken for it. -/
def chipsAddrAnswer (c : Config) (dev : Dev7) (dir : Dir) (d : Draw) (e : Env) : Nat × Env :=
  let r := chipsAddr c dev dir d.ends e
  (chipsAnswer c e r.1 d.fault, r.2)

/-- A `BusSend` answered by chips, with the draw taken for it. -/
def chipsSendAnswer (c : Config) (b : Byte) (d : Draw) (e : Env) : Nat × Env :=
  let r := chipsSend b e
  (chipsAnswer c e r.1 d.fault, r.2)

/-- A `BusRecv` answered by chips, with the draw taken for it. -/
def chipsRecvAnswer (c : Config) (d : Draw) (e : Env) : Byte × Env :=
  let r := chipsRecv c e
  (r.1.getD d.byte, r.2)

/-- `address(byte, direction)`: the fault set answered, and the environment after (30_encoding.md R84). -/
def envAddr (c : Config) (dev : Dev7) (dir : Dir) (e : Env) : Nat × Env :=
  let q := nextDraw e
  match e.kind with
  | .mock => (faultSet c q.1.fault, q.2)
  | .chips => chipsAddrAnswer c dev dir q.1 q.2
  | .faultyChips => chipsAddrAnswer c dev dir q.1 q.2

/-- `send(byte)`: the fault set answered, and the environment after (30_encoding.md R84). -/
def envSend (c : Config) (b : Byte) (e : Env) : Nat × Env :=
  let q := nextDraw e
  match e.kind with
  | .mock => (faultSet c q.1.fault, q.2)
  | .chips => chipsSendAnswer c b q.1 q.2
  | .faultyChips => chipsSendAnswer c b q.1 q.2

/-- `recv(out, ack_policy)`: the byte answered, and the environment after (30_encoding.md R84). In ENV the policy changes
no state (20_memory.md R64). -/
def envRecv (c : Config) (e : Env) : Byte × Env :=
  let q := nextDraw e
  match e.kind with
  | .mock => (q.1.byte, q.2)
  | .chips => chipsRecvAnswer c q.1 q.2
  | .faultyChips => chipsRecvAnswer c q.1 q.2

/-- `wait_ms(n)`: a wait of at least `WRITE_CYCLE_MS` ends every write cycle (20_memory.md R65, R66). -/
def envWait (c : Config) (n : Nat) (e : Env) : Env :=
  match e.kind with
  | .mock => e
  | .chips => if c.writeCycleMs ≤ n then { e with chips := e.chips.map fun ch => { ch with busy := false } } else e
  | .faultyChips => if c.writeCycleMs ≤ n then { e with chips := e.chips.map fun ch => { ch with busy := false } } else e

/-- The WP pin is driven (20_memory.md R66). -/
def envWp (level : Level) (e : Env) : Env := { e with wpLevel := level }

/-! ### The collaborator calls (00_scope.md R12): the environment answers, the trace records -/

/-- `BusStart()` -/
def busStart (s : State) : State := { s with env := envStart s.env, trace := s.trace ++ [.start] }

/-- `BusStop()` -/
def busStop (s : State) : State := { s with env := envStop s.cfg s.env, trace := s.trace ++ [.stop] }

/-- `BusAddr(dev7, dir)` -/
def busAddr (dev : Dev7) (dir : Dir) (s : State) : Nat × State :=
  let r := envAddr s.cfg dev dir s.env
  (r.1, { s with env := r.2, trace := s.trace ++ [.addr dev dir r.1] })

/-- `BusSend(b)` -/
def busSend (b : Byte) (s : State) : Nat × State :=
  let r := envSend s.cfg b s.env
  (r.1, { s with env := r.2, trace := s.trace ++ [.send b r.1] })

/-- `BusRecv(pol)` -/
def busRecv (pol : AckPolicy) (s : State) : Byte × State :=
  let r := envRecv s.cfg s.env
  (r.1, { s with env := r.2, trace := s.trace ++ [.recv pol r.1] })

/-- `WaitMs(n)` -/
def waitMs (n : Nat) (s : State) : State := { s with env := envWait s.cfg n s.env, trace := s.trace ++ [.waitMs n] }

/-- `WpSet(level)` -/
def wpSet (level : Level) (s : State) : State := { s with env := envWp level s.env, trace := s.trace ++ [.wp level] }

/-- `f <- BusAddr(dev7, dir); fault <- fault | f` -/
def addrCounted (dev : Dev7) (dir : Dir) (s : State) : State :=
  let r := busAddr dev dir s
  orFault r.1 r.2

/-- `f <- BusSend(b); fault <- fault | f` -/
def sendCounted (b : Byte) (s : State) : State :=
  let r := busSend b s
  orFault r.1 r.2

/-- `i <- 0`, before a loop over bytes (10_state.md R27). -/
def firstIndex (s : State) : State := { s with i := 0 }

/-- `i <- i + 1`, after a byte (10_state.md R27). -/
def nextIndex (s : State) : State := { s with i := s.i + 1 }

/-! ### Acceptance and end of a command -/

/-- The end of a command with a status, the block's "trap entry" (60_exceptions.md R180, R191): nothing is saved, `seq`
goes to IDLE, the response carries the status. Nothing has to be undone afterwards: the next command is accepted as if
this one had succeeded (R192), so there is no operation of return. -/
def endCommand (st : Status) (s : State) : State := { s with seq := .idle, status := some st }

/-- The operand latches (10_state.md R27): `a`, `d`, `n`, and the host's buffer port of a WRITE_PAGE. -/
def latchAddress (a : Nat) (s : State) : State := { s with a := a }

/-- The latch of the data byte (10_state.md R27). -/
def latchData (d : Byte) (s : State) : State := { s with d := d }

/-- The latch of the length (10_state.md R27). -/
def latchLength (n : Nat) (s : State) : State := { s with n := n }

/-- The buffer port the running command reads (10_state.md R27, 30_encoding.md R72). -/
def latchBuffer (buf : List Byte) (s : State) : State := { s with bufPort := buf }

/-- The next `m` free bytes of the buffer port, the `k`-th first (log 14). -/
def freePortBytes : Nat → Nat → List Byte
  | _, 0 => []
  | k, m + 1 => Config.freePortByte k :: freePortBytes (k + 1) m

/-- What the buffer port gives at `buf[0]`, `buf[1]`, ... to a WRITE_PAGE of length `n` (43_write.md R131 (6)): the bytes the
host presents, and a free value at each index below `n` where it presents none. DESIGN CHOICE (log 14): the spec makes it the
host's duty to present `n` bytes (92_eei_decisions.md D23) and does not say what the port gives otherwise. -/
def pagePort (k n : Nat) (buf : List Byte) : List Byte := buf ++ freePortBytes k (n - buf.length)

/-- The buffer port of a WRITE_PAGE past its validation: stable for the whole command, the verify step included (D23). -/
def latchPage (n : Nat) (buf : List Byte) (s : State) : State :=
  { s with bufPort := pagePort s.portDrawn n buf, portDrawn := s.portDrawn + (n - buf.length) }

/-- The state in which an accepted command starts: `op` latched (10_state.md R27), the last response gone (log 30). -/
def startCommand (op : BitVec 3) (s : State) : State := { s with op := op, status := none }

/-- Acceptance of a command (20_memory.md R51, 00_scope.md R8): refused for an inadmissible configuration and while
another command runs. -/
def accept (op : BitVec 3) (s : State) (run : State → Host.Outcome State Fault Refusal) :
    Host.Outcome State Fault Refusal :=
  if admitted s.cfg = false then .refused .badConfiguration
  else match s.seq with
    | .pollStart => .refused .busy
    | .idle => run (startCommand op s)

/-- Acceptance of a command that reads `dsb`. Before any INIT or SELECT_DEVICE it "has no defined behaviour. A model ... makes
such a command a fault of the model (not a status)", as a whole and before any validation (70_reset_and_hazards.md R211;
92_eei_decisions.md D14; 93_implementation_defined.md U2 `fault`). -/
def acceptIO (op : BitVec 3) (s : State) (run : State → Host.Outcome State Fault Refusal) :
    Host.Outcome State Fault Refusal :=
  accept op s fun s => if s.dsbSet then run s else .fault .dsbHasNoValue

/-- The host's next command as the port carries it, or why it is none for this instance (30_encoding.md R70, R73). -/
def fetchCommand (c : Config) (r : Command) : Except Refusal Instr :=
  match decode c r with
  | .error e => .error (.badRecord e)
  | .ok i =>
    match i.problem c with
    | some e => .error (.illFormed e)
    | none => .ok i

end Sys2Proof.Machine
end

