-- ==== Sys2Proof/Machine/InitSelect.lean ====
section
/-! DEFINITION. INIT and SELECT_DEVICE, the two commands that write `dsb` (41_init_select.md). -/

namespace Sys2Proof.Machine

/-- `dsb <- v`: all 7 bits in one step (10_state.md R23); from now on `dsb` holds a value (70_reset_and_hazards.md R211). -/
def writeDsb (v : Dev7) (s : State) : State := { s with dsb := v, dsbSet := true }

/-- `if WP_CONTROL: WpSet(HIGH)` -/
def protectAtInit (s : State) : State := if s.cfg.wpControl then wpSet .high s else s

/-- INIT (41_init_select.md R110). -/
def execInit (s : State) : Host.Outcome State Fault Refusal :=
  accept 0 s fun s => .next (endCommand .ok (protectAtInit (writeDsb (initialDsb s.cfg) s)))

/-- SELECT_DEVICE (41_init_select.md R111); refused where it does not exist (30_encoding.md R73). -/
def execSelectDevice (id : Nat) (s : State) : Host.Outcome State Fault Refusal :=
  if s.cfg.multiDevices then accept 1 s fun s => .next (endCommand .ok (writeDsb (selectedDsb s.cfg id) s))
  else .refused (.illFormed .featureAbsent)

end Sys2Proof.Machine
end

