-- ==== Sys2Proof/Machine/Wp.lean ====
section
/-! DEFINITION. The WP command (45_wp.md). -/

namespace Sys2Proof.Machine

/-- WP (45_wp.md R170); refused where it does not exist (30_encoding.md R73). -/
def execWp (mode : WpMode) (s : State) : Host.Outcome State Fault Refusal :=
  if s.cfg.wpControl then accept 2 s fun s => .next (endCommand .ok (wpSet (levelOf mode) s))
  else .refused (.illFormed .featureAbsent)

end Sys2Proof.Machine
end

