-- ==== Sys2Proof/Machine/Read.lean ====
section
/-! DEFINITION. The address phase (40_address_phase.md R101) and the three read commands (44_read.md). The random and the
sequential read are also the verify step of a write (43_write.md R132, R133), so each is a sequence of its own here. -/

namespace Sys2Proof.Machine

/-- ADDRPHASE (40_address_phase.md R101): all three calls, in write direction, whatever they answer. -/
def addrPhase (a : Nat) (s : State) : State :=
  let e := encodeAddr s.cfg s.dsb a
  sendCounted e.al (sendCounted e.ah (addrCounted e.dev7 .write s))

/-- What a read sequence answers: its status, the bytes it received, the state after it. -/
structure ReadResult where
  status : Status
  bytes  : List Byte
  after  : State

/-- The positioning phase, its stop, and the start and device value of the read phase (44_read.md R151, R154). -/
def positionForRead (a : Nat) (s : State) : State :=
  let s1 := busStart (busStop (addrPhase a (busStart s)))
  addrCounted (encodeAddr s1.cfg s1.dsb a).dev7 .read s1

/-- The receive loop `for i in ..`: `rest` bytes, the last one with NACK (44_read.md R152, R153). DESIGN CHOICE (log 15): `i`
counts the bytes received, so after the loop it holds their number. -/
def recvAll : Nat → State → List Byte × State
  | 0, s => ([], s)
  | rest + 1, s =>
    let r := busRecv (recvPolicy rest) s
    let q := recvAll rest (nextIndex r.2)
    (r.1 :: q.1, q.2)

/-- The sequence of READ_CURRENT_BYTE (44_read.md R150). -/
def currentRead (s : State) : ReadResult :=
  let s1 := addrCounted s.dsb .read (busStart (clearFault s))
  let r := busRecv .nack s1
  let s2 := busStop r.2
  { status := transferStatus s2, bytes := [r.1], after := s2 }

/-- The sequence of READ_BYTE (44_read.md R151), validation included. -/
def randomRead (a : Nat) (s : State) : ReadResult :=
  if addressOutOfRange s.cfg a then { status := .addressError, bytes := [], after := s }
  else
    let r := busRecv .nack (positionForRead a (clearFault s))
    let s2 := busStop r.2
    { status := transferStatus s2, bytes := [r.1], after := s2 }

/-- The sequence of READ_SEQUENTIAL (44_read.md R152), validation included: address first, then length. -/
def sequentialRead (a n : Nat) (s : State) : ReadResult :=
  if addressOutOfRange s.cfg a then { status := .addressError, bytes := [], after := s }
  else if n = 0 then { status := .sizeError, bytes := [], after := s }
  else
    let r := recvAll n (firstIndex (positionForRead a (clearFault s)))
    let s2 := busStop r.2
    { status := transferStatus s2, bytes := r.1, after := s2 }

/-- The received byte goes to `out`; on a failed validation none was received and `out` is not written
(44_read.md R151, 92_eei_decisions.md D24). -/
def deliverByte (bytes : List Byte) (s : State) : State :=
  match bytes with
  | [] => s
  | b :: _ => { s with out := b }

/-- The received bytes go to the host's buffer (44_read.md R152, D24). -/
def deliverBuffer (bytes : List Byte) (s : State) : State := { s with outBuf := storeAtHost bytes s.outBuf }

/-- READ_CURRENT_BYTE (44_read.md R150). -/
def execReadCurrentByte (s : State) : Host.Outcome State Fault Refusal :=
  acceptIO 5 s fun s =>
    let r := currentRead s
    .next (endCommand r.status (deliverByte r.bytes r.after))

/-- READ_BYTE (44_read.md R151). -/
def execReadByte (a : Nat) (s : State) : Host.Outcome State Fault Refusal :=
  acceptIO 6 s fun s =>
    let r := randomRead a (latchAddress a s)
    .next (endCommand r.status (deliverByte r.bytes r.after))

/-- READ_SEQUENTIAL (44_read.md R152). -/
def execReadSequential (a n : Nat) (s : State) : Host.Outcome State Fault Refusal :=
  acceptIO 7 s fun s =>
    let r := sequentialRead a n (latchLength n (latchAddress a s))
    .next (endCommand r.status (deliverBuffer r.bytes r.after))

end Sys2Proof.Machine
end

