-- ==== Sys2Proof/Machine/Write.lean ====
section
/-! DEFINITION. The write sequence (43_write.md) with the write-completion wait (42_write_wait.md) and the verify step:
WRITE_BYTE and WRITE_PAGE. -/

namespace Sys2Proof.Machine

/-- The data sends `for i in 0 .. n-1`: every byte, whatever the answers (43_write.md R131, R135). DESIGN CHOICE (log 15): `i`
counts the bytes sent, so after the loop, in the polling loop too, it holds `n`, and 1 after WRITE_BYTE's one data send,
which R130 writes without a loop. 10_state.md R27 bounds `i` below `n` while a byte is being moved and leaves this open. -/
def sendAll : List Byte → State → State
  | [], s => s
  | b :: bs, s => sendAll bs (nextIndex (sendCounted b s))

/-- `if WP_CONTROL: WpSet(LOW)`, before the bus work (43_write.md R134). -/
def openWp (s : State) : State := if s.cfg.wpControl then wpSet .low s else s

/-- `if WP_CONTROL: WpSet(HIGH)`, after the wait (43_write.md R134). -/
def closeWp (s : State) : State := if s.cfg.wpControl then wpSet .high s else s

/-- The write transaction: start, address phase, data, stop (30_encoding.md R78, R79). -/
def writeTransaction (a : Nat) (bytes : List Byte) (s : State) : State :=
  busStop (sendAll bytes (firstIndex (addrPhase a (busStart s))))

/-- The comparison of the verify step (43_write.md R132, R133): a failed read-back gives its own status. -/
def compareReadBack (expected : List Byte) (r : ReadResult) : State :=
  let s := { r.after with rb := r.bytes }
  if r.status ≠ .ok then endCommand r.status s
  else if s.rb ≠ expected then endCommand .dataError s
  else endCommand .ok s

/-- VERIFY_BYTE (43_write.md R132). -/
def verifyByte (a : Nat) (d : Byte) (s : State) : State := compareReadBack [d] (randomRead a s)

/-- VERIFY_PAGE (43_write.md R133). -/
def verifyPage (a : Nat) (buf : List Byte) (n : Nat) (s : State) : State :=
  compareReadBack (buf.take n) (sequentialRead a n s)

/-- The verify step of the running write command, from its latched operands (10_state.md R27). -/
def verifyLatched (s : State) : State :=
  if s.op = 4 then verifyPage s.a s.bufPort s.n s else verifyByte s.a s.d s

/-- What follows WAITWRITE (43_write.md R130): close WP, check the fault, verify, end. -/
def finishWrite (s : State) : State :=
  let s := closeWp s
  if s.fault ≠ 0 then endCommand .transportError s
  else if s.cfg.integrityCheck then verifyLatched s
  else endCommand .ok s

/-- One attempt of acknowledge polling (42_write_wait.md R121): `BusStart(); f <- BusAddr(dsb, WRITE)`; on 0 the stop and
what follows, otherwise the command stays at the next attempt's start. `f` is not counted into `fault`. -/
def pollAttempt (s : State) : State :=
  let r := busAddr s.dsb .write (busStart s)
  if r.1 = 0 then finishWrite (busStop r.2) else { r.2 with seq := .pollStart }

/-- WAITWRITE and what follows it (42_write_wait.md R120, R121, R123). With polling the first attempt is made at once; a
refused one leaves `seq` at `POLL_START`, and each further step of the machine makes one more attempt: no bound (R216). -/
def waitWrite (s : State) : State :=
  if s.cfg.ackPolling then pollAttempt s else finishWrite (waitMs s.cfg.writeCycleMs s)

/-- The write sequence after validation (43_write.md R130, R131): nothing in it depends on a bus fault (R135). -/
def writeSequence (a : Nat) (bytes : List Byte) (s : State) : State :=
  waitWrite (writeTransaction a bytes (openWp (clearFault s)))

/-- The next step of a command that polls (42_write_wait.md R121): one more attempt. -/
def pollAgain (s : State) : Host.Outcome State Fault Refusal :=
  if admitted s.cfg = false then .refused .badConfiguration else .next (pollAttempt s)

/-- WRITE_BYTE (43_write.md R130). -/
def execWriteByte (a : Nat) (d : Byte) (s : State) : Host.Outcome State Fault Refusal :=
  acceptIO 3 s fun s =>
    if addressOutOfRange s.cfg a then .next (endCommand .addressError (latchData d (latchAddress a s)))
    else .next (writeSequence a [d] (latchData d (latchAddress a s)))

/-- WRITE_PAGE (43_write.md R131): the page test first, then the length test; `n` bytes of the buffer port are sent. -/
def execWritePage (p n : Nat) (buf : List Byte) (s : State) : Host.Outcome State Fault Refusal :=
  acceptIO 4 s fun s =>
    if pageOutOfRange s.cfg p then .next (endCommand .pageError (latchBuffer buf (latchLength n s)))
    else if pageLengthBad s.cfg n then .next (endCommand .sizeError (latchBuffer buf (latchLength n s)))
    else .next (writeSequence (pageAddress s.cfg p) ((pagePort s.portDrawn n buf).take n)
      (latchAddress (pageAddress s.cfg p) (latchPage n buf (latchLength n s))))

end Sys2Proof.Machine
end

