-- ==== Sys2Proof/Machine/Dispatch.lean ====
section
/-! DEFINITION. The meaning of each command: one arm per constructor of `Instr`, one direct call. -/

namespace Sys2Proof.Machine

/-- The meaning of a command in a state. -/
def exec (i : Instr) (s : State) : Host.Outcome State Fault Refusal :=
  match i with
  | .init => Sys2Proof.Machine.execInit s
  | .selectDevice id => Sys2Proof.Machine.execSelectDevice id s
  | .wp mode => Sys2Proof.Machine.execWp mode s
  | .writeByte a d => Sys2Proof.Machine.execWriteByte a d s
  | .writePage p n buf => Sys2Proof.Machine.execWritePage p n buf s
  | .readCurrentByte => Sys2Proof.Machine.execReadCurrentByte s
  | .readByte a => Sys2Proof.Machine.execReadByte a s
  | .readSequential a n => Sys2Proof.Machine.execReadSequential a n s

end Sys2Proof.Machine
end

