-- ==== Sys2Proof/Machine/Step.lean ====
section
/-! DEFINITION. One step of the machine, and the host's placing of a command on the port. -/

namespace Sys2Proof.Machine

/-- One step: in IDLE the host's next command is accepted and run (20_memory.md R51), and with none pending the block
waits (70_reset_and_hazards.md R210; log 23); in the polling loop one more attempt is made (42_write_wait.md R121). -/
def step (s : State) : Host.Outcome State Fault Refusal :=
  match s.seq with
  | .pollStart => pollAgain s
  | .idle =>
    match s.port with
    | [] => .next s
    | r :: rest =>
      match fetchCommand s.cfg r with
      | .error e => .refused e
      | .ok i => exec i { s with port := rest }

/-- `s` with an opcode-table word as the host's next command and no command running, so that the very next step accepts
it: the word's `nbits` bits, every further wire 0, no buffer (log 24). -/
def State.withFetchWord (s : State) (nbits w : Nat) : State :=
  { s with seq := .idle, port := { word := w % 2 ^ nbits, buf := [] } :: s.port }

end Sys2Proof.Machine
end

