-- ==== Sys2Proof/Safety.lean ====
section
/-! DEFINITION. The terms in which claims speak of runs: when a command can be accepted, what a well-formed environment
is, the bus protocol a trace keeps, and the invariants of a safe state. -/

namespace Sys2Proof.Machine

/-- The block can accept a command: an admitted configuration (00_scope.md R8) and IDLE (20_memory.md R51). -/
def State.Ready (s : State) : Prop := admitted s.cfg = true ∧ s.seq = .idle

/-- The block can accept a command that reads `dsb` (70_reset_and_hazards.md R211). -/
def State.ReadyIO (s : State) : Prop := s.Ready ∧ s.dsbSet = true

/-- What no command that does bus work changes: the configuration, `dsb`, and the host's further commands. -/
structure KeepsBlock (s t : State) : Prop where
  cfg : t.cfg = s.cfg
  dsb : t.dsb = s.dsb
  dsbSet : t.dsbSet = s.dsbSet
  port : t.port = s.port

/-- The environment is ENV, with or without fault injection (20_memory.md R59 to R66). -/
def Env.HasChips (e : Env) : Prop := e.kind = .chips ∨ e.kind = .faultyChips

/-- Every valid address fits the bits the encoder sends: "this needs `MEMORY_SIZE <= 2^16 * (ADDR_HIGH_MASK + 1)`, which
both variants meet with equality" (40_address_phase.md R102). R8 alone also admits sizes between the two variants, which
do not meet it (log 32). -/
def Addressable (c : Config) : Prop := c.memorySize ≤ 2 ^ 16 * (c.addrHighMask.toNat + 1)

/-! ### The calls of the spec's sequences (30_encoding.md R77 to R83), as claims write them -/

/-- The OR of the fault sets a list of calls was answered with (10_state.md R26). -/
def answersOr : List Call → Nat
  | [] => 0
  | .addr _ _ f :: cs => f ||| answersOr cs
  | .send _ f :: cs => f ||| answersOr cs
  | .start :: cs => answersOr cs
  | .stop :: cs => answersOr cs
  | .recv _ _ :: cs => answersOr cs
  | .waitMs _ :: cs => answersOr cs
  | .wp _ :: cs => answersOr cs

/-- A WP call where the instance has the pin (00_scope.md R6). -/
def wpCalls (c : Config) (l : Level) : List Call := if c.wpControl then [.wp l] else []

/-- `DEV7(a)` (30_encoding.md R75). -/
def deviceValue (c : Config) (dsb : Dev7) (a : Nat) : Dev7 := dsb ||| (BitVec.ofNat 7 (a >>> 16) &&& c.addrHighMask)

/-- The address phase on the bus (40_address_phase.md R101), with the answers it got. -/
def addressCalls (c : Config) (dsb : Dev7) (a f0 f1 f2 : Nat) : List Call :=
  [.addr (deviceValue c dsb a) .write f0, .send (BitVec.ofNat 8 (a >>> 8 &&& 0xFF)) f1, .send (BitVec.ofNat 8 (a &&& 0xFF)) f2]

/-- The receives of a read: every byte with ACK but the last, which gets NACK (44_read.md R153). -/
def recvCalls : List Byte → List Call
  | [] => []
  | [b] => [.recv .nack b]
  | b :: b' :: bs => .recv .ack b :: recvCalls (b' :: bs)

/-- A write transaction: `S | DEV7(a),W | AH | AL | D0 | ... | Dn-1 | P` (30_encoding.md R78, R79), with its answers. -/
def writeCalls (c : Config) (dsb : Dev7) (a f0 f1 f2 : Nat) (bytes : List Byte) (fs : List Nat) : List Call :=
  [.start] ++ addressCalls c dsb a f0 f1 f2 ++ List.zipWith Call.send bytes fs ++ [.stop]

/-- A random or sequential read: `S | DEV7(a),W | AH | AL | P | S | DEV7(a),R | B0 ... | P` (30_encoding.md R80, R81). -/
def readCalls (c : Config) (dsb : Dev7) (a f0 f1 f2 f3 : Nat) (bytes : List Byte) : List Call :=
  [.start] ++ addressCalls c dsb a f0 f1 f2 ++ [.stop, .start, .addr (deviceValue c dsb a) .read f3] ++
    recvCalls bytes ++ [.stop]

/-- The status of a sequence of calls when nothing else went wrong (10_state.md R26, 60_exceptions.md R185). -/
def statusOfCalls (cs : List Call) : Status := if answersOr cs = 0 then .ok else .transportError

/-- How a write command ends after its write-completion wait (43_write.md R130 to R134): `pre` is the trace when the wait
is over, `f` the accumulated fault, `bytes` what was to be written at `a`. WP is closed; a fault ends the command; a
clean write is read back where the instance checks integrity. -/
structure WriteEnds (s : State) (a : Nat) (bytes : List Byte) (f : Nat) (pre : List Call) (t : State) : Prop where
  idle : t.seq = .idle
  faulted : f ≠ 0 → t.trace = pre ++ wpCalls s.cfg .high ∧ t.status = some .transportError
  unchecked : f = 0 → s.cfg.integrityCheck = false → t.trace = pre ++ wpCalls s.cfg .high ∧ t.status = some .ok
  checked : f = 0 → s.cfg.integrityCheck = true →
    ∃ g0 g1 g2 g3, ∃ bs : List Byte, bs.length = bytes.length ∧
      t.trace = pre ++ wpCalls s.cfg .high ++ readCalls s.cfg s.dsb a g0 g1 g2 g3 bs ∧
      t.status = some (if g0 ||| g1 ||| g2 ||| g3 ≠ 0 then .transportError else if bs ≠ bytes then .dataError else .ok)

/-- A byte of chip `k`'s array, or none where there is no such chip. -/
def byteAt (e : Env) (k x : Nat) : Option Byte := (e.chips[k]?).map fun ch => memRead ch.mem x

/-- The chip that the block's device values address at present (20_memory.md R61), by index. -/
def selectedChip (s : State) : Option Nat := chipFor s.cfg s.env.chips s.dsb

/-- The address the triple of `a` carries: where the address phase sets the pointer of the chip it reaches, and so where a
write stores and a read begins (20_memory.md R62, 40_address_phase.md R102). It is `a` itself for every valid `a` of an
`Addressable` instance. -/
def wireAddr (c : Config) (dsb : Dev7) (a : Nat) : Nat :=
  joinAddr (deviceValue c dsb a &&& c.addrHighMask) (encodeAddr c dsb a).ah (encodeAddr c dsb a).al

/-- Chip `k`, where there is one, is not in a write cycle (10_state.md R29). -/
def Env.ChipReady (e : Env) (k : Nat) : Prop := ∀ ch, e.chips[k]? = some ch → ch.busy = false

/-- The selected chip is there and not in a write cycle (10_state.md R29). -/
def State.ChipIdle (s : State) (k : Nat) : Prop :=
  selectedChip s = some k ∧ ∀ ch ∈ s.env.chips, ch.busy = false

/-- A call without the environment's answer: what the block itself decided to do (00_scope.md R12). -/
inductive Request where
  | start
  | stop
  | addr (dev : Dev7) (dir : Dir)
  | send (b : Byte)
  | recv (pol : AckPolicy)
  | waitMs (n : Nat)
  | wp (level : Level)
deriving DecidableEq, Repr

/-- The block's side of a call. -/
def requestOf : Call → Request
  | .start => .start
  | .stop => .stop
  | .addr dev dir _ => .addr dev dir
  | .send b _ => .send b
  | .recv pol _ => .recv pol
  | .waitMs n => .waitMs n
  | .wp l => .wp l

/-! ### The bus protocol (60_exceptions.md R195, 44_read.md R153, R154) -/

/-- Where a transport stands between two calls. -/
inductive BusPhase where
  /-- no open transaction -/
  | closed
  /-- a start, and no device value yet -/
  | opened
  /-- a device value in write direction; whether a byte has been sent since -/
  | writing (sent : Bool)
  /-- a device value in read direction, and no receive with NACK yet -/
  | reading
  /-- the last byte of a read has been received with NACK -/
  | ended
deriving DecidableEq, Repr

/-- What one call does to the transport, or none where the block's duties of R195 forbid the call: `send` only after a
write-direction device value, `recv` only after a read-direction one, after the NACK only the stop, and a repeated start
only after a device value to which nothing was sent (the polling loop, 42_write_wait.md R121). -/
def busPhaseStep : BusPhase → Call → Option BusPhase
  | .closed, .start => some .opened
  | .closed, .waitMs _ => some .closed
  | .closed, .wp _ => some .closed
  | .opened, .addr _ .write _ => some (.writing false)
  | .opened, .addr _ .read _ => some .reading
  | .writing _, .send _ _ => some (.writing true)
  | .writing _, .stop => some .closed
  | .writing false, .start => some .opened
  | .reading, .recv .ack _ => some .reading
  | .reading, .recv .nack _ => some .ended
  | .ended, .stop => some .closed
  | _, _ => none

/-- The transport after a list of calls, or none once a call was forbidden. -/
def busPhaseAfter : Option BusPhase → List Call → Option BusPhase
  | p, [] => p
  | none, _ :: _ => none
  | some p, c :: cs => busPhaseAfter (busPhaseStep p c) cs

/-- The trace keeps the bus protocol: in IDLE no transaction is open (60_exceptions.md R191); in the polling loop the
last call was a refused device value. -/
def State.BusProtocol (s : State) : Prop :=
  match s.seq with
  | .idle => busPhaseAfter (some .closed) s.trace = some .closed
  | .pollStart => busPhaseAfter (some .closed) s.trace = some (.writing false)

/-- Whether a list of calls holds a polling call (42_write_wait.md R121): a device value in write direction that no send
follows at once. The address phase of a write or a read is always followed by its sends (40_address_phase.md R101). -/
def pollsIn : List Call → Bool
  | [] => false
  | .addr _ .write _ :: .send _ _ :: cs => pollsIn cs
  | .addr _ .write _ :: _ => true
  | _ :: cs => pollsIn cs

/-! ### The status table (60_exceptions.md R189) -/

/-- Which status a command may end with, by the instance (60_exceptions.md R189). -/
def mayReturn (c : Config) : Instr → Status → Bool
  | _, .generalError => false
  | _, .ok => true
  | .init, _ => false
  | .selectDevice _, _ => false
  | .wp _, _ => false
  | .writeByte _ _, st => st = .addressError || st = .transportError || (c.integrityCheck && st = .dataError)
  | .writePage _ _ _, st =>
    st = .pageError || st = .sizeError || st = .transportError || (c.integrityCheck && st = .dataError)
  | .readCurrentByte, st => st = .transportError
  | .readByte _, st => st = .addressError || st = .transportError
  | .readSequential _ _, st => st = .addressError || st = .sizeError || st = .transportError

/-- The commands that may not return at once, with `ACK_POLLING` (60_exceptions.md R189, last column). -/
def mayHang (c : Config) : Instr → Bool
  | .writeByte _ _ => c.ackPolling
  | .writePage _ _ _ => c.ackPolling
  | .init => false
  | .selectDevice _ => false
  | .wp _ => false
  | .readCurrentByte => false
  | .readByte _ => false
  | .readSequential _ _ => false

/-! ### Invariants -/

/-- The invariants of `dsb` (10_state.md R22 (1) and (3)), from the moment it holds a value. -/
def State.DsbFields (s : State) : Prop :=
  s.dsbSet = true →
    s.dsb &&& s.cfg.addrHighMask = 0 ∧ s.dsb &&& ~~~(s.cfg.addrHighMask ||| s.cfg.addrPinMask) = s.cfg.baseAddr

/-- Every chip's array is in canonical form (log 9). -/
def Env.ArraysCanonical (c : Config) (e : Env) : Prop := ∀ ch ∈ e.chips, memWf c.memorySize ch.mem = true

/-- The environment is well formed (20_memory.md R59, 30_encoding.md R85): straps within the mask and distinct, pointers
inside the array, arrays canonical, and NACK a nonzero fault set of the transport's width. -/
structure Env.WellFormed (c : Config) (e : Env) : Prop where
  strapsInMask : ∀ ch ∈ e.chips, ch.pins &&& ~~~c.addrPinMask = 0
  strapsDistinct : (e.chips.map Chip.pins).Nodup
  pointersInside : ∀ ch ∈ e.chips, ch.ptr < c.memorySize
  arraysCanonical : e.ArraysCanonical c
  nackNonzero : e.nackSet ≠ 0
  nackFits : e.nackSet < 2 ^ c.faultW

/-- What holds while a command waits in the polling loop (42_write_wait.md R121, 60_exceptions.md R191,
70_reset_and_hazards.md R216): only a write command of a polling instance is there, it has not answered, its operands have passed
validation, and its WP is open. -/
def State.PollingShape (s : State) : Prop :=
  s.seq = .pollStart →
    s.cfg.ackPolling = true ∧ s.dsbSet = true ∧ (s.op = 3 ∨ s.op = 4) ∧ s.status = none ∧
    s.a < s.cfg.memorySize ∧ (s.op = 4 → s.n ≠ 0) ∧ (s.cfg.wpControl = true → s.env.wpLevel = .low)

/-- A page that waits in the polling loop has all its bytes on the buffer port (43_write.md R131 (6); log 14). -/
def State.PollingBuffer (s : State) : Prop := s.seq = .pollStart → s.op = 4 → s.n ≤ s.bufPort.length

/-- A safe state of the block: what every run keeps from reset on. -/
structure State.Safe (s : State) : Prop where
  admittedCfg : admitted s.cfg = true
  dsbFields : s.DsbFields
  polling : s.PollingShape
  pollingBuffer : s.PollingBuffer
  protocol : s.BusProtocol

end Sys2Proof.Machine
end

