-- ==== Sys2Proof/Certificates/Slice0/Obligations.lean ====
section
/-! DEFINITION. The statements for the provers, family by family; OBLIGATIONS.json lists them. Each holds for every
configuration, environment and answer its hypotheses leave open. -/

open Sys2Proof Sys2Proof.Machine

/-! ### The command record -/

/-- The opcode table's codes (30_encoding.md R71), and one record with every wire of two operands in use: `write_byte(0x2ABCD,
0x5A)` of 95_test_vectors.md P1. The numbering of the wires above bit 2 is the model's (log 12). -/
def Obligations.TableWordsDecode : Prop :=
  decodeTableWord 8 0 = some .init ∧ decodeTableWord 8 1 = some (.selectDevice 0) ∧
  decodeTableWord 8 2 = some (.wp .disabled) ∧ decodeTableWord 8 3 = some (.writeByte 0 0) ∧
  decodeTableWord 8 4 = some (.writePage 0 0 []) ∧ decodeTableWord 8 5 = some .readCurrentByte ∧
  decodeTableWord 8 6 = some (.readByte 0) ∧ decodeTableWord 8 7 = some (.readSequential 0 0) ∧
  decodeTableWord 48 (3 + 2 ^ 3 * 0x2ABCD + 2 ^ 35 * 0x5A) = some (.writeByte 0x2ABCD 0x5A)

/-- Decoding what the encoder drives gives the command back, every operand at every value its port admits
(30_encoding.md R70, R72; the layout is the model's, log 12). -/
def Obligations.DecodeInvertsEncode : Prop :=
  ∀ (c : Config) (i : Instr), i.operandsFit c = true → decode c (encode c i) = .ok i

/-- Every record of the port is a command with the record's own code and with operands its ports carry (30_encoding.md
R71, R73: "every code names a command"); a record with a further wire is rejected by name (log 13). -/
def Obligations.EveryRecordIsItsCodesCommand : Prop :=
  ∀ (c : Config) (r : Command),
    (r.word < 2 ^ recordBits c →
      ∃ i, decode c r = .ok i ∧ opcodeOf i = r.word % 8 ∧ i.operandsFit c = true) ∧
    (2 ^ recordBits c ≤ r.word → decode c r = .error .bitsBeyondRecord)

/-! ### The step -/

/-- A step in IDLE runs the decoded command, with the command taken off the port. -/
def Obligations.StepRunsDecodedCommand : Prop :=
  ∀ (s : State) (r : Command) (rest : List Command) (i : Instr),
    s.seq = .idle → s.port = r :: rest → decode s.cfg r = .ok i → i.wellFormed s.cfg = true →
      step s = exec i { s with port := rest }

/-- A command whose feature the instance lacks is refused and has no step (30_encoding.md R73, U1). -/
def Obligations.AbsentCommandsRefused : Prop :=
  (∀ (s : State) (r : Command) (rest : List Command) (i : Instr),
    s.seq = .idle → s.port = r :: rest → decode s.cfg r = .ok i → i.existsIn s.cfg = false →
      step s = .refused (.illFormed .featureAbsent)) ∧
  (∀ (s : State) (id : Nat), s.cfg.multiDevices = false →
    exec (.selectDevice id) s = .refused (.illFormed .featureAbsent)) ∧
  (∀ (s : State) (mode : WpMode), s.cfg.wpControl = false → exec (.wp mode) s = .refused (.illFormed .featureAbsent))

/-- A WRITE_PAGE on valid operands runs from the port however few bytes its host presents (43_write.md R131 (6),
92_eei_decisions.md D23): what it reads are the bytes presented, then one free value for each byte missing, of which nothing
is known (the model's choice, log 14). What it does with them is `WritePageResult`. -/
def Obligations.ShortBufferRuns : Prop :=
  (∀ (s : State) (r : Command) (rest : List Command) (p n : Nat) (buf : List Byte),
    s.ReadyIO → s.port = r :: rest → decode s.cfg r = .ok (.writePage p n buf) →
    p < s.cfg.pages → n ≠ 0 → n < s.cfg.pageSize →
      ∃ t, step s = .next t ∧ t.port = rest ∧ t.bufPort = pagePort s.portDrawn n buf ∧
        t.portDrawn = s.portDrawn + (n - buf.length)) ∧
  (∀ (k n : Nat) (buf : List Byte), ∃ free, pagePort k n buf = buf ++ free ∧ free.length = n - buf.length)

/-- A configuration that breaks 00_scope.md R8 (or the lower bounds of R9) runs no command and no polling attempt. -/
def Obligations.InadmissibleConfigurationRefused : Prop :=
  ∀ s : State, admitted s.cfg = false →
    (∀ i : Instr, ∃ r, exec i s = .refused r) ∧
    ((s.seq = .idle ∧ s.port = [] ∧ step s = .next s) ∨ ∃ r, step s = .refused r)

/-- While a command runs no other one is accepted (20_memory.md R51, U11): offered one, the machine refuses it, and the
machine's own steps leave the host's commands where they are. -/
def Obligations.NoCommandAcceptedWhileOneRuns : Prop :=
  ∀ s : State, admitted s.cfg = true → s.seq = .pollStart →
    (∀ i : Instr, i.existsIn s.cfg = true → exec i s = .refused .busy) ∧
    (∃ t, step s = .next t ∧ t.port = s.port)

/-- After reset: IDLE, no command in progress, `dsb` without a value, no status, no collaborator call; the block waits
(70_reset_and_hazards.md R210, 10_state.md R31). -/
def Obligations.ResetWaitsForCommands : Prop :=
  State.reset.seq = .idle ∧ State.reset.dsbSet = false ∧ State.reset.status = none ∧ State.reset.trace = [] ∧
  State.reset.port = [] ∧ step State.reset = .next State.reset

/-- A command that reads `dsb` faults as a whole until `dsb` has a value (70_reset_and_hazards.md R211, U2). -/
def Obligations.CommandsBeforeInitFault : Prop :=
  ∀ s : State, s.Ready → s.dsbSet = false →
    (∀ a d, exec (.writeByte a d) s = .fault .dsbHasNoValue) ∧
    (∀ p n buf, exec (.writePage p n buf) s = .fault .dsbHasNoValue) ∧
    exec .readCurrentByte s = .fault .dsbHasNoValue ∧
    (∀ a, exec (.readByte a) s = .fault .dsbHasNoValue) ∧
    (∀ a n, exec (.readSequential a n) s = .fault .dsbHasNoValue)

/-! ### INIT, SELECT_DEVICE, WP -/

/-- INIT's whole effect (41_init_select.md R110): `dsb`, the WP pin where there is one, status OK, and nothing else. WP HIGH
in a multi-device instance is the spec's decision D13. That `op` reads 0 in IDLE and the other latches keep what they
held is the model's choice (log 15): 10_state.md R27 calls them meaningless there. -/
def Obligations.InitResult : Prop :=
  ∀ s : State, s.Ready →
    exec .init s = .next { s with
      op := 0
      status := some .ok
      dsb := if s.cfg.multiDevices then s.cfg.baseAddr else s.cfg.baseAddr ||| (s.cfg.strap &&& s.cfg.addrPinMask)
      dsbSet := true
      env := if s.cfg.wpControl then { s.env with wpLevel := .high } else s.env
      trace := s.trace ++ wpCalls s.cfg .high }

/-- SELECT_DEVICE's whole effect (41_init_select.md R111): `dsb`, status OK, no call at all; before INIT as well (R211). That
`op` reads 1 in IDLE and the other latches keep what they held is the model's choice (log 15; 10_state.md R27). -/
def Obligations.SelectDeviceResult : Prop :=
  ∀ (s : State) (id : Nat), s.Ready → s.cfg.multiDevices = true →
    exec (.selectDevice id) s = .next { s with
      op := 1
      status := some .ok
      dsb := s.cfg.baseAddr ||| (BitVec.ofNat 7 id &&& s.cfg.addrPinMask)
      dsbSet := true }

/-- The values SELECT_DEVICE can give `dsb` with `BASE_ADDR = 0x50` (10_state.md R21): on V2M bit 2 of `id` alone counts,
on V1M bits 2 and 1; the memory-address bits are always 0. -/
def Obligations.SelectDeviceTakesPinBitsOnly : Prop :=
  ∀ (s t : State) (id : Nat), s.cfg.baseAddr = 0x50 → exec (.selectDevice id) s = .next t →
    (262144 ≤ s.cfg.memorySize → t.dsb = if id.testBit 2 then 0x54 else 0x50) ∧
    (s.cfg.memorySize < 262144 →
      t.dsb = if id.testBit 2 then (if id.testBit 1 then 0x56 else 0x54) else (if id.testBit 1 then 0x52 else 0x50))

/-- WP's whole effect (45_wp.md R170): one call at the level of `mode`, status OK, and nothing else. That `op` reads 2 in
IDLE and the other latches keep what they held is the model's choice (log 15; 10_state.md R27). -/
def Obligations.WpResult : Prop :=
  ∀ (s : State) (mode : WpMode), s.Ready → s.cfg.wpControl = true →
    exec (.wp mode) s = .next { s with
      op := 2
      status := some .ok
      env := { s.env with wpLevel := if mode = .enabled then .high else .low }
      trace := s.trace ++ [.wp (if mode = .enabled then .high else .low)] }

/-! ### The address encoder -/

/-- ENCODE is invertible on valid addresses (40_address_phase.md R102), for a `dsb` whose high-address bits are 0 (10_state.md
R22) and under the rule's own condition on the size, which both variants meet: the address comes back from the triple,
and two addresses never share one. -/
def Obligations.EncoderInvertible : Prop :=
  ∀ (c : Config) (dsb : Dev7), admitted c = true → dsb &&& c.addrHighMask = 0 →
    (c.memorySize = 131072 ∨ c.memorySize = 262144 → c.memorySize = 2 ^ 16 * (c.addrHighMask.toNat + 1)) ∧
    (Addressable c → ∀ a, a < c.memorySize →
      a = (((encodeAddr c dsb a).dev7 &&& c.addrHighMask).toNat <<< 16) |||
        ((encodeAddr c dsb a).ah.toNat <<< 8) ||| (encodeAddr c dsb a).al.toNat) ∧
    (Addressable c → ∀ a b, a < c.memorySize → b < c.memorySize → encodeAddr c dsb a = encodeAddr c dsb b → a = b)

/-- The device value bit by bit (30_encoding.md R75): bit 0 is `a[16]`; bit 1 is `a[17]` on V2M and the register's pin bit
on V1M; the other bits are the register's. -/
def Obligations.DeviceValueBits : Prop :=
  ∀ (c : Config) (dsb : Dev7) (a : Nat), admitted c = true → dsb &&& c.addrHighMask = 0 →
    (encodeAddr c dsb a).dev7.getLsbD 0 = a.testBit 16 ∧
    (262144 ≤ c.memorySize → (encodeAddr c dsb a).dev7.getLsbD 1 = a.testBit 17) ∧
    (c.memorySize < 262144 → (encodeAddr c dsb a).dev7.getLsbD 1 = dsb.getLsbD 1) ∧
    (∀ k, 2 ≤ k → k < 7 → (encodeAddr c dsb a).dev7.getLsbD k = dsb.getLsbD k)

/-- A page write lies inside its page and inside the memory (20_memory.md R42). -/
def Obligations.PageWriteStaysInPage : Prop :=
  ∀ (c : Config) (p n : Nat), admitted c = true → p < c.pages → n < c.pageSize →
    pageAddress c p + n < (p + 1) * c.pageSize ∧ (p + 1) * c.pageSize ≤ c.memorySize

/-! ### Validation -/

/-- ADDRESS_ERROR (60_exceptions.md R181): for an address out of range the three commands end with it, without any call,
with `dsb`, outputs and environment untouched; and no command ends with it for another reason. -/
def Obligations.AddressErrorWithoutTraffic : Prop :=
  (∀ (s : State) (a : Nat), s.ReadyIO → s.cfg.memorySize ≤ a →
    ∀ i : Instr, ((∃ d, i = .writeByte a d) ∨ i = .readByte a ∨ ∃ n, i = .readSequential a n) →
      ∃ t, exec i s = .next t ∧ t.status = some .addressError ∧ t.seq = .idle ∧ t.trace = s.trace ∧ t.env = s.env ∧
        t.out = s.out ∧ t.outBuf = s.outBuf ∧ t.fault = s.fault ∧ KeepsBlock s t) ∧
  (∀ (i : Instr) (s t : State), exec i s = .next t → t.status = some .addressError →
    ∃ a, s.cfg.memorySize ≤ a ∧ ((∃ d, i = .writeByte a d) ∨ i = .readByte a ∨ ∃ n, i = .readSequential a n))

/-- PAGE_ERROR (60_exceptions.md R182): WRITE_PAGE with a page out of range, whatever the length (R184), ends with it
without any call; and no command ends with it for another reason. -/
def Obligations.PageErrorWithoutTraffic : Prop :=
  (∀ (s : State) (p n : Nat) (buf : List Byte), s.ReadyIO → s.cfg.pages ≤ p →
    ∃ t, exec (.writePage p n buf) s = .next t ∧ t.status = some .pageError ∧ t.seq = .idle ∧ t.trace = s.trace ∧
      t.env = s.env ∧ t.out = s.out ∧ t.outBuf = s.outBuf ∧ t.fault = s.fault ∧ KeepsBlock s t) ∧
  (∀ (i : Instr) (s t : State), exec i s = .next t → t.status = some .pageError →
    ∃ p n buf, i = .writePage p n buf ∧ s.cfg.pages ≤ p)

/-- SIZE_ERROR (60_exceptions.md R183): on a valid page a length 0 or at least `PAGE_SIZE`, on a valid address a sequential
read of length 0, without any call; and no command ends with it for another reason. That the page or the address is tested
first is the spec's decision D11 (60_exceptions.md R184, R188). -/
def Obligations.SizeErrorWithoutTraffic : Prop :=
  (∀ (s : State) (i : Instr), s.ReadyIO →
    ((∃ p n buf, i = .writePage p n buf ∧ p < s.cfg.pages ∧ (n = 0 ∨ s.cfg.pageSize ≤ n)) ∨
      ∃ a, i = .readSequential a 0 ∧ a < s.cfg.memorySize) →
    ∃ t, exec i s = .next t ∧ t.status = some .sizeError ∧ t.seq = .idle ∧ t.trace = s.trace ∧ t.env = s.env ∧
      t.out = s.out ∧ t.outBuf = s.outBuf ∧ t.fault = s.fault ∧ KeepsBlock s t) ∧
  (∀ (i : Instr) (s t : State), exec i s = .next t → t.status = some .sizeError →
    (∃ p n buf, i = .writePage p n buf ∧ p < s.cfg.pages ∧ (n = 0 ∨ s.cfg.pageSize ≤ n)) ∨
      ∃ a, i = .readSequential a 0 ∧ a < s.cfg.memorySize)

/-! ### The write commands -/

/-- WRITE_BYTE on a valid address (43_write.md R130, R132, R135): the write transaction with all its calls whatever they
answer, WP open around it, then the wait of the instance's strategy, and the end of `WriteEnds`. With polling a refused
first attempt leaves the command in the loop (42_write_wait.md R121), its latches held (10_state.md R27) and no status, the
last response gone since acceptance (the model's choice, log 30). -/
def Obligations.WriteByteResult : Prop :=
  ∀ (s : State) (a : Nat) (d : Byte), s.ReadyIO → a < s.cfg.memorySize →
    ∃ f0 f1 f2 f3 t pre, exec (.writeByte a d) s = .next t ∧ KeepsBlock s t ∧
      pre = s.trace ++ wpCalls s.cfg .low ++ writeCalls s.cfg s.dsb a f0 f1 f2 [d] [f3] ∧
      (s.cfg.ackPolling = false → WriteEnds s a [d] (f0 ||| f1 ||| f2 ||| f3) (pre ++ [.waitMs s.cfg.writeCycleMs]) t) ∧
      (s.cfg.ackPolling = true → ∃ g,
        (g = 0 → WriteEnds s a [d] (f0 ||| f1 ||| f2 ||| f3) (pre ++ [.start, .addr s.dsb .write 0, .stop]) t) ∧
        (g ≠ 0 → t.seq = .pollStart ∧ t.status = none ∧ t.fault = f0 ||| f1 ||| f2 ||| f3 ∧
          t.op = 3 ∧ t.a = a ∧ t.d = d ∧ t.trace = pre ++ [.start, .addr s.dsb .write g]))

/-- WRITE_PAGE on a valid page and length (43_write.md R131, R133, R135), as WRITE_BYTE with the first `n` bytes of the buffer
port (`pagePort`, which is `buf` where the host presents `n` bytes) at `p * PAGE_SIZE`; in the loop its latches are held (10_state.md R27) and there is no status (the model's choice, log 30). -/
def Obligations.WritePageResult : Prop :=
  ∀ (s : State) (p n : Nat) (buf : List Byte), s.ReadyIO → p < s.cfg.pages → n ≠ 0 → n < s.cfg.pageSize →
    ∃ f0 f1 f2 fs t pre f bytes, exec (.writePage p n buf) s = .next t ∧ KeepsBlock s t ∧ fs.length = n ∧
      bytes = (pagePort s.portDrawn n buf).take n ∧ bytes.take buf.length = buf.take n ∧ bytes.length = n ∧
      pre = s.trace ++ wpCalls s.cfg .low ++
        writeCalls s.cfg s.dsb (p * s.cfg.pageSize) f0 f1 f2 bytes fs ∧
      f = f0 ||| f1 ||| f2 ||| fs.foldr (· ||| ·) 0 ∧
      (s.cfg.ackPolling = false →
        WriteEnds s (p * s.cfg.pageSize) bytes f (pre ++ [.waitMs s.cfg.writeCycleMs]) t) ∧
      (s.cfg.ackPolling = true → ∃ g,
        (g = 0 → WriteEnds s (p * s.cfg.pageSize) bytes f (pre ++ [.start, .addr s.dsb .write 0, .stop]) t) ∧
        (g ≠ 0 → t.seq = .pollStart ∧ t.status = none ∧ t.fault = f ∧
          t.op = 4 ∧ t.a = p * s.cfg.pageSize ∧ t.n = n ∧ t.bufPort = pagePort s.portDrawn n buf ∧
          t.trace = pre ++ [.start, .addr s.dsb .write g]))

/-- One more polling attempt (42_write_wait.md R121, R123): a start and the device value `dsb` in write direction; on a
refusal the command stays in the loop with everything but trace and environment as it was; on an acknowledge the stop,
and the end of the write from its latched operands and its own accumulated fault. -/
def Obligations.PollingAttempt : Prop :=
  ∀ s : State, admitted s.cfg = true → s.seq = .pollStart → s.a < s.cfg.memorySize →
    (s.op = 3 ∨ s.op = 4 ∧ s.n ≠ 0 ∧ s.n ≤ s.bufPort.length) →
    ∃ g t, step s = .next t ∧ KeepsBlock s t ∧
      (g ≠ 0 → t = { s with env := t.env, trace := s.trace ++ [.start, .addr s.dsb .write g] } ∧
        t.env.wpLevel = s.env.wpLevel) ∧
      (g = 0 → WriteEnds s s.a (if s.op = 4 then s.bufPort.take s.n else [s.d]) s.fault
        (s.trace ++ [.start, .addr s.dsb .write 0, .stop]) t)

/-- Polling has no bound (42_write_wait.md R121, 70_reset_and_hazards.md R216, U4): with no chip at the selected address the
command is still in the loop after any number of steps, unanswered, with the WP level it had and two calls per step. -/
def Obligations.PollingAbsentChipNeverReturns : Prop :=
  ∀ (s : State) (k : Nat), admitted s.cfg = true → s.seq = .pollStart → s.env.kind = .chips → s.env.nackSet ≠ 0 →
    selectedChip s = none →
    ∃ t, core.run k s = .next t ∧ t.seq = .pollStart ∧ t.status = s.status ∧ t.env.wpLevel = s.env.wpLevel ∧
      t.port = s.port ∧ t.trace.length = s.trace.length + 2 * k

/-- Polling ends at the first acknowledge and not before (42_write_wait.md R121): against a transport whose next `j` answers
are faults of any kind and whose answer after them is 0, `j` steps stay in the loop and one more ends the command. -/
def Obligations.PollingEndsAtFirstAcknowledge : Prop :=
  ∀ (s : State) (faults : List Draw) (good : Draw) (more : List Draw),
    admitted s.cfg = true → s.seq = .pollStart → s.status = none → s.env.kind = .mock →
    s.env.draws = faults ++ good :: more → (∀ d ∈ faults, faultSet s.cfg d.fault ≠ 0) → faultSet s.cfg good.fault = 0 →
    (∃ t, core.run faults.length s = .next t ∧ t.seq = .pollStart ∧ t.status = none) ∧
    (∃ t, core.run (faults.length + 1) s = .next t ∧ t.seq = .idle ∧ t.status ≠ none)

/-- The WP level around a write (43_write.md R134, 60_exceptions.md R191, 70_reset_and_hazards.md R216): HIGH when a write that
passed validation has ended, in its first step or at a later polling attempt; LOW while it is in the polling loop; and
untouched, like the whole environment, by a failed validation. -/
def Obligations.WritesEndProtected : Prop :=
  (∀ (i : Instr) (s t : State), ((∃ a d, i = .writeByte a d) ∨ ∃ p n buf, i = .writePage p n buf) →
    s.cfg.wpControl = true → exec i s = .next t →
    (t.seq = .pollStart → t.env.wpLevel = .low) ∧
    (t.status = some .addressError ∨ t.status = some .pageError ∨ t.status = some .sizeError → t.env = s.env) ∧
    (t.seq = .idle → t.status ≠ some .addressError → t.status ≠ some .pageError → t.status ≠ some .sizeError →
      t.env.wpLevel = .high)) ∧
  (∀ s t : State, s.cfg.wpControl = true → s.seq = .pollStart → step s = .next t →
    (t.seq = .pollStart → t.env.wpLevel = s.env.wpLevel) ∧ (t.seq = .idle → t.env.wpLevel = .high))

/-- The two wait strategies exclude each other (42_write_wait.md R123): a polling instance makes no `WaitMs` call; a
fixed-delay instance makes no polling call (`pollsIn`) and its commands have ended, never staying in the loop; and only a
write command makes a `WaitMs` call or a polling call. -/
def Obligations.WaitStrategiesExclusive : Prop :=
  ∀ (i : Instr) (s t : State), exec i s = .next t →
    ∃ cs, t.trace = s.trace ++ cs ∧
      (s.cfg.ackPolling = true → ∀ m, Call.waitMs m ∉ cs) ∧
      (s.cfg.ackPolling = false → t.seq = .idle ∧ pollsIn cs = false) ∧
      (∀ m, Call.waitMs m ∈ cs → m = s.cfg.writeCycleMs) ∧
      ((∃ m, Call.waitMs m ∈ cs) ∨ pollsIn cs = true →
        (∃ a d, i = .writeByte a d) ∨ ∃ p n buf, i = .writePage p n buf)

/-! ### The read commands -/

/-- READ_CURRENT_BYTE (44_read.md R150): `S | dsb,R | B0(NACK) | P`, the received byte on `out`, the status by the one
fault set. -/
def Obligations.ReadCurrentByteResult : Prop :=
  ∀ s : State, s.ReadyIO →
    ∃ f b t, exec .readCurrentByte s = .next t ∧ KeepsBlock s t ∧ t.seq = .idle ∧
      t.trace = s.trace ++ [.start, .addr s.dsb .read f, .recv .nack b, .stop] ∧ t.out = b ∧ t.outBuf = s.outBuf ∧
      t.status = some (if f = 0 then .ok else .transportError)

/-- READ_BYTE on a valid address (44_read.md R151, R154): two transactions, stop plus start between them, the byte on `out`,
the status by all four fault sets. -/
def Obligations.ReadByteResult : Prop :=
  ∀ (s : State) (a : Nat), s.ReadyIO → a < s.cfg.memorySize →
    ∃ f0 f1 f2 f3 b t, exec (.readByte a) s = .next t ∧ KeepsBlock s t ∧ t.seq = .idle ∧
      t.trace = s.trace ++ readCalls s.cfg s.dsb a f0 f1 f2 f3 [b] ∧ t.out = b ∧ t.outBuf = s.outBuf ∧
      t.status = some (if f0 ||| f1 ||| f2 ||| f3 = 0 then .ok else .transportError)

/-- READ_SEQUENTIAL on valid operands (44_read.md R152): `n` receives, the bytes in the host's buffer from `buf[0]` on,
its further places as they were. -/
def Obligations.ReadSequentialResult : Prop :=
  ∀ (s : State) (a n : Nat), s.ReadyIO → a < s.cfg.memorySize → n ≠ 0 →
    ∃ f0 f1 f2 f3 bs t, exec (.readSequential a n) s = .next t ∧ KeepsBlock s t ∧ t.seq = .idle ∧ bs.length = n ∧
      t.trace = s.trace ++ readCalls s.cfg s.dsb a f0 f1 f2 f3 bs ∧ t.out = s.out ∧
      t.outBuf = bs ++ s.outBuf.drop n ∧
      t.status = some (if f0 ||| f1 ||| f2 ||| f3 = 0 then .ok else .transportError)

/-- The terminal NACK (44_read.md R153): in a sequential read of `n` exactly `n - 1` receives with ACK and one, the last,
with NACK, on every path. -/
def Obligations.TerminalNackOnly : Prop :=
  ∀ (s t : State) (a n : Nat), a < s.cfg.memorySize → n ≠ 0 → exec (.readSequential a n) s = .next t →
    ∃ cs, t.trace = s.trace ++ cs ∧
      (cs.map requestOf).count (.recv .ack) = n - 1 ∧ (cs.map requestOf).count (.recv .nack) = 1 ∧
      ∃ front b, cs = front ++ [.recv .nack b, .stop]

/-! ### Whole-machine rules -/

/-- A step keeps the bus protocol (60_exceptions.md R195, R191; 44_read.md R153, R154): no transaction is open in IDLE, data
only inside a transaction of its direction, every read ended by one NACK and a stop, a repeated start only in polling. -/
def Obligations.BusProtocolInvariant : Prop :=
  ∀ s t : State, s.BusProtocol → step s = .next t → t.BusProtocol

/-- A step keeps the invariants of `dsb` (10_state.md R22 (1), (3)). -/
def Obligations.DsbFieldsInvariant : Prop :=
  ∀ s t : State, s.DsbFields → step s = .next t → t.DsbFields

/-- A step keeps the shape of a polling state: only a write command of a polling instance, past its validation,
unanswered, WP open. That there is no status meanwhile is the model's choice (log 30: acceptance clears the last response).
And it keeps a polling page's buffer as long as its length: the port gives every byte it reads (log 14). With these two the
premises of `PollingAttempt` hold in the polling loop. -/
def Obligations.PollingShapeInvariant : Prop :=
  ∀ s t : State, step s = .next t → (s.PollingShape → t.PollingShape) ∧ (s.PollingBuffer → t.PollingBuffer)

/-- A step keeps every chip's array in canonical form (log 9). -/
def Obligations.ArraysCanonicalInvariant : Prop :=
  ∀ s t : State, s.env.ArraysCanonical s.cfg → step s = .next t → t.env.ArraysCanonical t.cfg

/-- A step keeps the environment well formed, pointers inside the array among it (20_memory.md R59). The two premises are
invariants of their own (`DsbFieldsInvariant`, `PollingShapeInvariant`); without them a state that no run reaches could
send a wrong address in a verify read. -/
def Obligations.EnvironmentWellFormedInvariant : Prop :=
  ∀ s t : State, s.DsbFields → s.PollingShape → s.env.WellFormed s.cfg → step s = .next t → t.env.WellFormed t.cfg

/-- The reset state meets all these invariants. -/
def Obligations.ResetMeetsInvariants : Prop :=
  State.reset.Safe ∧ State.reset.env.WellFormed State.reset.cfg

/-- `dsb` is written by INIT and SELECT_DEVICE and by nothing else (10_state.md R20, 40_address_phase.md R103). -/
def Obligations.OnlyInitAndSelectWriteDsb : Prop :=
  (∀ (i : Instr) (s t : State), exec i s = .next t → i ≠ .init → (∀ id, i ≠ .selectDevice id) →
    t.dsb = s.dsb ∧ t.dsbSet = s.dsbSet) ∧
  (∀ s t : State, s.seq = .pollStart → step s = .next t → t.dsb = s.dsb ∧ t.dsbSet = s.dsbSet)

/-- No step changes the configuration (10_state.md R28) or takes back a call once made (00_scope.md R12). -/
def Obligations.ConfigurationFixedTraceGrows : Prop :=
  ∀ s t : State, step s = .next t → t.cfg = s.cfg ∧ ∃ cs, t.trace = s.trace ++ cs

/-- Which command ends with which status, and which may still be running (60_exceptions.md R189); and with which status a
write ends at a later polling attempt, past its validation (R188), from a state of the shape every run keeps
(`PollingShapeInvariant`). No status while it runs is the model's choice (log 30). -/
def Obligations.StatusTable : Prop :=
  (∀ (i : Instr) (s t : State), exec i s = .next t →
    (t.seq = .idle ∧ ∃ st, t.status = some st ∧ mayReturn s.cfg i st = true) ∨
    (t.seq = .pollStart ∧ t.status = none ∧ mayHang s.cfg i = true)) ∧
  (∀ s t : State, s.PollingShape → s.seq = .pollStart → step s = .next t →
    (t.seq = .idle ∧ (t.status = some .ok ∨ t.status = some .transportError ∨
      t.status = some .dataError ∧ s.cfg.integrityCheck = true)) ∨
    (t.seq = .pollStart ∧ t.status = none))

/-- GENERAL_ERROR is never produced, by a command or by polling (60_exceptions.md R187, U3). -/
def Obligations.GeneralErrorNever : Prop :=
  (∀ (i : Instr) (s t : State), exec i s = .next t → t.status ≠ some .generalError) ∧
  (∀ s t : State, step s = .next t → s.status ≠ some .generalError → t.status ≠ some .generalError)

/-- What the commands with bus work and the polling attempts leave unchanged of the latches and outputs: a write and its
verify read no output (43_write.md R133), a read only its own (30_encoding.md R72). Which latches keep their values in IDLE is
the model's choice (log 15): 10_state.md R27 calls them meaningless there; during polling they are held (R27). -/
def Obligations.InputOutputFrame : Prop :=
  (∀ (s t : State) (a : Nat) (d : Byte), exec (.writeByte a d) s = .next t →
    KeepsBlock s t ∧ t.n = s.n ∧ t.bufPort = s.bufPort ∧ t.portDrawn = s.portDrawn ∧ t.out = s.out ∧ t.outBuf = s.outBuf) ∧
  (∀ (s t : State) (p n : Nat) (buf : List Byte), exec (.writePage p n buf) s = .next t →
    KeepsBlock s t ∧ t.d = s.d ∧ (t.portDrawn = s.portDrawn ∨ t.portDrawn = s.portDrawn + (n - buf.length)) ∧
      t.out = s.out ∧ t.outBuf = s.outBuf) ∧
  (∀ s t : State, exec .readCurrentByte s = .next t →
    KeepsBlock s t ∧ t.a = s.a ∧ t.d = s.d ∧ t.n = s.n ∧ t.i = s.i ∧ t.bufPort = s.bufPort ∧ t.portDrawn = s.portDrawn ∧ t.rb = s.rb ∧
      t.outBuf = s.outBuf ∧ t.env.wpLevel = s.env.wpLevel) ∧
  (∀ (s t : State) (a : Nat), exec (.readByte a) s = .next t →
    KeepsBlock s t ∧ t.d = s.d ∧ t.n = s.n ∧ t.i = s.i ∧ t.bufPort = s.bufPort ∧ t.portDrawn = s.portDrawn ∧ t.rb = s.rb ∧
      t.outBuf = s.outBuf ∧ t.env.wpLevel = s.env.wpLevel) ∧
  (∀ (s t : State) (a n : Nat), exec (.readSequential a n) s = .next t →
    KeepsBlock s t ∧ t.d = s.d ∧ t.bufPort = s.bufPort ∧ t.portDrawn = s.portDrawn ∧ t.rb = s.rb ∧ t.out = s.out ∧
      t.env.wpLevel = s.env.wpLevel) ∧
  (∀ s t : State, s.seq = .pollStart → step s = .next t →
    KeepsBlock s t ∧ t.op = s.op ∧ t.a = s.a ∧ t.d = s.d ∧ t.n = s.n ∧ t.bufPort = s.bufPort ∧
      t.portDrawn = s.portDrawn ∧ t.out = s.out ∧ t.outBuf = s.outBuf)

/-- No early exit (43_write.md R135, 70_reset_and_hazards.md R223): with a fixed delay and no read-back, what a command
requests of its collaborators does not depend on anything they answer: two runs that differ in the whole environment
make the same requests. -/
def Obligations.RequestsIndependentOfAnswers : Prop :=
  ∀ (i : Instr) (s t t' : State) (e : Env), s.cfg.ackPolling = false → s.cfg.integrityCheck = false →
    exec i s = .next t → exec i { s with env := e } = .next t' →
      t.trace.map requestOf = t'.trace.map requestOf

/-- No command leaves a residue for the next (60_exceptions.md R192): what a command does, answers and puts out does not
depend on the accumulator, the latches and the status that the commands before it left. -/
def Obligations.NoResidueBetweenCommands : Prop :=
  ∀ (i : Instr) (s r t : State),
    r = { s with
      fault := r.fault
      op := r.op
      a := r.a
      d := r.d
      n := r.n
      i := r.i
      bufPort := r.bufPort
      rb := r.rb
      status := r.status } →
    exec i s = .next t →
      ∃ t', exec i r = .next t' ∧ t'.trace = t.trace ∧ t'.status = t.status ∧ t'.seq = t.seq ∧ t'.out = t.out ∧
        t'.outBuf = t.outBuf ∧ t'.portDrawn = t.portDrawn ∧ t'.dsb = t.dsb ∧ t'.dsbSet = t.dsbSet ∧ t'.env = t.env

/-- The status codes are 0 to 6 in the order of the taxonomy, pairwise different, and code 7 is never produced
(30_encoding.md R74). -/
def Obligations.StatusCodesDistinct : Prop :=
  statusCode .ok = 0 ∧ statusCode .addressError = 1 ∧ statusCode .pageError = 2 ∧ statusCode .sizeError = 3 ∧
  statusCode .dataError = 4 ∧ statusCode .transportError = 5 ∧ statusCode .generalError = 6 ∧
  ∀ st st' : Status, statusCode st ≠ 7 ∧ (statusCode st = statusCode st' → st = st')

/-! ### The array, in the reference environment -/

/-- No step changes the board: which environment it is, its NACK, the chips' straps and their number; and an instance
without WP control leaves the WP level (00_scope.md R6, 20_memory.md R59). That the kind of environment and the NACK fault set
are fixed fields is the model's choice (log 6, log 18). -/
def Obligations.BoardUnchanged : Prop :=
  ∀ s t : State, step s = .next t →
    t.env.kind = s.env.kind ∧ t.env.nackSet = s.env.nackSet ∧ t.env.chips.map Chip.pins = s.env.chips.map Chip.pins ∧
      (s.cfg.wpControl = false → t.env.wpLevel = s.env.wpLevel)

/-- A chip answers exactly to its own device values (20_memory.md R43, R61): with straps within the mask and distinct, the
device value of any address with chip `k`'s straps finds chip `k`. -/
def Obligations.DeviceValueFindsItsChip : Prop :=
  ∀ (c : Config) (e : Env) (k : Nat) (ch : Chip) (a : Nat), admitted c = true → e.WellFormed c → e.chips[k]? = some ch →
    chipFor c e.chips (encodeAddr c (c.baseAddr ||| ch.pins) a).dev7 = some k

/-- The read commands, INIT, SELECT_DEVICE and WP leave every byte of every array as it was. -/
def Obligations.ArraysUnchangedWithoutWrite : Prop :=
  ∀ (i : Instr) (s t : State), (∀ a d, i ≠ .writeByte a d) → (∀ p n buf, i ≠ .writePage p n buf) →
    exec i s = .next t → ∀ k x, byteAt t.env k x = byteAt s.env k x

/-- A write command changes no byte outside those it stores: WRITE_BYTE one byte, WRITE_PAGE `n` bytes, from the address
that the triple of `a` or of the page address carries, in the selected chip only (43_write.md R130, R131; 20_memory.md R42,
R62, R63); polling changes none. That address is `a` itself on every instance that meets R102's condition (the sizes that do
not: log 32). -/
def Obligations.WritesChangeOnlyTheirBytes : Prop :=
  (∀ (s t : State) (a : Nat) (d : Byte), exec (.writeByte a d) s = .next t →
    ∀ k x, (x ≠ wireAddr s.cfg s.dsb a ∨ selectedChip s ≠ some k) → byteAt t.env k x = byteAt s.env k x) ∧
  (∀ (s t : State) (p n : Nat) (buf : List Byte), exec (.writePage p n buf) s = .next t →
    ∀ k x, (x < wireAddr s.cfg s.dsb (pageAddress s.cfg p) ∨ wireAddr s.cfg s.dsb (pageAddress s.cfg p) + n ≤ x ∨
        selectedChip s ≠ some k) →
      byteAt t.env k x = byteAt s.env k x) ∧
  (∀ s t : State, s.seq = .pollStart → step s = .next t → ∀ k x, byteAt t.env k x = byteAt s.env k x) ∧
  (∀ (c : Config) (dsb : Dev7) (a : Nat), admitted c = true → dsb &&& c.addrHighMask = 0 → Addressable c →
    a < c.memorySize → wireAddr c dsb a = a)

/-- WRITE_BYTE then READ_BYTE (20_memory.md R52 (b)): in ENV, whatever faults it injects, when both commands end with OK the
byte read is the byte written. -/
def Obligations.ByteRoundTrip : Prop :=
  ∀ (s t u : State) (a : Nat) (d : Byte), s.DsbFields → s.env.HasChips → s.env.WellFormed s.cfg →
    exec (.writeByte a d) s = .next t → t.status = some .ok → exec (.readByte a) t = .next u → u.status = some .ok →
      u.out = d

/-- The same through the polling loop: the write may wait any number of attempts before it ends. -/
def Obligations.ByteRoundTripThroughPolling : Prop :=
  ∀ (s t w u : State) (k a : Nat) (d : Byte), s.DsbFields → s.env.HasChips → s.env.WellFormed s.cfg → s.port = [] →
    exec (.writeByte a d) s = .next t → core.run k t = .next w → w.status = some .ok →
    exec (.readByte a) w = .next u → u.status = some .ok → u.out = d

/-- In a fault-free ENV with the selected chip there and idle, a fixed-delay instance completes both with OK: the round trip
is no empty promise. The byte stands where the triple of `a` points, at `a` itself under R102's condition (log 32). -/
def Obligations.ByteRoundTripCompletes : Prop :=
  ∀ (s : State) (k a : Nat) (d : Byte), s.ReadyIO → s.DsbFields → s.env.kind = .chips → s.env.WellFormed s.cfg →
    s.ChipIdle k → s.cfg.ackPolling = false → a < s.cfg.memorySize →
    ∃ t u, exec (.writeByte a d) s = .next t ∧ t.status = some .ok ∧
      byteAt t.env k (wireAddr s.cfg s.dsb a) = some d ∧
      exec (.readByte a) t = .next u ∧ u.status = some .ok ∧ u.out = d

/-- WRITE_PAGE then READ_SEQUENTIAL of the same bytes (20_memory.md R52 (b)): when both end with OK the host's buffer holds
what was written: the bytes the host presented, and after them, where it presented fewer than `n`, the free values that
stood in their place (log 14). -/
def Obligations.PageRoundTrip : Prop :=
  ∀ (s t u : State) (p n : Nat) (buf : List Byte), s.DsbFields → s.env.HasChips → s.env.WellFormed s.cfg →
    exec (.writePage p n buf) s = .next t → t.status = some .ok →
    exec (.readSequential (pageAddress s.cfg p) n) t = .next u → u.status = some .ok →
      u.outBuf.take n = (pagePort s.portDrawn n buf).take n ∧ u.outBuf.take (min n buf.length) = buf.take n

/-- The chip's pointer (10_state.md R29, 20_memory.md R50, R64): in a fault-free ENV READ_CURRENT_BYTE gives the byte at the
selected chip's pointer and moves it on by one, modulo the memory size. -/
def Obligations.CurrentReadFollowsPointer : Prop :=
  ∀ (s : State) (k : Nat) (ch : Chip), s.ReadyIO → s.env.kind = .chips → s.ChipIdle k → s.env.chips[k]? = some ch →
    ∃ t, exec .readCurrentByte s = .next t ∧ t.status = some .ok ∧ t.out = memRead ch.mem ch.ptr ∧
      (t.env.chips[k]?).map Chip.ptr = some ((ch.ptr + 1) % s.cfg.memorySize)

/-- The pointer after a command that ends with OK (10_state.md R29, 70_reset_and_hazards.md R221): "equal to the last accessed
address + 1, modulo memory size", in ENV, for the selected chip, counted from the address the triple carries (which is the
operand's own under R102's condition, `WritesChangeOnlyTheirBytes`; log 32). A polling attempt moves no pointer
(42_write_wait.md R121); only the verify read after an acknowledged one may, and when that command ends with OK the selected
chip's pointer is again one past the bytes written. -/
def Obligations.PointerFollowsLastAccess : Prop :=
  (∀ (s t : State) (k : Nat), s.DsbFields → s.env.HasChips → s.env.WellFormed s.cfg →
    selectedChip s = some k → t.status = some .ok →
    (∀ a d, exec (.writeByte a d) s = .next t →
      (t.env.chips[k]?).map Chip.ptr = some ((wireAddr s.cfg s.dsb a + 1) % s.cfg.memorySize)) ∧
    (∀ p n buf, exec (.writePage p n buf) s = .next t →
      (t.env.chips[k]?).map Chip.ptr =
        some ((wireAddr s.cfg s.dsb (pageAddress s.cfg p) + n) % s.cfg.memorySize)) ∧
    (∀ a, exec (.readByte a) s = .next t →
      (t.env.chips[k]?).map Chip.ptr = some ((wireAddr s.cfg s.dsb a + 1) % s.cfg.memorySize)) ∧
    (∀ a n, exec (.readSequential a n) s = .next t →
      (t.env.chips[k]?).map Chip.ptr = some ((wireAddr s.cfg s.dsb a + n) % s.cfg.memorySize))) ∧
  (∀ s t : State, s.seq = .pollStart → step s = .next t → (s.cfg.integrityCheck = false ∨ t.seq = .pollStart) →
    t.env.chips.map Chip.ptr = s.env.chips.map Chip.ptr) ∧
  (∀ (s t : State) (k : Nat), s.env.HasChips → s.env.nackSet ≠ 0 → s.seq = .pollStart → s.cfg.integrityCheck = true →
    selectedChip s = some k → step s = .next t → t.seq = .idle → t.status = some .ok →
    (t.env.chips[k]?).map Chip.ptr =
      some ((wireAddr s.cfg s.dsb s.a + if s.op = 4 then s.n else 1) % s.cfg.memorySize))

/-- The chip is ready when a write has ended (20_memory.md R52 (a), R65; 42_write_wait.md R122; 70_reset_and_hazards.md R215): in
ENV no chip is in a write cycle after a fixed-delay write on valid operands, and the selected chip is not after any write
that has ended, at once or at a later polling attempt. -/
def Obligations.ChipsReadyAfterWrite : Prop :=
  (∀ (i : Instr) (s t : State), s.env.HasChips →
    ((∃ a d, i = .writeByte a d ∧ a < s.cfg.memorySize) ∨
      ∃ p n buf, i = .writePage p n buf ∧ p < s.cfg.pages ∧ n ≠ 0 ∧ n < s.cfg.pageSize) →
    exec i s = .next t →
    (s.cfg.ackPolling = false → ∀ k, t.env.ChipReady k) ∧
    (s.env.nackSet ≠ 0 → t.seq = .idle → ∀ k, selectedChip s = some k → t.env.ChipReady k)) ∧
  (∀ (s t : State) (k : Nat), s.env.HasChips → s.env.nackSet ≠ 0 → s.seq = .pollStart → step s = .next t →
    t.seq = .idle → selectedChip s = some k → t.env.ChipReady k)

/-- An absent chip (70_reset_and_hazards.md R216, 95_test_vectors.md P4): with a fixed delay every command with bus work on
valid operands still runs to its end and reports TRANSPORT_ERROR, and no array changes. -/
def Obligations.AbsentChipReportsTransportError : Prop :=
  ∀ (i : Instr) (s t : State), s.DsbFields → s.env.HasChips → s.env.nackSet ≠ 0 → s.cfg.ackPolling = false →
    selectedChip s = none →
    ((∃ a d, i = .writeByte a d ∧ a < s.cfg.memorySize) ∨
      (∃ p n buf, i = .writePage p n buf ∧ p < s.cfg.pages ∧ n ≠ 0 ∧ n < s.cfg.pageSize) ∨ i = .readCurrentByte ∨
      (∃ a, i = .readByte a ∧ a < s.cfg.memorySize) ∨
      ∃ a n, i = .readSequential a n ∧ a < s.cfg.memorySize ∧ n ≠ 0) →
    exec i s = .next t → t.seq = .idle ∧ t.status = some .transportError ∧ ∀ k x, byteAt t.env k x = byteAt s.env k x

/-- The page round trip of `PageRoundTrip` through the polling loop (20_memory.md R52 (b), 42_write_wait.md R121): the write may
wait any number of attempts before it ends. -/
def Obligations.PageRoundTripThroughPolling : Prop :=
  ∀ (s t w u : State) (k p n : Nat) (buf : List Byte), s.DsbFields → s.env.HasChips → s.env.WellFormed s.cfg →
    s.port = [] → exec (.writePage p n buf) s = .next t → core.run k t = .next w → w.status = some .ok →
    exec (.readSequential (pageAddress s.cfg p) n) w = .next u → u.status = some .ok →
      u.outBuf.take n = (pagePort s.portDrawn n buf).take n ∧ u.outBuf.take (min n buf.length) = buf.take n
end

