-- ==== Sys2Proof/Laws/State.lean ====
section
/-! SUPPORT. One lemma per field of `State` for each shared update: what it writes, and that it leaves the rest. -/

namespace Sys2Proof.Machine

variable (s : State)

@[simp] theorem clearFault_cfg : (clearFault s).cfg = s.cfg := rfl
@[simp] theorem clearFault_dsb : (clearFault s).dsb = s.dsb := rfl
@[simp] theorem clearFault_dsbSet : (clearFault s).dsbSet = s.dsbSet := rfl
@[simp] theorem clearFault_seq : (clearFault s).seq = s.seq := rfl
@[simp] theorem clearFault_fault : (clearFault s).fault = 0 := rfl
@[simp] theorem clearFault_op : (clearFault s).op = s.op := rfl
@[simp] theorem clearFault_a : (clearFault s).a = s.a := rfl
@[simp] theorem clearFault_d : (clearFault s).d = s.d := rfl
@[simp] theorem clearFault_n : (clearFault s).n = s.n := rfl
@[simp] theorem clearFault_i : (clearFault s).i = s.i := rfl
@[simp] theorem clearFault_bufPort : (clearFault s).bufPort = s.bufPort := rfl
@[simp] theorem clearFault_portDrawn : (clearFault s).portDrawn = s.portDrawn := rfl
@[simp] theorem clearFault_rb : (clearFault s).rb = s.rb := rfl
@[simp] theorem clearFault_status : (clearFault s).status = s.status := rfl
@[simp] theorem clearFault_out : (clearFault s).out = s.out := rfl
@[simp] theorem clearFault_outBuf : (clearFault s).outBuf = s.outBuf := rfl
@[simp] theorem clearFault_port : (clearFault s).port = s.port := rfl
@[simp] theorem clearFault_env : (clearFault s).env = s.env := rfl
@[simp] theorem clearFault_trace : (clearFault s).trace = s.trace := rfl

@[simp] theorem orFault_cfg (f : Nat) : (orFault f s).cfg = s.cfg := rfl
@[simp] theorem orFault_dsb (f : Nat) : (orFault f s).dsb = s.dsb := rfl
@[simp] theorem orFault_dsbSet (f : Nat) : (orFault f s).dsbSet = s.dsbSet := rfl
@[simp] theorem orFault_seq (f : Nat) : (orFault f s).seq = s.seq := rfl
@[simp] theorem orFault_fault (f : Nat) : (orFault f s).fault = s.fault ||| f := rfl
@[simp] theorem orFault_op (f : Nat) : (orFault f s).op = s.op := rfl
@[simp] theorem orFault_a (f : Nat) : (orFault f s).a = s.a := rfl
@[simp] theorem orFault_d (f : Nat) : (orFault f s).d = s.d := rfl
@[simp] theorem orFault_n (f : Nat) : (orFault f s).n = s.n := rfl
@[simp] theorem orFault_i (f : Nat) : (orFault f s).i = s.i := rfl
@[simp] theorem orFault_bufPort (f : Nat) : (orFault f s).bufPort = s.bufPort := rfl
@[simp] theorem orFault_portDrawn (f : Nat) : (orFault f s).portDrawn = s.portDrawn := rfl
@[simp] theorem orFault_rb (f : Nat) : (orFault f s).rb = s.rb := rfl
@[simp] theorem orFault_status (f : Nat) : (orFault f s).status = s.status := rfl
@[simp] theorem orFault_out (f : Nat) : (orFault f s).out = s.out := rfl
@[simp] theorem orFault_outBuf (f : Nat) : (orFault f s).outBuf = s.outBuf := rfl
@[simp] theorem orFault_port (f : Nat) : (orFault f s).port = s.port := rfl
@[simp] theorem orFault_env (f : Nat) : (orFault f s).env = s.env := rfl
@[simp] theorem orFault_trace (f : Nat) : (orFault f s).trace = s.trace := rfl

@[simp] theorem busStart_cfg : (busStart s).cfg = s.cfg := rfl
@[simp] theorem busStart_dsb : (busStart s).dsb = s.dsb := rfl
@[simp] theorem busStart_dsbSet : (busStart s).dsbSet = s.dsbSet := rfl
@[simp] theorem busStart_seq : (busStart s).seq = s.seq := rfl
@[simp] theorem busStart_fault : (busStart s).fault = s.fault := rfl
@[simp] theorem busStart_op : (busStart s).op = s.op := rfl
@[simp] theorem busStart_a : (busStart s).a = s.a := rfl
@[simp] theorem busStart_d : (busStart s).d = s.d := rfl
@[simp] theorem busStart_n : (busStart s).n = s.n := rfl
@[simp] theorem busStart_i : (busStart s).i = s.i := rfl
@[simp] theorem busStart_bufPort : (busStart s).bufPort = s.bufPort := rfl
@[simp] theorem busStart_portDrawn : (busStart s).portDrawn = s.portDrawn := rfl
@[simp] theorem busStart_rb : (busStart s).rb = s.rb := rfl
@[simp] theorem busStart_status : (busStart s).status = s.status := rfl
@[simp] theorem busStart_out : (busStart s).out = s.out := rfl
@[simp] theorem busStart_outBuf : (busStart s).outBuf = s.outBuf := rfl
@[simp] theorem busStart_port : (busStart s).port = s.port := rfl
@[simp] theorem busStart_env : (busStart s).env = envStart s.env := rfl
@[simp] theorem busStart_trace : (busStart s).trace = s.trace ++ [.start] := rfl

@[simp] theorem busStop_cfg : (busStop s).cfg = s.cfg := rfl
@[simp] theorem busStop_dsb : (busStop s).dsb = s.dsb := rfl
@[simp] theorem busStop_dsbSet : (busStop s).dsbSet = s.dsbSet := rfl
@[simp] theorem busStop_seq : (busStop s).seq = s.seq := rfl
@[simp] theorem busStop_fault : (busStop s).fault = s.fault := rfl
@[simp] theorem busStop_op : (busStop s).op = s.op := rfl
@[simp] theorem busStop_a : (busStop s).a = s.a := rfl
@[simp] theorem busStop_d : (busStop s).d = s.d := rfl
@[simp] theorem busStop_n : (busStop s).n = s.n := rfl
@[simp] theorem busStop_i : (busStop s).i = s.i := rfl
@[simp] theorem busStop_bufPort : (busStop s).bufPort = s.bufPort := rfl
@[simp] theorem busStop_portDrawn : (busStop s).portDrawn = s.portDrawn := rfl
@[simp] theorem busStop_rb : (busStop s).rb = s.rb := rfl
@[simp] theorem busStop_status : (busStop s).status = s.status := rfl
@[simp] theorem busStop_out : (busStop s).out = s.out := rfl
@[simp] theorem busStop_outBuf : (busStop s).outBuf = s.outBuf := rfl
@[simp] theorem busStop_port : (busStop s).port = s.port := rfl
@[simp] theorem busStop_env : (busStop s).env = envStop s.cfg s.env := rfl
@[simp] theorem busStop_trace : (busStop s).trace = s.trace ++ [.stop] := rfl

@[simp] theorem busAddr_cfg (dev : Dev7) (dir : Dir) : (busAddr dev dir s).2.cfg = s.cfg := rfl
@[simp] theorem busAddr_dsb (dev : Dev7) (dir : Dir) : (busAddr dev dir s).2.dsb = s.dsb := rfl
@[simp] theorem busAddr_dsbSet (dev : Dev7) (dir : Dir) : (busAddr dev dir s).2.dsbSet = s.dsbSet := rfl
@[simp] theorem busAddr_seq (dev : Dev7) (dir : Dir) : (busAddr dev dir s).2.seq = s.seq := rfl
@[simp] theorem busAddr_fault (dev : Dev7) (dir : Dir) : (busAddr dev dir s).2.fault = s.fault := rfl
@[simp] theorem busAddr_op (dev : Dev7) (dir : Dir) : (busAddr dev dir s).2.op = s.op := rfl
@[simp] theorem busAddr_a (dev : Dev7) (dir : Dir) : (busAddr dev dir s).2.a = s.a := rfl
@[simp] theorem busAddr_d (dev : Dev7) (dir : Dir) : (busAddr dev dir s).2.d = s.d := rfl
@[simp] theorem busAddr_n (dev : Dev7) (dir : Dir) : (busAddr dev dir s).2.n = s.n := rfl
@[simp] theorem busAddr_i (dev : Dev7) (dir : Dir) : (busAddr dev dir s).2.i = s.i := rfl
@[simp] theorem busAddr_bufPort (dev : Dev7) (dir : Dir) : (busAddr dev dir s).2.bufPort = s.bufPort := rfl
@[simp] theorem busAddr_portDrawn (dev : Dev7) (dir : Dir) : (busAddr dev dir s).2.portDrawn = s.portDrawn := rfl
@[simp] theorem busAddr_rb (dev : Dev7) (dir : Dir) : (busAddr dev dir s).2.rb = s.rb := rfl
@[simp] theorem busAddr_status (dev : Dev7) (dir : Dir) : (busAddr dev dir s).2.status = s.status := rfl
@[simp] theorem busAddr_out (dev : Dev7) (dir : Dir) : (busAddr dev dir s).2.out = s.out := rfl
@[simp] theorem busAddr_outBuf (dev : Dev7) (dir : Dir) : (busAddr dev dir s).2.outBuf = s.outBuf := rfl
@[simp] theorem busAddr_port (dev : Dev7) (dir : Dir) : (busAddr dev dir s).2.port = s.port := rfl
@[simp] theorem busAddr_env (dev : Dev7) (dir : Dir) : (busAddr dev dir s).2.env = (envAddr s.cfg dev dir s.env).2 := rfl
@[simp] theorem busAddr_trace (dev : Dev7) (dir : Dir) : (busAddr dev dir s).2.trace = s.trace ++ [.addr dev dir (envAddr s.cfg dev dir s.env).1] := rfl

@[simp] theorem busSend_cfg (b : Byte) : (busSend b s).2.cfg = s.cfg := rfl
@[simp] theorem busSend_dsb (b : Byte) : (busSend b s).2.dsb = s.dsb := rfl
@[simp] theorem busSend_dsbSet (b : Byte) : (busSend b s).2.dsbSet = s.dsbSet := rfl
@[simp] theorem busSend_seq (b : Byte) : (busSend b s).2.seq = s.seq := rfl
@[simp] theorem busSend_fault (b : Byte) : (busSend b s).2.fault = s.fault := rfl
@[simp] theorem busSend_op (b : Byte) : (busSend b s).2.op = s.op := rfl
@[simp] theorem busSend_a (b : Byte) : (busSend b s).2.a = s.a := rfl
@[simp] theorem busSend_d (b : Byte) : (busSend b s).2.d = s.d := rfl
@[simp] theorem busSend_n (b : Byte) : (busSend b s).2.n = s.n := rfl
@[simp] theorem busSend_i (b : Byte) : (busSend b s).2.i = s.i := rfl
@[simp] theorem busSend_bufPort (b : Byte) : (busSend b s).2.bufPort = s.bufPort := rfl
@[simp] theorem busSend_portDrawn (b : Byte) : (busSend b s).2.portDrawn = s.portDrawn := rfl
@[simp] theorem busSend_rb (b : Byte) : (busSend b s).2.rb = s.rb := rfl
@[simp] theorem busSend_status (b : Byte) : (busSend b s).2.status = s.status := rfl
@[simp] theorem busSend_out (b : Byte) : (busSend b s).2.out = s.out := rfl
@[simp] theorem busSend_outBuf (b : Byte) : (busSend b s).2.outBuf = s.outBuf := rfl
@[simp] theorem busSend_port (b : Byte) : (busSend b s).2.port = s.port := rfl
@[simp] theorem busSend_env (b : Byte) : (busSend b s).2.env = (envSend s.cfg b s.env).2 := rfl
@[simp] theorem busSend_trace (b : Byte) : (busSend b s).2.trace = s.trace ++ [.send b (envSend s.cfg b s.env).1] := rfl

@[simp] theorem busRecv_cfg (pol : AckPolicy) : (busRecv pol s).2.cfg = s.cfg := rfl
@[simp] theorem busRecv_dsb (pol : AckPolicy) : (busRecv pol s).2.dsb = s.dsb := rfl
@[simp] theorem busRecv_dsbSet (pol : AckPolicy) : (busRecv pol s).2.dsbSet = s.dsbSet := rfl
@[simp] theorem busRecv_seq (pol : AckPolicy) : (busRecv pol s).2.seq = s.seq := rfl
@[simp] theorem busRecv_fault (pol : AckPolicy) : (busRecv pol s).2.fault = s.fault := rfl
@[simp] theorem busRecv_op (pol : AckPolicy) : (busRecv pol s).2.op = s.op := rfl
@[simp] theorem busRecv_a (pol : AckPolicy) : (busRecv pol s).2.a = s.a := rfl
@[simp] theorem busRecv_d (pol : AckPolicy) : (busRecv pol s).2.d = s.d := rfl
@[simp] theorem busRecv_n (pol : AckPolicy) : (busRecv pol s).2.n = s.n := rfl
@[simp] theorem busRecv_i (pol : AckPolicy) : (busRecv pol s).2.i = s.i := rfl
@[simp] theorem busRecv_bufPort (pol : AckPolicy) : (busRecv pol s).2.bufPort = s.bufPort := rfl
@[simp] theorem busRecv_portDrawn (pol : AckPolicy) : (busRecv pol s).2.portDrawn = s.portDrawn := rfl
@[simp] theorem busRecv_rb (pol : AckPolicy) : (busRecv pol s).2.rb = s.rb := rfl
@[simp] theorem busRecv_status (pol : AckPolicy) : (busRecv pol s).2.status = s.status := rfl
@[simp] theorem busRecv_out (pol : AckPolicy) : (busRecv pol s).2.out = s.out := rfl
@[simp] theorem busRecv_outBuf (pol : AckPolicy) : (busRecv pol s).2.outBuf = s.outBuf := rfl
@[simp] theorem busRecv_port (pol : AckPolicy) : (busRecv pol s).2.port = s.port := rfl
@[simp] theorem busRecv_env (pol : AckPolicy) : (busRecv pol s).2.env = (envRecv s.cfg s.env).2 := rfl
@[simp] theorem busRecv_trace (pol : AckPolicy) : (busRecv pol s).2.trace = s.trace ++ [.recv pol (envRecv s.cfg s.env).1] := rfl

@[simp] theorem waitMs_cfg (n : Nat) : (waitMs n s).cfg = s.cfg := rfl
@[simp] theorem waitMs_dsb (n : Nat) : (waitMs n s).dsb = s.dsb := rfl
@[simp] theorem waitMs_dsbSet (n : Nat) : (waitMs n s).dsbSet = s.dsbSet := rfl
@[simp] theorem waitMs_seq (n : Nat) : (waitMs n s).seq = s.seq := rfl
@[simp] theorem waitMs_fault (n : Nat) : (waitMs n s).fault = s.fault := rfl
@[simp] theorem waitMs_op (n : Nat) : (waitMs n s).op = s.op := rfl
@[simp] theorem waitMs_a (n : Nat) : (waitMs n s).a = s.a := rfl
@[simp] theorem waitMs_d (n : Nat) : (waitMs n s).d = s.d := rfl
@[simp] theorem waitMs_n (n : Nat) : (waitMs n s).n = s.n := rfl
@[simp] theorem waitMs_i (n : Nat) : (waitMs n s).i = s.i := rfl
@[simp] theorem waitMs_bufPort (n : Nat) : (waitMs n s).bufPort = s.bufPort := rfl
@[simp] theorem waitMs_portDrawn (n : Nat) : (waitMs n s).portDrawn = s.portDrawn := rfl
@[simp] theorem waitMs_rb (n : Nat) : (waitMs n s).rb = s.rb := rfl
@[simp] theorem waitMs_status (n : Nat) : (waitMs n s).status = s.status := rfl
@[simp] theorem waitMs_out (n : Nat) : (waitMs n s).out = s.out := rfl
@[simp] theorem waitMs_outBuf (n : Nat) : (waitMs n s).outBuf = s.outBuf := rfl
@[simp] theorem waitMs_port (n : Nat) : (waitMs n s).port = s.port := rfl
@[simp] theorem waitMs_env (n : Nat) : (waitMs n s).env = envWait s.cfg n s.env := rfl
@[simp] theorem waitMs_trace (n : Nat) : (waitMs n s).trace = s.trace ++ [.waitMs n] := rfl

@[simp] theorem wpSet_cfg (l : Level) : (wpSet l s).cfg = s.cfg := rfl
@[simp] theorem wpSet_dsb (l : Level) : (wpSet l s).dsb = s.dsb := rfl
@[simp] theorem wpSet_dsbSet (l : Level) : (wpSet l s).dsbSet = s.dsbSet := rfl
@[simp] theorem wpSet_seq (l : Level) : (wpSet l s).seq = s.seq := rfl
@[simp] theorem wpSet_fault (l : Level) : (wpSet l s).fault = s.fault := rfl
@[simp] theorem wpSet_op (l : Level) : (wpSet l s).op = s.op := rfl
@[simp] theorem wpSet_a (l : Level) : (wpSet l s).a = s.a := rfl
@[simp] theorem wpSet_d (l : Level) : (wpSet l s).d = s.d := rfl
@[simp] theorem wpSet_n (l : Level) : (wpSet l s).n = s.n := rfl
@[simp] theorem wpSet_i (l : Level) : (wpSet l s).i = s.i := rfl
@[simp] theorem wpSet_bufPort (l : Level) : (wpSet l s).bufPort = s.bufPort := rfl
@[simp] theorem wpSet_portDrawn (l : Level) : (wpSet l s).portDrawn = s.portDrawn := rfl
@[simp] theorem wpSet_rb (l : Level) : (wpSet l s).rb = s.rb := rfl
@[simp] theorem wpSet_status (l : Level) : (wpSet l s).status = s.status := rfl
@[simp] theorem wpSet_out (l : Level) : (wpSet l s).out = s.out := rfl
@[simp] theorem wpSet_outBuf (l : Level) : (wpSet l s).outBuf = s.outBuf := rfl
@[simp] theorem wpSet_port (l : Level) : (wpSet l s).port = s.port := rfl
@[simp] theorem wpSet_env (l : Level) : (wpSet l s).env = envWp l s.env := rfl
@[simp] theorem wpSet_trace (l : Level) : (wpSet l s).trace = s.trace ++ [.wp l] := rfl

@[simp] theorem addrCounted_cfg (dev : Dev7) (dir : Dir) : (addrCounted dev dir s).cfg = s.cfg := rfl
@[simp] theorem addrCounted_dsb (dev : Dev7) (dir : Dir) : (addrCounted dev dir s).dsb = s.dsb := rfl
@[simp] theorem addrCounted_dsbSet (dev : Dev7) (dir : Dir) : (addrCounted dev dir s).dsbSet = s.dsbSet := rfl
@[simp] theorem addrCounted_seq (dev : Dev7) (dir : Dir) : (addrCounted dev dir s).seq = s.seq := rfl
@[simp] theorem addrCounted_fault (dev : Dev7) (dir : Dir) : (addrCounted dev dir s).fault = s.fault ||| (envAddr s.cfg dev dir s.env).1 := rfl
@[simp] theorem addrCounted_op (dev : Dev7) (dir : Dir) : (addrCounted dev dir s).op = s.op := rfl
@[simp] theorem addrCounted_a (dev : Dev7) (dir : Dir) : (addrCounted dev dir s).a = s.a := rfl
@[simp] theorem addrCounted_d (dev : Dev7) (dir : Dir) : (addrCounted dev dir s).d = s.d := rfl
@[simp] theorem addrCounted_n (dev : Dev7) (dir : Dir) : (addrCounted dev dir s).n = s.n := rfl
@[simp] theorem addrCounted_i (dev : Dev7) (dir : Dir) : (addrCounted dev dir s).i = s.i := rfl
@[simp] theorem addrCounted_bufPort (dev : Dev7) (dir : Dir) : (addrCounted dev dir s).bufPort = s.bufPort := rfl
@[simp] theorem addrCounted_portDrawn (dev : Dev7) (dir : Dir) : (addrCounted dev dir s).portDrawn = s.portDrawn := rfl
@[simp] theorem addrCounted_rb (dev : Dev7) (dir : Dir) : (addrCounted dev dir s).rb = s.rb := rfl
@[simp] theorem addrCounted_status (dev : Dev7) (dir : Dir) : (addrCounted dev dir s).status = s.status := rfl
@[simp] theorem addrCounted_out (dev : Dev7) (dir : Dir) : (addrCounted dev dir s).out = s.out := rfl
@[simp] theorem addrCounted_outBuf (dev : Dev7) (dir : Dir) : (addrCounted dev dir s).outBuf = s.outBuf := rfl
@[simp] theorem addrCounted_port (dev : Dev7) (dir : Dir) : (addrCounted dev dir s).port = s.port := rfl
@[simp] theorem addrCounted_env (dev : Dev7) (dir : Dir) : (addrCounted dev dir s).env = (envAddr s.cfg dev dir s.env).2 := rfl
@[simp] theorem addrCounted_trace (dev : Dev7) (dir : Dir) : (addrCounted dev dir s).trace = s.trace ++ [.addr dev dir (envAddr s.cfg dev dir s.env).1] := rfl

@[simp] theorem sendCounted_cfg (b : Byte) : (sendCounted b s).cfg = s.cfg := rfl
@[simp] theorem sendCounted_dsb (b : Byte) : (sendCounted b s).dsb = s.dsb := rfl
@[simp] theorem sendCounted_dsbSet (b : Byte) : (sendCounted b s).dsbSet = s.dsbSet := rfl
@[simp] theorem sendCounted_seq (b : Byte) : (sendCounted b s).seq = s.seq := rfl
@[simp] theorem sendCounted_fault (b : Byte) : (sendCounted b s).fault = s.fault ||| (envSend s.cfg b s.env).1 := rfl
@[simp] theorem sendCounted_op (b : Byte) : (sendCounted b s).op = s.op := rfl
@[simp] theorem sendCounted_a (b : Byte) : (sendCounted b s).a = s.a := rfl
@[simp] theorem sendCounted_d (b : Byte) : (sendCounted b s).d = s.d := rfl
@[simp] theorem sendCounted_n (b : Byte) : (sendCounted b s).n = s.n := rfl
@[simp] theorem sendCounted_i (b : Byte) : (sendCounted b s).i = s.i := rfl
@[simp] theorem sendCounted_bufPort (b : Byte) : (sendCounted b s).bufPort = s.bufPort := rfl
@[simp] theorem sendCounted_portDrawn (b : Byte) : (sendCounted b s).portDrawn = s.portDrawn := rfl
@[simp] theorem sendCounted_rb (b : Byte) : (sendCounted b s).rb = s.rb := rfl
@[simp] theorem sendCounted_status (b : Byte) : (sendCounted b s).status = s.status := rfl
@[simp] theorem sendCounted_out (b : Byte) : (sendCounted b s).out = s.out := rfl
@[simp] theorem sendCounted_outBuf (b : Byte) : (sendCounted b s).outBuf = s.outBuf := rfl
@[simp] theorem sendCounted_port (b : Byte) : (sendCounted b s).port = s.port := rfl
@[simp] theorem sendCounted_env (b : Byte) : (sendCounted b s).env = (envSend s.cfg b s.env).2 := rfl
@[simp] theorem sendCounted_trace (b : Byte) : (sendCounted b s).trace = s.trace ++ [.send b (envSend s.cfg b s.env).1] := rfl

@[simp] theorem endCommand_cfg (st : Status) : (endCommand st s).cfg = s.cfg := rfl
@[simp] theorem endCommand_dsb (st : Status) : (endCommand st s).dsb = s.dsb := rfl
@[simp] theorem endCommand_dsbSet (st : Status) : (endCommand st s).dsbSet = s.dsbSet := rfl
@[simp] theorem endCommand_seq (st : Status) : (endCommand st s).seq = .idle := rfl
@[simp] theorem endCommand_fault (st : Status) : (endCommand st s).fault = s.fault := rfl
@[simp] theorem endCommand_op (st : Status) : (endCommand st s).op = s.op := rfl
@[simp] theorem endCommand_a (st : Status) : (endCommand st s).a = s.a := rfl
@[simp] theorem endCommand_d (st : Status) : (endCommand st s).d = s.d := rfl
@[simp] theorem endCommand_n (st : Status) : (endCommand st s).n = s.n := rfl
@[simp] theorem endCommand_i (st : Status) : (endCommand st s).i = s.i := rfl
@[simp] theorem endCommand_bufPort (st : Status) : (endCommand st s).bufPort = s.bufPort := rfl
@[simp] theorem endCommand_portDrawn (st : Status) : (endCommand st s).portDrawn = s.portDrawn := rfl
@[simp] theorem endCommand_rb (st : Status) : (endCommand st s).rb = s.rb := rfl
@[simp] theorem endCommand_status (st : Status) : (endCommand st s).status = some st := rfl
@[simp] theorem endCommand_out (st : Status) : (endCommand st s).out = s.out := rfl
@[simp] theorem endCommand_outBuf (st : Status) : (endCommand st s).outBuf = s.outBuf := rfl
@[simp] theorem endCommand_port (st : Status) : (endCommand st s).port = s.port := rfl
@[simp] theorem endCommand_env (st : Status) : (endCommand st s).env = s.env := rfl
@[simp] theorem endCommand_trace (st : Status) : (endCommand st s).trace = s.trace := rfl

@[simp] theorem writeDsb_cfg (v : Dev7) : (writeDsb v s).cfg = s.cfg := rfl
@[simp] theorem writeDsb_dsb (v : Dev7) : (writeDsb v s).dsb = v := rfl
@[simp] theorem writeDsb_dsbSet (v : Dev7) : (writeDsb v s).dsbSet = true := rfl
@[simp] theorem writeDsb_seq (v : Dev7) : (writeDsb v s).seq = s.seq := rfl
@[simp] theorem writeDsb_fault (v : Dev7) : (writeDsb v s).fault = s.fault := rfl
@[simp] theorem writeDsb_op (v : Dev7) : (writeDsb v s).op = s.op := rfl
@[simp] theorem writeDsb_a (v : Dev7) : (writeDsb v s).a = s.a := rfl
@[simp] theorem writeDsb_d (v : Dev7) : (writeDsb v s).d = s.d := rfl
@[simp] theorem writeDsb_n (v : Dev7) : (writeDsb v s).n = s.n := rfl
@[simp] theorem writeDsb_i (v : Dev7) : (writeDsb v s).i = s.i := rfl
@[simp] theorem writeDsb_bufPort (v : Dev7) : (writeDsb v s).bufPort = s.bufPort := rfl
@[simp] theorem writeDsb_portDrawn (v : Dev7) : (writeDsb v s).portDrawn = s.portDrawn := rfl
@[simp] theorem writeDsb_rb (v : Dev7) : (writeDsb v s).rb = s.rb := rfl
@[simp] theorem writeDsb_status (v : Dev7) : (writeDsb v s).status = s.status := rfl
@[simp] theorem writeDsb_out (v : Dev7) : (writeDsb v s).out = s.out := rfl
@[simp] theorem writeDsb_outBuf (v : Dev7) : (writeDsb v s).outBuf = s.outBuf := rfl
@[simp] theorem writeDsb_port (v : Dev7) : (writeDsb v s).port = s.port := rfl
@[simp] theorem writeDsb_env (v : Dev7) : (writeDsb v s).env = s.env := rfl
@[simp] theorem writeDsb_trace (v : Dev7) : (writeDsb v s).trace = s.trace := rfl

@[simp] theorem firstIndex_cfg : (firstIndex s).cfg = s.cfg := rfl
@[simp] theorem firstIndex_dsb : (firstIndex s).dsb = s.dsb := rfl
@[simp] theorem firstIndex_dsbSet : (firstIndex s).dsbSet = s.dsbSet := rfl
@[simp] theorem firstIndex_seq : (firstIndex s).seq = s.seq := rfl
@[simp] theorem firstIndex_fault : (firstIndex s).fault = s.fault := rfl
@[simp] theorem firstIndex_op : (firstIndex s).op = s.op := rfl
@[simp] theorem firstIndex_a : (firstIndex s).a = s.a := rfl
@[simp] theorem firstIndex_d : (firstIndex s).d = s.d := rfl
@[simp] theorem firstIndex_n : (firstIndex s).n = s.n := rfl
@[simp] theorem firstIndex_i : (firstIndex s).i = 0 := rfl
@[simp] theorem firstIndex_bufPort : (firstIndex s).bufPort = s.bufPort := rfl
@[simp] theorem firstIndex_portDrawn : (firstIndex s).portDrawn = s.portDrawn := rfl
@[simp] theorem firstIndex_rb : (firstIndex s).rb = s.rb := rfl
@[simp] theorem firstIndex_status : (firstIndex s).status = s.status := rfl
@[simp] theorem firstIndex_out : (firstIndex s).out = s.out := rfl
@[simp] theorem firstIndex_outBuf : (firstIndex s).outBuf = s.outBuf := rfl
@[simp] theorem firstIndex_port : (firstIndex s).port = s.port := rfl
@[simp] theorem firstIndex_env : (firstIndex s).env = s.env := rfl
@[simp] theorem firstIndex_trace : (firstIndex s).trace = s.trace := rfl

@[simp] theorem nextIndex_cfg : (nextIndex s).cfg = s.cfg := rfl
@[simp] theorem nextIndex_dsb : (nextIndex s).dsb = s.dsb := rfl
@[simp] theorem nextIndex_dsbSet : (nextIndex s).dsbSet = s.dsbSet := rfl
@[simp] theorem nextIndex_seq : (nextIndex s).seq = s.seq := rfl
@[simp] theorem nextIndex_fault : (nextIndex s).fault = s.fault := rfl
@[simp] theorem nextIndex_op : (nextIndex s).op = s.op := rfl
@[simp] theorem nextIndex_a : (nextIndex s).a = s.a := rfl
@[simp] theorem nextIndex_d : (nextIndex s).d = s.d := rfl
@[simp] theorem nextIndex_n : (nextIndex s).n = s.n := rfl
@[simp] theorem nextIndex_i : (nextIndex s).i = s.i + 1 := rfl
@[simp] theorem nextIndex_bufPort : (nextIndex s).bufPort = s.bufPort := rfl
@[simp] theorem nextIndex_portDrawn : (nextIndex s).portDrawn = s.portDrawn := rfl
@[simp] theorem nextIndex_rb : (nextIndex s).rb = s.rb := rfl
@[simp] theorem nextIndex_status : (nextIndex s).status = s.status := rfl
@[simp] theorem nextIndex_out : (nextIndex s).out = s.out := rfl
@[simp] theorem nextIndex_outBuf : (nextIndex s).outBuf = s.outBuf := rfl
@[simp] theorem nextIndex_port : (nextIndex s).port = s.port := rfl
@[simp] theorem nextIndex_env : (nextIndex s).env = s.env := rfl
@[simp] theorem nextIndex_trace : (nextIndex s).trace = s.trace := rfl

@[simp] theorem latchAddress_cfg (x : Nat) : (latchAddress x s).cfg = s.cfg := rfl
@[simp] theorem latchAddress_dsb (x : Nat) : (latchAddress x s).dsb = s.dsb := rfl
@[simp] theorem latchAddress_dsbSet (x : Nat) : (latchAddress x s).dsbSet = s.dsbSet := rfl
@[simp] theorem latchAddress_seq (x : Nat) : (latchAddress x s).seq = s.seq := rfl
@[simp] theorem latchAddress_fault (x : Nat) : (latchAddress x s).fault = s.fault := rfl
@[simp] theorem latchAddress_op (x : Nat) : (latchAddress x s).op = s.op := rfl
@[simp] theorem latchAddress_a (x : Nat) : (latchAddress x s).a = x := rfl
@[simp] theorem latchAddress_d (x : Nat) : (latchAddress x s).d = s.d := rfl
@[simp] theorem latchAddress_n (x : Nat) : (latchAddress x s).n = s.n := rfl
@[simp] theorem latchAddress_i (x : Nat) : (latchAddress x s).i = s.i := rfl
@[simp] theorem latchAddress_bufPort (x : Nat) : (latchAddress x s).bufPort = s.bufPort := rfl
@[simp] theorem latchAddress_portDrawn (x : Nat) : (latchAddress x s).portDrawn = s.portDrawn := rfl
@[simp] theorem latchAddress_rb (x : Nat) : (latchAddress x s).rb = s.rb := rfl
@[simp] theorem latchAddress_status (x : Nat) : (latchAddress x s).status = s.status := rfl
@[simp] theorem latchAddress_out (x : Nat) : (latchAddress x s).out = s.out := rfl
@[simp] theorem latchAddress_outBuf (x : Nat) : (latchAddress x s).outBuf = s.outBuf := rfl
@[simp] theorem latchAddress_port (x : Nat) : (latchAddress x s).port = s.port := rfl
@[simp] theorem latchAddress_env (x : Nat) : (latchAddress x s).env = s.env := rfl
@[simp] theorem latchAddress_trace (x : Nat) : (latchAddress x s).trace = s.trace := rfl

@[simp] theorem latchData_cfg (x : Byte) : (latchData x s).cfg = s.cfg := rfl
@[simp] theorem latchData_dsb (x : Byte) : (latchData x s).dsb = s.dsb := rfl
@[simp] theorem latchData_dsbSet (x : Byte) : (latchData x s).dsbSet = s.dsbSet := rfl
@[simp] theorem latchData_seq (x : Byte) : (latchData x s).seq = s.seq := rfl
@[simp] theorem latchData_fault (x : Byte) : (latchData x s).fault = s.fault := rfl
@[simp] theorem latchData_op (x : Byte) : (latchData x s).op = s.op := rfl
@[simp] theorem latchData_a (x : Byte) : (latchData x s).a = s.a := rfl
@[simp] theorem latchData_d (x : Byte) : (latchData x s).d = x := rfl
@[simp] theorem latchData_n (x : Byte) : (latchData x s).n = s.n := rfl
@[simp] theorem latchData_i (x : Byte) : (latchData x s).i = s.i := rfl
@[simp] theorem latchData_bufPort (x : Byte) : (latchData x s).bufPort = s.bufPort := rfl
@[simp] theorem latchData_portDrawn (x : Byte) : (latchData x s).portDrawn = s.portDrawn := rfl
@[simp] theorem latchData_rb (x : Byte) : (latchData x s).rb = s.rb := rfl
@[simp] theorem latchData_status (x : Byte) : (latchData x s).status = s.status := rfl
@[simp] theorem latchData_out (x : Byte) : (latchData x s).out = s.out := rfl
@[simp] theorem latchData_outBuf (x : Byte) : (latchData x s).outBuf = s.outBuf := rfl
@[simp] theorem latchData_port (x : Byte) : (latchData x s).port = s.port := rfl
@[simp] theorem latchData_env (x : Byte) : (latchData x s).env = s.env := rfl
@[simp] theorem latchData_trace (x : Byte) : (latchData x s).trace = s.trace := rfl

@[simp] theorem latchLength_cfg (x : Nat) : (latchLength x s).cfg = s.cfg := rfl
@[simp] theorem latchLength_dsb (x : Nat) : (latchLength x s).dsb = s.dsb := rfl
@[simp] theorem latchLength_dsbSet (x : Nat) : (latchLength x s).dsbSet = s.dsbSet := rfl
@[simp] theorem latchLength_seq (x : Nat) : (latchLength x s).seq = s.seq := rfl
@[simp] theorem latchLength_fault (x : Nat) : (latchLength x s).fault = s.fault := rfl
@[simp] theorem latchLength_op (x : Nat) : (latchLength x s).op = s.op := rfl
@[simp] theorem latchLength_a (x : Nat) : (latchLength x s).a = s.a := rfl
@[simp] theorem latchLength_d (x : Nat) : (latchLength x s).d = s.d := rfl
@[simp] theorem latchLength_n (x : Nat) : (latchLength x s).n = x := rfl
@[simp] theorem latchLength_i (x : Nat) : (latchLength x s).i = s.i := rfl
@[simp] theorem latchLength_bufPort (x : Nat) : (latchLength x s).bufPort = s.bufPort := rfl
@[simp] theorem latchLength_portDrawn (x : Nat) : (latchLength x s).portDrawn = s.portDrawn := rfl
@[simp] theorem latchLength_rb (x : Nat) : (latchLength x s).rb = s.rb := rfl
@[simp] theorem latchLength_status (x : Nat) : (latchLength x s).status = s.status := rfl
@[simp] theorem latchLength_out (x : Nat) : (latchLength x s).out = s.out := rfl
@[simp] theorem latchLength_outBuf (x : Nat) : (latchLength x s).outBuf = s.outBuf := rfl
@[simp] theorem latchLength_port (x : Nat) : (latchLength x s).port = s.port := rfl
@[simp] theorem latchLength_env (x : Nat) : (latchLength x s).env = s.env := rfl
@[simp] theorem latchLength_trace (x : Nat) : (latchLength x s).trace = s.trace := rfl

@[simp] theorem latchBuffer_cfg (x : List Byte) : (latchBuffer x s).cfg = s.cfg := rfl
@[simp] theorem latchBuffer_dsb (x : List Byte) : (latchBuffer x s).dsb = s.dsb := rfl
@[simp] theorem latchBuffer_dsbSet (x : List Byte) : (latchBuffer x s).dsbSet = s.dsbSet := rfl
@[simp] theorem latchBuffer_seq (x : List Byte) : (latchBuffer x s).seq = s.seq := rfl
@[simp] theorem latchBuffer_fault (x : List Byte) : (latchBuffer x s).fault = s.fault := rfl
@[simp] theorem latchBuffer_op (x : List Byte) : (latchBuffer x s).op = s.op := rfl
@[simp] theorem latchBuffer_a (x : List Byte) : (latchBuffer x s).a = s.a := rfl
@[simp] theorem latchBuffer_d (x : List Byte) : (latchBuffer x s).d = s.d := rfl
@[simp] theorem latchBuffer_n (x : List Byte) : (latchBuffer x s).n = s.n := rfl
@[simp] theorem latchBuffer_i (x : List Byte) : (latchBuffer x s).i = s.i := rfl
@[simp] theorem latchBuffer_bufPort (x : List Byte) : (latchBuffer x s).bufPort = x := rfl
@[simp] theorem latchBuffer_portDrawn (x : List Byte) : (latchBuffer x s).portDrawn = s.portDrawn := rfl
@[simp] theorem latchBuffer_rb (x : List Byte) : (latchBuffer x s).rb = s.rb := rfl
@[simp] theorem latchBuffer_status (x : List Byte) : (latchBuffer x s).status = s.status := rfl
@[simp] theorem latchBuffer_out (x : List Byte) : (latchBuffer x s).out = s.out := rfl
@[simp] theorem latchBuffer_outBuf (x : List Byte) : (latchBuffer x s).outBuf = s.outBuf := rfl
@[simp] theorem latchBuffer_port (x : List Byte) : (latchBuffer x s).port = s.port := rfl
@[simp] theorem latchBuffer_env (x : List Byte) : (latchBuffer x s).env = s.env := rfl
@[simp] theorem latchBuffer_trace (x : List Byte) : (latchBuffer x s).trace = s.trace := rfl

@[simp] theorem latchPage_cfg (n : Nat) (x : List Byte) : (latchPage n x s).cfg = s.cfg := rfl
@[simp] theorem latchPage_dsb (n : Nat) (x : List Byte) : (latchPage n x s).dsb = s.dsb := rfl
@[simp] theorem latchPage_dsbSet (n : Nat) (x : List Byte) : (latchPage n x s).dsbSet = s.dsbSet := rfl
@[simp] theorem latchPage_seq (n : Nat) (x : List Byte) : (latchPage n x s).seq = s.seq := rfl
@[simp] theorem latchPage_fault (n : Nat) (x : List Byte) : (latchPage n x s).fault = s.fault := rfl
@[simp] theorem latchPage_op (n : Nat) (x : List Byte) : (latchPage n x s).op = s.op := rfl
@[simp] theorem latchPage_a (n : Nat) (x : List Byte) : (latchPage n x s).a = s.a := rfl
@[simp] theorem latchPage_d (n : Nat) (x : List Byte) : (latchPage n x s).d = s.d := rfl
@[simp] theorem latchPage_n (n : Nat) (x : List Byte) : (latchPage n x s).n = s.n := rfl
@[simp] theorem latchPage_i (n : Nat) (x : List Byte) : (latchPage n x s).i = s.i := rfl
@[simp] theorem latchPage_bufPort (n : Nat) (x : List Byte) : (latchPage n x s).bufPort = pagePort s.portDrawn n x := rfl
@[simp] theorem latchPage_portDrawn (n : Nat) (x : List Byte) :
    (latchPage n x s).portDrawn = s.portDrawn + (n - x.length) := rfl
@[simp] theorem latchPage_rb (n : Nat) (x : List Byte) : (latchPage n x s).rb = s.rb := rfl
@[simp] theorem latchPage_status (n : Nat) (x : List Byte) : (latchPage n x s).status = s.status := rfl
@[simp] theorem latchPage_out (n : Nat) (x : List Byte) : (latchPage n x s).out = s.out := rfl
@[simp] theorem latchPage_outBuf (n : Nat) (x : List Byte) : (latchPage n x s).outBuf = s.outBuf := rfl
@[simp] theorem latchPage_port (n : Nat) (x : List Byte) : (latchPage n x s).port = s.port := rfl
@[simp] theorem latchPage_env (n : Nat) (x : List Byte) : (latchPage n x s).env = s.env := rfl
@[simp] theorem latchPage_trace (n : Nat) (x : List Byte) : (latchPage n x s).trace = s.trace := rfl

@[simp] theorem startCommand_cfg (x : BitVec 3) : (startCommand x s).cfg = s.cfg := rfl
@[simp] theorem startCommand_dsb (x : BitVec 3) : (startCommand x s).dsb = s.dsb := rfl
@[simp] theorem startCommand_dsbSet (x : BitVec 3) : (startCommand x s).dsbSet = s.dsbSet := rfl
@[simp] theorem startCommand_seq (x : BitVec 3) : (startCommand x s).seq = s.seq := rfl
@[simp] theorem startCommand_fault (x : BitVec 3) : (startCommand x s).fault = s.fault := rfl
@[simp] theorem startCommand_op (x : BitVec 3) : (startCommand x s).op = x := rfl
@[simp] theorem startCommand_a (x : BitVec 3) : (startCommand x s).a = s.a := rfl
@[simp] theorem startCommand_d (x : BitVec 3) : (startCommand x s).d = s.d := rfl
@[simp] theorem startCommand_n (x : BitVec 3) : (startCommand x s).n = s.n := rfl
@[simp] theorem startCommand_i (x : BitVec 3) : (startCommand x s).i = s.i := rfl
@[simp] theorem startCommand_bufPort (x : BitVec 3) : (startCommand x s).bufPort = s.bufPort := rfl
@[simp] theorem startCommand_portDrawn (x : BitVec 3) : (startCommand x s).portDrawn = s.portDrawn := rfl
@[simp] theorem startCommand_rb (x : BitVec 3) : (startCommand x s).rb = s.rb := rfl
@[simp] theorem startCommand_status (x : BitVec 3) : (startCommand x s).status = none := rfl
@[simp] theorem startCommand_out (x : BitVec 3) : (startCommand x s).out = s.out := rfl
@[simp] theorem startCommand_outBuf (x : BitVec 3) : (startCommand x s).outBuf = s.outBuf := rfl
@[simp] theorem startCommand_port (x : BitVec 3) : (startCommand x s).port = s.port := rfl
@[simp] theorem startCommand_env (x : BitVec 3) : (startCommand x s).env = s.env := rfl
@[simp] theorem startCommand_trace (x : BitVec 3) : (startCommand x s).trace = s.trace := rfl

theorem length_freePortBytes (k m : Nat) : (freePortBytes k m).length = m := by
  induction m generalizing k with
  | zero => rfl
  | succ m ih => simp [freePortBytes, ih]

/-- The buffer port gives what the host presents, where it presents enough (43_write.md R131 (6)). -/
theorem pagePort_presented {k n : Nat} {buf : List Byte} (h : n ≤ buf.length) : pagePort k n buf = buf := by
  simp [pagePort, Nat.sub_eq_zero_of_le h, freePortBytes]

theorem length_pagePort (k n : Nat) (buf : List Byte) : (pagePort k n buf).length = max n buf.length := by
  simp [pagePort, length_freePortBytes]
  omega

/-- WRITE_PAGE reads exactly `n` bytes of the port. -/
theorem length_take_pagePort (k n : Nat) (buf : List Byte) : ((pagePort k n buf).take n).length = n := by
  simp [length_pagePort]

/-- The bytes the host presents come first. -/
theorem take_pagePort (k n : Nat) (buf : List Byte) : (pagePort k n buf).take (min n buf.length) = buf.take n := by
  rw [pagePort, List.take_append_of_le_length (Nat.min_le_right ..), List.take_eq_take_iff]
  omega

@[simp] theorem busAddr_answer (dev : Dev7) (dir : Dir) : (busAddr dev dir s).1 = (envAddr s.cfg dev dir s.env).1 := rfl
@[simp] theorem busSend_answer (b : Byte) : (busSend b s).1 = (envSend s.cfg b s.env).1 := rfl
@[simp] theorem busRecv_answer (pol : AckPolicy) : (busRecv pol s).1 = (envRecv s.cfg s.env).1 := rfl

end Sys2Proof.Machine
end

