-- ==== Sys2Proof/Laws/Bus.lean ====
section
/-! SUPPORT. What each sequence of calls does, said once: the calls it adds to the trace, the fault it accumulates, and
that it changes no other field than `fault`, `i`, `env` and `trace`. -/

namespace Sys2Proof.Machine

/-- From `s` to `t` exactly the calls `cs` were made, every answer counted, and only `fault`, `i`, `env` and `trace` moved. -/
def Ran (s : State) (cs : List Call) (t : State) : Prop :=
  t = { s with fault := s.fault ||| answersOr cs, i := t.i, env := t.env, trace := s.trace ++ cs }

theorem answersOr_append (cs ds : List Call) : answersOr (cs ++ ds) = answersOr cs ||| answersOr ds := by
  induction cs with
  | nil => simp [answersOr]
  | cons c cs ih => cases c <;> simp [answersOr, ih, Nat.or_assoc]

section Ran
variable {s t u : State} {cs ds : List Call}

theorem Ran.cfg (h : Ran s cs t) : t.cfg = s.cfg := by rw [h]
theorem Ran.dsb (h : Ran s cs t) : t.dsb = s.dsb := by rw [h]
theorem Ran.dsbSet (h : Ran s cs t) : t.dsbSet = s.dsbSet := by rw [h]
theorem Ran.seq (h : Ran s cs t) : t.seq = s.seq := by rw [h]
theorem Ran.fault (h : Ran s cs t) : t.fault = s.fault ||| answersOr cs := by rw [h]
theorem Ran.op (h : Ran s cs t) : t.op = s.op := by rw [h]
theorem Ran.a (h : Ran s cs t) : t.a = s.a := by rw [h]
theorem Ran.d (h : Ran s cs t) : t.d = s.d := by rw [h]
theorem Ran.n (h : Ran s cs t) : t.n = s.n := by rw [h]
theorem Ran.bufPort (h : Ran s cs t) : t.bufPort = s.bufPort := by rw [h]
theorem Ran.portDrawn (h : Ran s cs t) : t.portDrawn = s.portDrawn := by rw [h]
theorem Ran.rb (h : Ran s cs t) : t.rb = s.rb := by rw [h]
theorem Ran.status (h : Ran s cs t) : t.status = s.status := by rw [h]
theorem Ran.out (h : Ran s cs t) : t.out = s.out := by rw [h]
theorem Ran.outBuf (h : Ran s cs t) : t.outBuf = s.outBuf := by rw [h]
theorem Ran.port (h : Ran s cs t) : t.port = s.port := by rw [h]
theorem Ran.trace (h : Ran s cs t) : t.trace = s.trace ++ cs := by rw [h]

theorem Ran.refl (s : State) : Ran s [] s := by simp [Ran, answersOr]

/-- Two runs of calls one after the other. -/
theorem Ran.trans (h : Ran s cs t) (h' : Ran t ds u) : Ran s (cs ++ ds) u := by
  unfold Ran at *
  rw [h', h]
  simp [answersOr_append, Nat.or_assoc]

/-- The loop index is no part of the claim. -/
theorem Ran.first (h : Ran s cs t) : Ran s cs (firstIndex t) := by
  unfold Ran at *
  rw [h]
  rfl

theorem Ran.next (h : Ran s cs t) : Ran s cs (nextIndex t) := by
  unfold Ran at *
  rw [h]
  rfl

end Ran

variable (s : State)

theorem busStart_ran : Ran s [.start] (busStart s) := by simp [Ran, busStart, answersOr]
theorem busStop_ran : Ran s [.stop] (busStop s) := by simp [Ran, busStop, answersOr]
theorem waitMs_ran (n : Nat) : Ran s [.waitMs n] (waitMs n s) := by simp [Ran, waitMs, answersOr]
theorem wpSet_ran (l : Level) : Ran s [.wp l] (wpSet l s) := by simp [Ran, wpSet, answersOr]

theorem busRecv_ran (pol : AckPolicy) : Ran s [.recv pol (busRecv pol s).1] (busRecv pol s).2 := by
  simp [Ran, busRecv, answersOr]

theorem addrCounted_ran (dev : Dev7) (dir : Dir) :
    Ran s [.addr dev dir (busAddr dev dir s).1] (addrCounted dev dir s) := by
  simp [Ran, addrCounted, busAddr, orFault, answersOr]

theorem sendCounted_ran (b : Byte) : Ran s [.send b (busSend b s).1] (sendCounted b s) := by
  simp [Ran, sendCounted, busSend, orFault, answersOr]

theorem openWp_ran : Ran s (wpCalls s.cfg .low) (openWp s) := by
  by_cases h : s.cfg.wpControl <;> simp [openWp, wpCalls, h, wpSet_ran, Ran.refl]

theorem closeWp_ran : Ran s (wpCalls s.cfg .high) (closeWp s) := by
  by_cases h : s.cfg.wpControl <;> simp [closeWp, wpCalls, h, wpSet_ran, Ran.refl]

theorem byte_ofNat_mask (x : Nat) : BitVec.ofNat 8 (x &&& 0xFF) = BitVec.ofNat 8 x := by
  apply BitVec.eq_of_toNat_eq
  have h : (255 : Nat) = 2 ^ 8 - 1 := rfl
  simp only [BitVec.toNat_ofNat]
  rw [h, Nat.and_two_pow_sub_one_eq_mod]
  simp

theorem encodeAddr_dev7 (c : Config) (dsb : Dev7) (a : Nat) : (encodeAddr c dsb a).dev7 = deviceValue c dsb a := rfl
theorem encodeAddr_ah (c : Config) (dsb : Dev7) (a : Nat) : (encodeAddr c dsb a).ah = BitVec.ofNat 8 (a >>> 8 &&& 0xFF) :=
  (byte_ofNat_mask _).symm
theorem encodeAddr_al (c : Config) (dsb : Dev7) (a : Nat) : (encodeAddr c dsb a).al = BitVec.ofNat 8 (a &&& 0xFF) :=
  (byte_ofNat_mask _).symm

/-- ADDRPHASE makes its three calls whatever they answer (40_address_phase.md R101). -/
theorem addrPhase_ran (a : Nat) :
    ∃ f0 f1 f2, Ran s (addressCalls s.cfg s.dsb a f0 f1 f2) (addrPhase a s) := by
  have h := ((addrCounted_ran s (encodeAddr s.cfg s.dsb a).dev7 .write).trans
    (sendCounted_ran _ (encodeAddr s.cfg s.dsb a).ah)).trans (sendCounted_ran _ (encodeAddr s.cfg s.dsb a).al)
  have e : ∀ f0 f1 f2, addressCalls s.cfg s.dsb a f0 f1 f2 = [.addr (encodeAddr s.cfg s.dsb a).dev7 .write f0] ++
      [.send (encodeAddr s.cfg s.dsb a).ah f1] ++ [.send (encodeAddr s.cfg s.dsb a).al f2] := by
    intro f0 f1 f2
    rw [encodeAddr_dev7, encodeAddr_ah, encodeAddr_al]
    rfl
  simp only [e]
  exact ⟨_, _, _, h⟩

/-- The data sends: one call per byte, in order (43_write.md R131, R135). -/
theorem sendAll_ran (bytes : List Byte) :
    ∃ fs : List Nat, fs.length = bytes.length ∧ Ran s (List.zipWith Call.send bytes fs) (sendAll bytes s) := by
  induction bytes generalizing s with
  | nil => exact ⟨[], rfl, Ran.refl s⟩
  | cons b bs ih =>
    obtain ⟨fs, hl, h⟩ := ih (nextIndex (sendCounted b s))
    exact ⟨(busSend b s).1 :: fs, by simp [hl], (sendCounted_ran s b).next.trans h⟩

/-- The receive loop: `k` receives, the last one alone with NACK (44_read.md R153). -/
theorem recvAll_ran (k : Nat) :
    ((recvAll k s).1.length = k) ∧ Ran s (recvCalls (recvAll k s).1) (recvAll k s).2 := by
  induction k generalizing s with
  | zero => exact ⟨rfl, Ran.refl s⟩
  | succ k ih =>
    obtain ⟨hl, h⟩ := ih (nextIndex (busRecv (recvPolicy k) s).2)
    have h' := (busRecv_ran s (recvPolicy k)).next.trans h
    simp only [recvAll]
    generalize recvAll k (nextIndex (busRecv (recvPolicy k) s).2) = q at hl h' ⊢
    obtain ⟨bs, t⟩ := q
    refine ⟨by simpa using hl, ?_⟩
    cases k with
    | zero =>
      obtain rfl : bs = [] := by simpa using hl
      simpa [recvCalls, recvPolicy] using h'
    | succ k =>
      cases bs with
      | nil => simp at hl
      | cons b bs => simpa [recvCalls, recvPolicy] using h'

/-- The positioning phase with its stop, then the start and the device value of the read phase (44_read.md R154). -/
theorem positionForRead_ran (a : Nat) :
    ∃ f0 f1 f2 f3, Ran s ([.start] ++ addressCalls s.cfg s.dsb a f0 f1 f2 ++
      [.stop, .start, .addr (deviceValue s.cfg s.dsb a) .read f3]) (positionForRead a s) := by
  obtain ⟨f0, f1, f2, h⟩ := addrPhase_ran (busStart s) a
  have h4 := (((busStart_ran s).trans h).trans (busStop_ran _)).trans (busStart_ran _)
  have h5 := h4.trans (addrCounted_ran _ (deviceValue s.cfg s.dsb a) .read)
  refine ⟨f0, f1, f2, (busAddr (deviceValue s.cfg s.dsb a) .read (busStart (busStop (addrPhase a (busStart s))))).1, ?_⟩
  simp only [positionForRead]
  rw [h4.cfg, h4.dsb, encodeAddr_dev7]
  simpa [addressCalls] using h5

/-- The write transaction (30_encoding.md R78, R79). -/
theorem writeTransaction_ran (a : Nat) (bytes : List Byte) :
    ∃ f0 f1 f2, ∃ fs : List Nat, fs.length = bytes.length ∧
      Ran s (writeCalls s.cfg s.dsb a f0 f1 f2 bytes fs) (writeTransaction a bytes s) := by
  obtain ⟨f0, f1, f2, h⟩ := addrPhase_ran (busStart s) a
  obtain ⟨fs, hl, h'⟩ := sendAll_ran (firstIndex (addrPhase a (busStart s))) bytes
  exact ⟨f0, f1, f2, fs, hl, (((busStart_ran s).trans h).first.trans h').trans (busStop_ran _)⟩

/-- READ_CURRENT_BYTE's sequence (44_read.md R150). -/
theorem currentRead_ran :
    ∃ f b, Ran (clearFault s) [.start, .addr s.dsb .read f, .recv .nack b, .stop] (currentRead s).after ∧
      (currentRead s).bytes = [b] ∧ (currentRead s).status = (if f = 0 then .ok else .transportError) := by
  have h := (((busStart_ran (clearFault s)).trans (addrCounted_ran _ s.dsb .read)).trans (busRecv_ran _ .nack)).trans
    (busStop_ran _)
  refine ⟨(busAddr s.dsb .read (busStart (clearFault s))).1, _, h, rfl, ?_⟩
  have hf := h.fault
  simp only [currentRead, transferStatus, hf]
  simp only [clearFault_fault, List.cons_append, List.nil_append, answersOr, Nat.zero_or, Nat.or_zero]

/-- READ_BYTE's sequence on a valid address (44_read.md R151). -/
theorem randomRead_ran {a : Nat} (ha : a < s.cfg.memorySize) :
    ∃ f0 f1 f2 f3 b, Ran (clearFault s) (readCalls s.cfg s.dsb a f0 f1 f2 f3 [b]) (randomRead a s).after ∧
      (randomRead a s).bytes = [b] ∧
      (randomRead a s).status = statusOfCalls (readCalls s.cfg s.dsb a f0 f1 f2 f3 [b]) := by
  obtain ⟨f0, f1, f2, f3, h⟩ := positionForRead_ran (clearFault s) a
  have h' := (h.trans (busRecv_ran _ .nack)).trans (busStop_ran _)
  have hv : addressOutOfRange s.cfg a = false := by simp [addressOutOfRange, ha]
  refine ⟨f0, f1, f2, f3, (busRecv .nack (positionForRead a (clearFault s))).1, ?_, ?_, ?_⟩
  · simpa [randomRead, hv, readCalls, recvCalls] using h'
  · simp [randomRead, hv]
  · have hf := h'.fault
    simp only [randomRead, hv, Bool.false_eq_true, if_false, transferStatus, hf]
    simp [statusOfCalls, readCalls, recvCalls]

/-- READ_SEQUENTIAL's sequence on valid operands (44_read.md R152). -/
theorem sequentialRead_ran {a n : Nat} (ha : a < s.cfg.memorySize) (hn : n ≠ 0) :
    ∃ f0 f1 f2 f3 bs, bs.length = n ∧
      Ran (clearFault s) (readCalls s.cfg s.dsb a f0 f1 f2 f3 bs) (sequentialRead a n s).after ∧
      (sequentialRead a n s).bytes = bs ∧
      (sequentialRead a n s).status = statusOfCalls (readCalls s.cfg s.dsb a f0 f1 f2 f3 bs) := by
  obtain ⟨f0, f1, f2, f3, h⟩ := positionForRead_ran (clearFault s) a
  have hv : addressOutOfRange s.cfg a = false := by simp [addressOutOfRange, ha]
  obtain ⟨hl, hr⟩ := recvAll_ran (firstIndex (positionForRead a (clearFault s))) n
  have h' := (h.first.trans hr).trans (busStop_ran _)
  refine ⟨f0, f1, f2, f3, (recvAll n (firstIndex (positionForRead a (clearFault s)))).1, hl, ?_, ?_, ?_⟩
  · simpa [sequentialRead, hv, hn, readCalls] using h'
  · simp [sequentialRead, hv, hn]
  · have hf := h'.fault
    simp only [sequentialRead, hv, Bool.false_eq_true, hn, if_false, transferStatus, hf]
    simp [statusOfCalls, readCalls]

/-- The reads of one byte have no loop: the index stays (44_read.md R150, R151). -/
theorem positionForRead_i (a : Nat) : (positionForRead a s).i = s.i := by
  simp [positionForRead, addrPhase]

theorem randomRead_i (a : Nat) : (randomRead a s).after.i = s.i := by
  by_cases ha : addressOutOfRange s.cfg a = true
  · simp only [randomRead, ha, if_true]
  · simp only [randomRead, ha]
    simp [positionForRead_i]

theorem currentRead_i : (currentRead s).after.i = s.i := by simp [currentRead]

/-! ### The calls of a transaction hold no polling call (42_write_wait.md R123), whatever follows them -/

theorem pollsIn_recvCalls (bs : List Byte) (r : List Call) : pollsIn (recvCalls bs ++ r) = pollsIn r := by
  induction bs with
  | nil => rfl
  | cons b bs ih =>
    cases bs with
    | nil => rfl
    | cons b' bs => exact ih

theorem pollsIn_sends (bytes : List Byte) (fs : List Nat) (r : List Call) :
    pollsIn (List.zipWith Call.send bytes fs ++ r) = pollsIn r := by
  induction bytes generalizing fs with
  | nil => rfl
  | cons b bs ih =>
    cases fs with
    | nil => rfl
    | cons f fs => exact ih fs

theorem pollsIn_wpCalls (c : Config) (l : Level) (r : List Call) : pollsIn (wpCalls c l ++ r) = pollsIn r := by
  unfold wpCalls
  split <;> rfl

theorem pollsIn_writeCalls (c : Config) (dsb : Dev7) (a f0 f1 f2 : Nat) (bytes : List Byte) (fs : List Nat)
    (r : List Call) : pollsIn (writeCalls c dsb a f0 f1 f2 bytes fs ++ r) = pollsIn r := by
  simp [writeCalls, addressCalls, pollsIn, pollsIn_sends]

theorem pollsIn_readCalls (c : Config) (dsb : Dev7) (a f0 f1 f2 f3 : Nat) (bs : List Byte) (r : List Call) :
    pollsIn (readCalls c dsb a f0 f1 f2 f3 bs ++ r) = pollsIn r := by
  simp [readCalls, addressCalls, pollsIn, pollsIn_recvCalls]

end Sys2Proof.Machine
end

