-- ==== Sys2Proof/Laws/Write.lean ====
section
/-! SUPPORT. The end of a write, one polling attempt and the whole write sequence, each said once. -/

namespace Sys2Proof.Machine

/-- From `s` to `t` the calls `cs` were made, and only the sequencer's working fields, the response and the environment
moved. -/
def Moved (s : State) (cs : List Call) (t : State) : Prop :=
  t = { s with seq := t.seq, status := t.status, rb := t.rb, fault := t.fault, i := t.i, env := t.env, trace := s.trace ++ cs }

section Moved
variable {s t u : State} {cs ds : List Call}

theorem Moved.cfg (h : Moved s cs t) : t.cfg = s.cfg := by rw [h]
theorem Moved.dsb (h : Moved s cs t) : t.dsb = s.dsb := by rw [h]
theorem Moved.dsbSet (h : Moved s cs t) : t.dsbSet = s.dsbSet := by rw [h]
theorem Moved.op (h : Moved s cs t) : t.op = s.op := by rw [h]
theorem Moved.a (h : Moved s cs t) : t.a = s.a := by rw [h]
theorem Moved.d (h : Moved s cs t) : t.d = s.d := by rw [h]
theorem Moved.n (h : Moved s cs t) : t.n = s.n := by rw [h]
theorem Moved.bufPort (h : Moved s cs t) : t.bufPort = s.bufPort := by rw [h]
theorem Moved.portDrawn (h : Moved s cs t) : t.portDrawn = s.portDrawn := by rw [h]
theorem Moved.out (h : Moved s cs t) : t.out = s.out := by rw [h]
theorem Moved.outBuf (h : Moved s cs t) : t.outBuf = s.outBuf := by rw [h]
theorem Moved.port (h : Moved s cs t) : t.port = s.port := by rw [h]
theorem Moved.trace (h : Moved s cs t) : t.trace = s.trace ++ cs := by rw [h]

theorem Moved.refl (s : State) : Moved s [] s := by simp [Moved]

theorem Moved.trans (h : Moved s cs t) (h' : Moved t ds u) : Moved s (cs ++ ds) u := by
  unfold Moved at *
  rw [h', h]
  simp

theorem Moved.keepsBlock (h : Moved s cs t) : KeepsBlock s t := ⟨h.cfg, h.dsb, h.dsbSet, h.port⟩

theorem Ran.moved (h : Ran s cs t) : Moved s cs t := by
  unfold Ran Moved at *
  rw [h]

theorem Ran.moved_of_clearFault (h : Ran (clearFault s) cs t) : Moved s cs t := by
  unfold Ran Moved at *
  rw [h]
  rfl

end Moved

theorem endCommand_moved (st : Status) (s : State) : Moved s [] (endCommand st s) := by simp [Moved, endCommand]

theorem setScratch_moved (s : State) (rb : List Byte) : Moved s [] { s with rb := rb } := by simp [Moved]

/-- The verdict of the verify step (43_write.md R132, R133, 60_exceptions.md R188). -/
theorem compareReadBack_spec {s : State} {cs : List Call} (expected : List Byte) (r : ReadResult) (h : Moved s cs r.after) :
    Moved s cs (compareReadBack expected r) ∧ (compareReadBack expected r).seq = .idle ∧
      (compareReadBack expected r).env = r.after.env ∧
      (compareReadBack expected r).status =
        some (if r.status ≠ .ok then r.status else if r.bytes ≠ expected then .dataError else .ok) := by
  have hm : ∀ st, Moved s cs (endCommand st { r.after with rb := r.bytes }) := fun st => by
    simpa using (h.trans (setScratch_moved r.after r.bytes)).trans (endCommand_moved st _)
  simp only [compareReadBack]
  split
  · exact ⟨hm _, rfl, rfl, rfl⟩
  · split <;> exact ⟨hm _, rfl, rfl, rfl⟩

theorem statusOfCalls_readCalls (c : Config) (dsb : Dev7) (a f0 f1 f2 f3 : Nat) (bs : List Byte) :
    statusOfCalls (readCalls c dsb a f0 f1 f2 f3 bs) = if f0 ||| f1 ||| f2 ||| f3 = 0 then .ok else .transportError := by
  have hrecv : ∀ bs : List Byte, answersOr (recvCalls bs) = 0 := by
    intro bs
    induction bs with
    | nil => rfl
    | cons b bs ih =>
      cases bs with
      | nil => rfl
      | cons b' bs => simpa [recvCalls, answersOr] using ih
  simp [statusOfCalls, readCalls, addressCalls, answersOr, answersOr_append, hrecv, Nat.or_assoc]

/-- The bytes a polling or finishing write was to store, from its latches (10_state.md R27). -/
def latchedBytes (s : State) : List Byte := if s.op = 4 then s.bufPort.take s.n else [s.d]

/-- The latched operands have passed validation. -/
def LatchedValid (s : State) : Prop :=
  s.a < s.cfg.memorySize ∧ (s.op = 4 → s.n ≠ 0 ∧ s.n ≤ s.bufPort.length)

/-- The read-back from the latches (43_write.md R132, R133). -/
theorem verifyLatched_spec {s : State} (hv : LatchedValid s) :
    ∃ g0 g1 g2 g3, ∃ bs : List Byte, bs.length = (latchedBytes s).length ∧
      Moved s (readCalls s.cfg s.dsb s.a g0 g1 g2 g3 bs) (verifyLatched s) ∧ (verifyLatched s).seq = .idle ∧
      (verifyLatched s).status = some (if g0 ||| g1 ||| g2 ||| g3 ≠ 0 then .transportError
        else if bs ≠ latchedBytes s then .dataError else .ok) := by
  by_cases hop : s.op = 4
  · have hbytes' : latchedBytes s = s.bufPort.take s.n := if_pos hop
    obtain ⟨hn, hb⟩ := hv.2 hop
    obtain ⟨g0, g1, g2, g3, bs, hl, hr, hbytes, hst⟩ := sequentialRead_ran s hv.1 hn
    obtain ⟨hm, hi, -, hs⟩ := compareReadBack_spec (s.bufPort.take s.n) (sequentialRead s.a s.n s) hr.moved_of_clearFault
    refine ⟨g0, g1, g2, g3, bs, by simp [hbytes', hl, hb], ?_, ?_, ?_⟩ <;>
      simp only [verifyLatched, hop, if_true, verifyPage]
    · exact hm
    · exact hi
    · rw [hs, hst, hbytes, statusOfCalls_readCalls]
      by_cases h0 : g0 ||| g1 ||| g2 ||| g3 = 0 <;> simp [h0, hbytes']
  · have hbytes' : latchedBytes s = [s.d] := if_neg hop
    obtain ⟨g0, g1, g2, g3, b, hr, hbytes, hst⟩ := randomRead_ran s hv.1
    obtain ⟨hm, hi, -, hs⟩ := compareReadBack_spec [s.d] (randomRead s.a s) hr.moved_of_clearFault
    refine ⟨g0, g1, g2, g3, [b], by simp [hbytes'], ?_, ?_, ?_⟩ <;>
      simp only [verifyLatched, hop, if_false, verifyByte]
    · exact hm
    · exact hi
    · rw [hs, hst, hbytes, statusOfCalls_readCalls]
      by_cases h0 : g0 ||| g1 ||| g2 ||| g3 = 0 <;> simp [h0, hbytes']

/-- What follows the write-completion wait (43_write.md R130). -/
theorem finishWrite_spec {s : State} (hv : LatchedValid s) :
    (∃ cs, Moved s cs (finishWrite s)) ∧
      WriteEnds s s.a (latchedBytes s) s.fault s.trace (finishWrite s) := by
  have hc := closeWp_ran s
  have hf : (closeWp s).fault = s.fault := by
    rw [hc.fault]
    by_cases h : s.cfg.wpControl <;> simp [wpCalls, h, answersOr]
  have hv' : LatchedValid (closeWp s) := by
    unfold LatchedValid at *
    rwa [hc.cfg, hc.a, hc.op, hc.n, hc.bufPort]
  obtain ⟨g0, g1, g2, g3, bs, hl, hm, hi, hs⟩ := verifyLatched_spec hv'
  have hb : latchedBytes (closeWp s) = latchedBytes s := by
    simp only [latchedBytes, hc.op, hc.bufPort, hc.n, hc.d]
  rw [hb] at hl hs
  rw [hc.cfg, hc.dsb, hc.a] at hm
  have hend : ∀ st, Moved s (wpCalls s.cfg .high) (endCommand st (closeWp s)) := fun st => by
    simpa using hc.moved.trans (endCommand_moved st _)
  simp only [finishWrite, hf, hc.cfg]
  by_cases h0 : s.fault = 0
  · by_cases hic : s.cfg.integrityCheck
    · simp only [h0, ne_eq, not_true_eq_false, if_false, hic, if_true]
      refine ⟨⟨_, hc.moved.trans hm⟩, ⟨hi, fun h => absurd rfl h, fun _ h => by simp [hic] at h, fun _ _ => ?_⟩⟩
      exact ⟨g0, g1, g2, g3, bs, hl, by rw [(hc.moved.trans hm).trace, List.append_assoc], hs⟩
    · simp only [h0, ne_eq, not_true_eq_false, if_false, hic]
      exact ⟨⟨_, hend _⟩, ⟨rfl, fun h => absurd rfl h, fun _ _ => ⟨(hend _).trace, rfl⟩, fun _ h => absurd h hic⟩⟩
  · simp only [h0, ne_eq, not_false_eq_true, if_true]
    exact ⟨⟨_, hend _⟩, ⟨rfl, fun _ => ⟨(hend _).trace, rfl⟩, fun h => absurd h h0, fun h => absurd h h0⟩⟩

/-- `WriteEnds` reads only the configuration and `dsb` of its first state. -/
theorem WriteEnds.of_eq {s s' t : State} {a f : Nat} {bytes : List Byte} {pre : List Call} (hcfg : s'.cfg = s.cfg)
    (hdsb : s'.dsb = s.dsb) (h : WriteEnds s' a bytes f pre t) : WriteEnds s a bytes f pre t := by
  obtain ⟨h1, h2, h3, h4⟩ := h
  rw [hcfg] at h2 h3 h4
  rw [hdsb] at h4
  exact ⟨h1, h2, h3, h4⟩

theorem pollAddr_moved (s : State) :
    Moved s [.start, .addr s.dsb .write (busAddr s.dsb .write (busStart s)).1] (busAddr s.dsb .write (busStart s)).2 := by
  simp [Moved, busAddr, busStart]

theorem pollStop_moved (s : State) :
    Moved s [.start, .addr s.dsb .write (busAddr s.dsb .write (busStart s)).1, .stop]
      (busStop (busAddr s.dsb .write (busStart s)).2) := by
  simp [Moved, busAddr, busStart, busStop]

/-- One polling attempt (42_write_wait.md R121): refused, nothing but trace, environment and `seq` moves; acknowledged, the
stop and the write's end follow, with the fault it had. -/
theorem pollAttempt_spec {s : State} (hv : LatchedValid s) :
    ∃ g, (∃ cs, Moved s cs (pollAttempt s)) ∧
      (g ≠ 0 → pollAttempt s = { s with
        seq := .pollStart
        env := (pollAttempt s).env
        trace := s.trace ++ [.start, .addr s.dsb .write g] } ∧
        (pollAttempt s).env = (envAddr s.cfg s.dsb .write (envStart s.env)).2) ∧
      (g = 0 → WriteEnds s s.a (latchedBytes s) s.fault (s.trace ++ [.start, .addr s.dsb .write 0, .stop]) (pollAttempt s)) := by
  refine ⟨(busAddr s.dsb .write (busStart s)).1, ?_⟩
  by_cases hg : (busAddr s.dsb .write (busStart s)).1 = 0
  · have hm := pollStop_moved s
    set u := busStop (busAddr s.dsb .write (busStart s)).2 with hu
    have hfault : u.fault = s.fault := rfl
    have hv' : LatchedValid u := by
      unfold LatchedValid at *
      rwa [hm.cfg, hm.a, hm.op, hm.n, hm.bufPort]
    obtain ⟨⟨cs, hcs⟩, hends⟩ := finishWrite_spec hv'
    have he : pollAttempt s = finishWrite u := by simp only [pollAttempt, hg, if_true, hu]
    have hb : latchedBytes u = latchedBytes s := by simp only [latchedBytes, hm.op, hm.bufPort, hm.n, hm.d]
    rw [he]
    refine ⟨⟨_, hm.trans hcs⟩, fun h => absurd hg h, fun _ => ?_⟩
    rw [hb, hfault, hm.a, hm.trace, hg] at hends
    exact hends.of_eq hm.cfg hm.dsb
  · have he : pollAttempt s = { (busAddr s.dsb .write (busStart s)).2 with seq := .pollStart } := by
      simp only [pollAttempt, hg, if_false]
    rw [he]
    refine ⟨⟨[.start, .addr s.dsb .write (busAddr s.dsb .write (busStart s)).1], ?_⟩, fun _ => ⟨?_, rfl⟩, fun h => absurd h hg⟩
    · simp [Moved, busAddr, busStart]
    · simp [busAddr, busStart]

theorem answersOr_sends (bytes : List Byte) (fs : List Nat) (h : fs.length = bytes.length) :
    answersOr (List.zipWith Call.send bytes fs) = fs.foldr (· ||| ·) 0 := by
  induction bytes generalizing fs with
  | nil =>
    obtain rfl : fs = [] := by simpa using h
    rfl
  | cons b bs ih =>
    cases fs with
    | nil => simp at h
    | cons f fs => simp [answersOr, ih fs (by simpa using h)]

theorem answersOr_wpCalls (c : Config) (l : Level) : answersOr (wpCalls c l) = 0 := by
  by_cases h : c.wpControl <;> simp [wpCalls, h, answersOr]

theorem answersOr_writeCalls (c : Config) (dsb : Dev7) (a f0 f1 f2 : Nat) (bytes : List Byte) (fs : List Nat)
    (h : fs.length = bytes.length) :
    answersOr (writeCalls c dsb a f0 f1 f2 bytes fs) = f0 ||| f1 ||| f2 ||| fs.foldr (· ||| ·) 0 := by
  simp [writeCalls, addressCalls, answersOr, answersOr_append, answersOr_sends bytes fs h, Nat.or_assoc]

/-- The write sequence up to its wait: WP opened, the write transaction, every answer counted (43_write.md R130, R135). -/
theorem beforeWait_ran (s : State) (a : Nat) (bytes : List Byte) :
    ∃ f0 f1 f2, ∃ fs : List Nat, fs.length = bytes.length ∧
      Ran (clearFault s) (wpCalls s.cfg .low ++ writeCalls s.cfg s.dsb a f0 f1 f2 bytes fs)
        (writeTransaction a bytes (openWp (clearFault s))) ∧
      (writeTransaction a bytes (openWp (clearFault s))).fault = f0 ||| f1 ||| f2 ||| fs.foldr (· ||| ·) 0 := by
  have ho := openWp_ran (clearFault s)
  obtain ⟨f0, f1, f2, fs, hl, h⟩ := writeTransaction_ran (openWp (clearFault s)) a bytes
  rw [ho.cfg, ho.dsb] at h
  have hr := ho.trans h
  refine ⟨f0, f1, f2, fs, hl, hr, ?_⟩
  rw [hr.fault, answersOr_append, clearFault_cfg, clearFault_dsb, answersOr_writeCalls _ _ _ _ _ _ _ _ hl,
    answersOr_wpCalls]
  simp

/-! ### What holds whatever the operands: only the working fields move -/

theorem randomRead_moved (s : State) (a : Nat) : ∃ cs, Moved s cs (randomRead a s).after := by
  by_cases ha : a < s.cfg.memorySize
  · obtain ⟨f0, f1, f2, f3, b, hr, -⟩ := randomRead_ran s ha
    exact ⟨_, hr.moved_of_clearFault⟩
  · exact ⟨[], by simpa [randomRead, addressOutOfRange, Nat.not_lt.1 ha] using Moved.refl s⟩

theorem sequentialRead_moved (s : State) (a n : Nat) : ∃ cs, Moved s cs (sequentialRead a n s).after := by
  by_cases ha : a < s.cfg.memorySize
  · by_cases hn : n = 0
    · exact ⟨[], by simpa [sequentialRead, addressOutOfRange, Nat.not_le.2 ha, hn] using Moved.refl s⟩
    · obtain ⟨f0, f1, f2, f3, bs, -, hr, -⟩ := sequentialRead_ran s ha hn
      exact ⟨_, hr.moved_of_clearFault⟩
  · exact ⟨[], by simpa [sequentialRead, addressOutOfRange, Nat.not_lt.1 ha] using Moved.refl s⟩

/-- Whatever a write's end does, it ends: IDLE, with a status, and only the working fields have moved. -/
theorem finishWrite_moved (s : State) :
    (∃ cs, Moved s cs (finishWrite s)) ∧ (finishWrite s).seq = .idle ∧ (finishWrite s).status ≠ none := by
  have hc := (closeWp_ran s).moved
  have hend : ∀ st, Moved s (wpCalls s.cfg .high) (endCommand st (closeWp s)) := fun st => by
    simpa using hc.trans (endCommand_moved st _)
  simp only [finishWrite]
  split
  · exact ⟨⟨_, hend _⟩, rfl, by simp⟩
  · split
    · simp only [verifyLatched]
      split
      · obtain ⟨cs, h⟩ := sequentialRead_moved (closeWp s) (closeWp s).a (closeWp s).n
        obtain ⟨hm, hi, -, hs⟩ := compareReadBack_spec ((closeWp s).bufPort.take (closeWp s).n) _ h
        exact ⟨⟨_, hc.trans hm⟩, hi, by rw [verifyPage, hs]; simp⟩
      · obtain ⟨cs, h⟩ := randomRead_moved (closeWp s) (closeWp s).a
        obtain ⟨hm, hi, -, hs⟩ := compareReadBack_spec [(closeWp s).d] _ h
        exact ⟨⟨_, hc.trans hm⟩, hi, by rw [verifyByte, hs]; simp⟩
    · exact ⟨⟨_, hend _⟩, rfl, by simp⟩

/-- A polling attempt ends the command or stays in the loop with its status untouched. -/
theorem pollAttempt_moved (s : State) :
    (∃ cs, Moved s cs (pollAttempt s)) ∧
      (((pollAttempt s).seq = .idle ∧ (pollAttempt s).status ≠ none) ∨
        ((pollAttempt s).seq = .pollStart ∧ (pollAttempt s).status = s.status)) := by
  by_cases hg : (busAddr s.dsb .write (busStart s)).1 = 0
  · have he : pollAttempt s = finishWrite (busStop (busAddr s.dsb .write (busStart s)).2) := by
      simp only [pollAttempt, hg, if_true]
    obtain ⟨⟨cs, h⟩, hi, hs⟩ := finishWrite_moved (busStop (busAddr s.dsb .write (busStart s)).2)
    rw [he]
    exact ⟨⟨_, (pollStop_moved s).trans h⟩, .inl ⟨hi, hs⟩⟩
  · have he : pollAttempt s = { (busAddr s.dsb .write (busStart s)).2 with seq := .pollStart } := by
      simp only [pollAttempt, hg, if_false]
    rw [he]
    exact ⟨⟨[.start, .addr s.dsb .write (busAddr s.dsb .write (busStart s)).1], by simp [Moved, busAddr, busStart]⟩,
      .inr ⟨rfl, rfl⟩⟩

/-- The write sequence moves only the working fields; with a fixed delay it ends (42_write_wait.md R120, R123). -/
theorem writeSequence_moved (s : State) (a : Nat) (bytes : List Byte) :
    (∃ cs, Moved s cs (writeSequence a bytes s)) ∧
      (((writeSequence a bytes s).seq = .idle ∧ (writeSequence a bytes s).status ≠ none) ∨
        (s.cfg.ackPolling = true ∧ (writeSequence a bytes s).seq = .pollStart ∧
          (writeSequence a bytes s).status = s.status)) := by
  obtain ⟨f0, f1, f2, fs, -, hr, -⟩ := beforeWait_ran s a bytes
  have hm := hr.moved_of_clearFault
  simp only [writeSequence, waitWrite]
  generalize writeTransaction a bytes (openWp (clearFault s)) = u at hr hm
  have hst : u.status = s.status := hr.status
  rw [hm.cfg]
  split
  · obtain ⟨⟨cs, h⟩, h'⟩ := pollAttempt_moved u
    refine ⟨⟨_, hm.trans h⟩, ?_⟩
    rw [hst] at h'
    exact h'.imp id fun h' => ⟨by assumption, h'⟩
  · obtain ⟨⟨cs, h⟩, h'⟩ := finishWrite_moved (waitMs s.cfg.writeCycleMs u)
    exact ⟨⟨_, (hm.trans (waitMs_ran u s.cfg.writeCycleMs).moved).trans h⟩, .inl h'⟩

end Sys2Proof.Machine
end

