-- ==== Sys2Proof/Laws/Accept.lean ====
section
/-! SUPPORT. Acceptance of a command, both ways, and what each meaning does once accepted. -/

namespace Sys2Proof.Machine

section Accept
variable {op : BitVec 3} {s t : State} {run : State → Host.Outcome State Fault Refusal}

theorem accept_of_ready (h : s.Ready) : accept op s run = run (startCommand op s) := by
  simp [accept, h.1, h.2]

theorem acceptIO_of_readyIO (h : s.ReadyIO) : acceptIO op s run = run (startCommand op s) := by
  rw [acceptIO, accept_of_ready h.1]
  simp [h.2]

/-- An accepted command found an admitted configuration and IDLE (00_scope.md R8, 20_memory.md R51). -/
theorem accept_next (h : accept op s run = .next t) : s.Ready ∧ run (startCommand op s) = .next t := by
  unfold accept at h
  split at h
  · simp at h
  · split at h
    · simp at h
    · exact ⟨⟨by simp_all, by assumption⟩, h⟩

/-- An accepted command that reads `dsb` found it holding a value (70_reset_and_hazards.md R211). -/
theorem acceptIO_next (h : acceptIO op s run = .next t) : s.ReadyIO ∧ run (startCommand op s) = .next t := by
  obtain ⟨hr, h⟩ := accept_next h
  by_cases hd : s.dsbSet = true
  · exact ⟨⟨hr, hd⟩, by simpa [hd] using h⟩
  · simp [hd] at h

theorem eq_of_next {x y : State} (h : (Host.Outcome.next x : Host.Outcome State Fault Refusal) = .next y) : y = x := by
  cases h
  rfl

end Accept

variable {s t : State}

theorem execInit_next (h : exec .init s = .next t) :
    s.Ready ∧ t = endCommand .ok (protectAtInit (writeDsb (initialDsb s.cfg) (startCommand 0 s))) := by
  change execInit s = _ at h
  obtain ⟨hr, h⟩ := accept_next h
  exact ⟨hr, eq_of_next h⟩

theorem execSelectDevice_next {id : Nat} (h : exec (.selectDevice id) s = .next t) :
    s.Ready ∧ s.cfg.multiDevices = true ∧
      t = endCommand .ok (writeDsb (selectedDsb s.cfg id) (startCommand 1 s)) := by
  change execSelectDevice id s = _ at h
  unfold execSelectDevice at h
  split at h
  · obtain ⟨hr, h⟩ := accept_next h
    exact ⟨hr, by assumption, eq_of_next h⟩
  · simp at h

theorem execWp_next {mode : WpMode} (h : exec (.wp mode) s = .next t) :
    s.Ready ∧ s.cfg.wpControl = true ∧ t = endCommand .ok (wpSet (levelOf mode) (startCommand 2 s)) := by
  change execWp mode s = _ at h
  unfold execWp at h
  split at h
  · obtain ⟨hr, h⟩ := accept_next h
    exact ⟨hr, by assumption, eq_of_next h⟩
  · simp at h

/-- WRITE_BYTE once accepted: its latches, then the failed validation or the write sequence (43_write.md R130). -/
theorem execWriteByte_next {a : Nat} {d : Byte} (h : exec (.writeByte a d) s = .next t) :
    s.ReadyIO ∧
      ((s.cfg.memorySize ≤ a ∧ t = endCommand .addressError (latchData d (latchAddress a (startCommand 3 s)))) ∨
        (a < s.cfg.memorySize ∧ t = writeSequence a [d] (latchData d (latchAddress a (startCommand 3 s))))) := by
  change execWriteByte a d s = _ at h
  obtain ⟨hr, h⟩ := acceptIO_next h
  refine ⟨hr, ?_⟩
  simp only [addressOutOfRange, decide_eq_true_eq] at h
  by_cases ha : s.cfg.memorySize ≤ a
  · rw [startCommand_cfg, if_pos ha] at h
    exact .inl ⟨ha, eq_of_next h⟩
  · rw [startCommand_cfg, if_neg ha] at h
    exact .inr ⟨by omega, eq_of_next h⟩

/-- WRITE_PAGE once accepted (43_write.md R131): page test, length test, write sequence. -/
theorem execWritePage_next {p n : Nat} {buf : List Byte} (h : exec (.writePage p n buf) s = .next t) :
    s.ReadyIO ∧
      ((s.cfg.pages ≤ p ∧ t = endCommand .pageError (latchBuffer buf (latchLength n (startCommand 4 s)))) ∨
        (p < s.cfg.pages ∧ (n = 0 ∨ s.cfg.pageSize ≤ n) ∧
          t = endCommand .sizeError (latchBuffer buf (latchLength n (startCommand 4 s)))) ∨
        (p < s.cfg.pages ∧ n ≠ 0 ∧ n < s.cfg.pageSize ∧
          t = writeSequence (pageAddress s.cfg p) ((pagePort s.portDrawn n buf).take n)
            (latchAddress (pageAddress s.cfg p) (latchPage n buf (latchLength n (startCommand 4 s)))))) := by
  change execWritePage p n buf s = _ at h
  obtain ⟨hr, h⟩ := acceptIO_next h
  refine ⟨hr, ?_⟩
  simp only [pageOutOfRange, pageLengthBad, decide_eq_true_eq, Bool.or_eq_true] at h
  rw [startCommand_cfg] at h
  by_cases hp : s.cfg.pages ≤ p
  · rw [if_pos hp] at h
    exact .inl ⟨hp, eq_of_next h⟩
  · rw [if_neg hp] at h
    by_cases hn : n = 0 ∨ s.cfg.pageSize ≤ n
    · rw [if_pos hn] at h
      exact .inr (.inl ⟨by omega, hn, eq_of_next h⟩)
    · rw [if_neg hn] at h
      exact .inr (.inr ⟨by omega, by omega, by omega, eq_of_next h⟩)

theorem execReadCurrentByte_next (h : exec .readCurrentByte s = .next t) :
    s.ReadyIO ∧ t = endCommand (currentRead (startCommand 5 s)).status
      (deliverByte (currentRead (startCommand 5 s)).bytes (currentRead (startCommand 5 s)).after) := by
  change execReadCurrentByte s = _ at h
  obtain ⟨hr, h⟩ := acceptIO_next h
  exact ⟨hr, eq_of_next h⟩

theorem execReadByte_next {a : Nat} (h : exec (.readByte a) s = .next t) :
    s.ReadyIO ∧ t = endCommand (randomRead a (latchAddress a (startCommand 6 s))).status
      (deliverByte (randomRead a (latchAddress a (startCommand 6 s))).bytes
        (randomRead a (latchAddress a (startCommand 6 s))).after) := by
  change execReadByte a s = _ at h
  obtain ⟨hr, h⟩ := acceptIO_next h
  exact ⟨hr, eq_of_next h⟩

theorem execReadSequential_next {a n : Nat} (h : exec (.readSequential a n) s = .next t) :
    s.ReadyIO ∧ t = endCommand (sequentialRead a n (latchLength n (latchAddress a (startCommand 7 s)))).status
      (deliverBuffer (sequentialRead a n (latchLength n (latchAddress a (startCommand 7 s)))).bytes
        (sequentialRead a n (latchLength n (latchAddress a (startCommand 7 s)))).after) := by
  change execReadSequential a n s = _ at h
  obtain ⟨hr, h⟩ := acceptIO_next h
  exact ⟨hr, eq_of_next h⟩

/-- What a step does, whenever it answers a next state: a polling attempt, a wait, or the host's next command. -/
theorem step_next (h : step s = .next t) :
    (s.seq = .pollStart ∧ admitted s.cfg = true ∧ t = pollAttempt s) ∨
    (s.seq = .idle ∧ s.port = [] ∧ t = s) ∨
    (∃ r rest i, s.seq = .idle ∧ s.port = r :: rest ∧ fetchCommand s.cfg r = .ok i ∧
      exec i { s with port := rest } = .next t) := by
  unfold step at h
  split at h
  · unfold pollAgain at h
    split at h
    · simp at h
    · exact .inl ⟨by assumption, by simp_all, eq_of_next h⟩
  · split at h
    · exact .inr (.inl ⟨by assumption, by assumption, eq_of_next h⟩)
    · rename_i r rest hp
      split at h
      · simp at h
      · rename_i i hi
        exact .inr (.inr ⟨r, rest, i, by assumption, hp, hi, h⟩)

/-- A step in the polling loop is one more attempt (42_write_wait.md R121). -/
theorem step_polling {s t : State} (hs : s.seq = .pollStart) (h : step s = .next t) : admitted s.cfg = true ∧ t = pollAttempt s := by
  rcases step_next h with ⟨_, h2, h3⟩ | ⟨h2, _⟩ | ⟨_, _, _, h2, _⟩
  · exact ⟨h2, h3⟩
  · rw [hs] at h2; cases h2
  · rw [hs] at h2; cases h2

end Sys2Proof.Machine
end

