-- ==== Sys2Proof/Laws/Encoder.lean ====
section
/-! SUPPORT. Admitted configurations (00_scope.md R8) and the address encoder (40_address_phase.md R100, R102). -/

namespace Sys2Proof.Machine

/-- What an admitted configuration gives (00_scope.md R8, R9). -/
structure AdmittedFacts (c : Config) : Prop where
  pagesFill : c.pages * c.pageSize = c.memorySize
  notEmpty : 0 < c.memorySize
  atMost2M : c.memorySize ≤ 262144
  highMask : c.addrHighMask = highMaskFor c.memorySize
  pinMask : c.addrPinMask = pinMaskFor c.memorySize
  baseClear : c.baseAddr &&& (c.addrHighMask ||| c.addrPinMask) = 0
  pageSizeTwo : 2 ≤ c.pageSize
  addrFits : c.memorySize < 2 ^ c.addrW
  pageFits : c.pages < 2 ^ c.pageW
  lenFits : c.pageSize < 2 ^ c.lenW
  idFits : 3 ≤ c.idW
  faultFits : 1 ≤ c.faultW

theorem admitted_facts {c : Config} (h : admitted c = true) : AdmittedFacts c := by
  simp only [admitted, Bool.and_eq_true, decide_eq_true_eq, and_assoc] at h
  obtain ⟨h1, h2, h3, h4, h5, h6, h7, h8, h9, h10, h11, h12⟩ := h
  exact ⟨h1, h2, h3, h4, h5, h6, h7, h8, h9, h10, h11, h12⟩

/-- The two mask pairs of 00_scope.md R5: V2M and the others. -/
theorem masks_cases {c : Config} (h : admitted c = true) :
    (262144 ≤ c.memorySize ∧ c.addrHighMask = 0x03 ∧ c.addrPinMask = 0x04) ∨
    (c.memorySize < 262144 ∧ c.addrHighMask = 0x01 ∧ c.addrPinMask = 0x06) := by
  obtain ⟨-, -, -, hh, hp, -⟩ := admitted_facts h
  by_cases hs : 262144 ≤ c.memorySize
  · exact .inl ⟨hs, by simp [hh, highMaskFor, hs], by simp [hp, pinMaskFor, hs]⟩
  · exact .inr ⟨by omega, by simp [hh, highMaskFor, hs], by simp [hp, pinMaskFor, hs]⟩

/-- The high bits of a device value are those of the address (40_address_phase.md R100, corner case 4). -/
theorem dev_high_part {dsb mask x : Dev7} (h : dsb &&& mask = 0) : (dsb ||| (x &&& mask)) &&& mask = x &&& mask := by
  ext j hj
  have hd : (dsb &&& mask)[j] = false := by simp [h]
  simp only [BitVec.getElem_and, BitVec.getElem_or] at hd ⊢
  revert hd
  cases dsb[j] <;> cases mask[j] <;> cases x[j] <;> simp

/-- The other bits of a device value are those of `dsb` (40_address_phase.md R100, corner case 4). -/
theorem dev_low_part {dsb mask x : Dev7} (h : dsb &&& mask = 0) : (dsb ||| (x &&& mask)) &&& ~~~mask = dsb := by
  ext j hj
  have hd : (dsb &&& mask)[j] = false := by simp [h]
  simp only [BitVec.getElem_and, BitVec.getElem_or, BitVec.getElem_not] at hd ⊢
  revert hd
  cases dsb[j] <;> cases mask[j] <;> cases x[j] <;> simp

/-- The chip's address of high bits and two bytes, as a sum (20_memory.md R62). -/
theorem joinAddr_eq (hi : Dev7) (ah al : Byte) : joinAddr hi ah al = hi.toNat * 65536 + ah.toNat * 256 + al.toNat := by
  unfold joinAddr
  have hah := ah.isLt
  have hal := al.isLt
  rw [Nat.or_assoc, ← Nat.shiftLeft_add_eq_or_of_lt (show al.toNat < 2 ^ 8 from hal),
    ← Nat.shiftLeft_add_eq_or_of_lt (show ah.toNat <<< 8 + al.toNat < 2 ^ 16 by rw [Nat.shiftLeft_eq]; omega)]
  simp only [Nat.shiftLeft_eq]
  omega

/-- What a chip reassembles from the triple of an address (40_address_phase.md R102): the address, as far as the bits sent
can name it. -/
theorem joinAddr_encodeAddr {c : Config} {dsb : Dev7} (h : admitted c = true) (hd : dsb &&& c.addrHighMask = 0) (a : Nat) :
    joinAddr ((encodeAddr c dsb a).dev7 &&& c.addrHighMask) (encodeAddr c dsb a).ah (encodeAddr c dsb a).al =
      a % (2 ^ 16 * (c.addrHighMask.toNat + 1)) := by
  rw [joinAddr_eq]
  simp only [encodeAddr]
  rw [dev_high_part hd]
  rcases masks_cases h with ⟨-, hm, -⟩ | ⟨-, hm, -⟩ <;> rw [hm] <;>
    simp only [BitVec.toNat_and, BitVec.toNat_ofNat, Nat.shiftRight_eq_div_pow]
  · have h3 : a / 2 ^ 16 % 2 ^ 7 &&& 3 = a / 2 ^ 16 % 2 ^ 7 % 4 := Nat.and_two_pow_sub_one_eq_mod _ 2
    have h3' : (3 : Dev7).toNat = 3 := rfl
    rw [h3', h3]
    omega
  · have h1 : a / 2 ^ 16 % 2 ^ 7 &&& 1 = a / 2 ^ 16 % 2 ^ 7 % 2 := Nat.and_two_pow_sub_one_eq_mod _ 1
    have h1' : (1 : Dev7).toNat = 1 := rfl
    rw [h1', h1]
    omega

theorem joinAddr_encodeAddr_valid {c : Config} {dsb : Dev7} (h : admitted c = true) (hd : dsb &&& c.addrHighMask = 0)
    (hf : Addressable c) {a : Nat} (ha : a < c.memorySize) :
    joinAddr ((encodeAddr c dsb a).dev7 &&& c.addrHighMask) (encodeAddr c dsb a).ah (encodeAddr c dsb a).al = a := by
  rw [joinAddr_encodeAddr h hd, Nat.mod_eq_of_lt (Nat.lt_of_lt_of_le ha hf)]

end Sys2Proof.Machine
end

