-- ==== Sys2Proof/Laws/Memory.lean ====
section
/-! SUPPORT. The laws of a chip's array: a read after a write, the canonical form, and that equal arrays are equal lists. -/

namespace Sys2Proof.Machine

variable {size lo hi : Nat} {m : List Host.Cell} {x y : Nat} {v : Byte}

theorem memWfFrom_cons {b : Byte} :
    memWfFrom size lo ((x, b) :: m) = true ↔ lo ≤ x ∧ x < size ∧ b ≠ blankByte ∧ memWfFrom size (x + 1) m = true := by
  simp [memWfFrom, and_assoc]

theorem memWfFrom_weaken (h : hi ≤ lo) (hm : memWfFrom size lo m = true) : memWfFrom size hi m = true := by
  cases m with
  | nil => rfl
  | cons c m =>
    obtain ⟨x, b⟩ := c
    rw [memWfFrom_cons] at hm ⊢
    exact ⟨h.trans hm.1, hm.2⟩

/-- Below the first listed address every byte reads blank. -/
theorem memRead_below (hm : memWfFrom size lo m = true) (h : x < lo) : memRead m x = blankByte := by
  induction m generalizing lo with
  | nil => rfl
  | cons c m ih =>
    obtain ⟨y, b⟩ := c
    rw [memWfFrom_cons] at hm
    have hy : y ≠ x := by omega
    simp only [memRead, hy, if_false]
    exact ih hm.2.2.2 (by omega)

theorem memWfFrom_consCell (hm : memWfFrom size (x + 1) m = true) (hx : x < size) (hlo : lo ≤ x) :
    memWfFrom size lo (consCell x v m) = true := by
  by_cases hv : v = blankByte
  · simpa [consCell, hv] using memWfFrom_weaken (by omega) hm
  · simp [consCell, hv, memWfFrom_cons, hx, hlo, hm]

/-- A write keeps the canonical form. -/
theorem memWfFrom_memWrite (hm : memWfFrom size lo m = true) (hx : x < size) (hlo : lo ≤ x) :
    memWfFrom size lo (memWrite m x v) = true := by
  induction m generalizing lo with
  | nil => exact memWfFrom_consCell rfl hx hlo
  | cons c m ih =>
    obtain ⟨y, b⟩ := c
    have hm' := hm
    rw [memWfFrom_cons] at hm
    simp only [memWrite]
    split
    · exact memWfFrom_consCell (memWfFrom_cons.2 ⟨by omega, hm.2⟩) hx hlo
    · split
      · subst_vars
        exact memWfFrom_consCell hm.2.2.2 hx hlo
      · exact memWfFrom_cons.2 ⟨hm.1, hm.2.1, hm.2.2.1, ih hm.2.2.2 (by omega)⟩

theorem memWf_memWrite (hm : memWf size m = true) (hx : x < size) : memWf size (memWrite m x v) = true :=
  memWfFrom_memWrite hm hx (Nat.zero_le _)

theorem memRead_consCell_same (h : memRead m x = blankByte) : memRead (consCell x v m) x = v := by
  by_cases hv : v = blankByte <;> simp [consCell, hv, memRead, h]

theorem memRead_consCell_other (h : x ≠ y) : memRead (consCell x v m) y = memRead m y := by
  by_cases hv : v = blankByte <;> simp [consCell, hv, memRead, h]

/-- A read of the written address gives the value written. -/
theorem memRead_memWrite_same (hm : memWfFrom size lo m = true) : memRead (memWrite m x v) x = v := by
  induction m generalizing lo with
  | nil => exact memRead_consCell_same rfl
  | cons c m ih =>
    obtain ⟨y, b⟩ := c
    have hm' := memWfFrom_cons.1 hm
    simp only [memWrite]
    split
    · exact memRead_consCell_same
        (memRead_below (lo := y) (memWfFrom_cons.2 ⟨le_refl _, hm'.2⟩) (by assumption))
    · split
      · subst_vars
        exact memRead_consCell_same (memRead_below hm'.2.2.2 (Nat.lt_succ_self _))
      · have : y ≠ x := by omega
        simpa [memRead, this] using ih hm'.2.2.2

/-- A write leaves every other address alone. -/
theorem memRead_memWrite_other (h : x ≠ y) : memRead (memWrite m x v) y = memRead m y := by
  induction m with
  | nil => exact memRead_consCell_other h
  | cons c m ih =>
    obtain ⟨z, b⟩ := c
    simp only [memWrite]
    split
    · exact memRead_consCell_other h
    · split
      · subst_vars
        simp [memRead_consCell_other h, memRead, h]
      · simp [memRead, ih]

/-- Storing a list of bytes keeps the canonical form. -/
theorem memWf_memWriteAll {bs : List Byte} (hm : memWf size m = true) : memWf size (memWriteAll size m x bs) = true := by
  induction bs generalizing m x with
  | nil => exact hm
  | cons b bs ih =>
    simp only [memWriteAll]
    split
    · exact ih (memWf_memWrite hm (by assumption))
    · exact ih hm

/-- Storing a list of bytes leaves every address outside them alone. -/
theorem memRead_memWriteAll_outside {bs : List Byte} (h : y < x ∨ x + bs.length ≤ y) :
    memRead (memWriteAll size m x bs) y = memRead m y := by
  induction bs generalizing m x with
  | nil => rfl
  | cons b bs ih =>
    simp only [List.length_cons] at h
    simp only [memWriteAll]
    rw [ih (by omega)]
    split
    · exact memRead_memWrite_other (by omega)
    · rfl

/-- A stored byte reads back, when the bytes lie inside the array. -/
theorem memRead_memWriteAll_inside {bs : List Byte} (hm : memWf size m = true) (hx : x + bs.length ≤ size) {j : Nat}
    (hj : j < bs.length) : memRead (memWriteAll size m x bs) (x + j) = bs[j] := by
  induction bs generalizing m x j with
  | nil => simp at hj
  | cons b bs ih =>
    simp only [List.length_cons] at hx hj
    simp only [memWriteAll, show x < size by omega, if_true]
    have hw : memWf size (memWrite m x b) = true := memWf_memWrite hm (by omega)
    cases j with
    | zero => simpa [memRead_memWriteAll_outside] using memRead_memWrite_same (v := b) (x := x) hm
    | succ j =>
      have := ih (x := x + 1) hw (by omega) (j := j) (by omega)
      simpa [Nat.add_assoc, Nat.add_comm 1 j] using this

/-- Equal arrays are equal lists: two canonical forms that read alike everywhere are one. -/
theorem memWfFrom_unique {m' : List Host.Cell} (hm : memWfFrom size lo m = true) (hm' : memWfFrom size lo m' = true)
    (h : ∀ x, memRead m x = memRead m' x) : m = m' := by
  induction m generalizing lo m' with
  | nil =>
    cases m' with
    | nil => rfl
    | cons c m' =>
      obtain ⟨y, b⟩ := c
      have := h y
      simp only [memRead, if_true] at this
      exact absurd this.symm (memWfFrom_cons.1 hm').2.2.1
  | cons c m ih =>
    obtain ⟨x, b⟩ := c
    have hx := memWfFrom_cons.1 hm
    cases m' with
    | nil =>
      have := h x
      simp only [memRead, if_true] at this
      exact absurd this hx.2.2.1
    | cons c' m' =>
      obtain ⟨y, b'⟩ := c'
      have hy := memWfFrom_cons.1 hm'
      have hxy : x = y := by
        rcases Nat.lt_trichotomy x y with hlt | heq | hgt
        · have := h x
          rw [memRead_below (lo := y) (m := (y, b') :: m') (memWfFrom_cons.2 ⟨le_refl _, hy.2⟩) hlt] at this
          simp only [memRead, if_true] at this
          exact absurd this hx.2.2.1
        · exact heq
        · have := h y
          rw [memRead_below (lo := x) (m := (x, b) :: m) (memWfFrom_cons.2 ⟨le_refl _, hx.2⟩) hgt] at this
          simp only [memRead, if_true] at this
          exact absurd this.symm hy.2.2.1
      subst hxy
      have hb : b = b' := by simpa [memRead] using h x
      subst hb
      congr 1
      refine ih hx.2.2.2 hy.2.2.2 fun z => ?_
      by_cases hz : x = z
      · subst hz
        rw [memRead_below hx.2.2.2 (Nat.lt_succ_self _), memRead_below hy.2.2.2 (Nat.lt_succ_self _)]
      · simpa [memRead, hz] using h z

end Sys2Proof.Machine
end

