-- ==== Sys2Proof/Laws/Env.lean ====
section
/-! SUPPORT. What each collaborator call and each sequence of calls does to the environment: the mock changes nothing but
its coming choices; ENV (20_memory.md R59 to R66) is said case by case, a chip reached or not. -/

namespace Sys2Proof.Machine

/-! ### Lists of chips -/

/-- A change of one chip that keeps a quantity keeps the list of that quantity. -/
theorem map_modify_of_eq {α : Type} (g : Chip → α) (f : Chip → Chip) (h : ∀ ch, g (f ch) = g ch) (l : List Chip) (k : Nat) :
    (l.modify k f).map g = l.map g := by
  apply List.ext_getElem?
  intro j
  simp only [List.getElem?_map, List.getElem?_modify]
  by_cases hj : k = j <;> cases l[j]? <;> simp [hj, h]

theorem modify_modify_same (f g : Chip → Chip) (l : List Chip) (k : Nat) :
    (l.modify k f).modify k g = l.modify k (fun ch => g (f ch)) := by
  apply List.ext_getElem?
  intro j
  simp only [List.getElem?_modify]
  by_cases hj : k = j <;> cases l[j]? <;> simp [hj]

/-- The arrays decide what every byte reads as. -/
theorem byteAt_of_arrays {e e' : Env} (h : e'.chips.map Chip.mem = e.chips.map Chip.mem) (k x : Nat) :
    byteAt e' k x = byteAt e k x := by
  have hk := congrArg (fun l => (l[k]?).map fun m => memRead m x) h
  simpa [byteAt, List.getElem?_map, Option.map_map, Function.comp_def] using hk

/-- Which chip a device value addresses depends on the straps alone. -/
theorem chipFor_of_pins {c : Config} {l l' : List Chip} (h : l'.map Chip.pins = l.map Chip.pins) (dev : Dev7) :
    chipFor c l' dev = chipFor c l dev := by
  have key : ∀ l : List Chip, chipFor c l dev =
      (l.map Chip.pins).findIdx? fun p => decide (dev &&& ~~~c.addrHighMask = c.baseAddr ||| p) := by
    intro l
    simp only [chipFor, List.findIdx?_map]
    rfl
  rw [key, key, h]

theorem chipFor_lt {c : Config} {l : List Chip} {dev : Dev7} {k : Nat} (h : chipFor c l dev = some k) : k < l.length := by
  simp only [chipFor, List.findIdx?_eq_some_iff_getElem] at h
  exact h.1

/-- The device value of an address finds the chip that `dsb` alone finds (20_memory.md R61). -/
theorem chipFor_deviceValue (c : Config) (l : List Chip) (dsb : Dev7) (a : Nat) :
    chipFor c l (deviceValue c dsb a) = chipFor c l dsb := by
  have h : deviceValue c dsb a &&& ~~~c.addrHighMask = dsb &&& ~~~c.addrHighMask := by
    ext i hi
    simp [deviceValue]
    cases c.addrHighMask[i] <;> simp
  simp only [chipFor, h]

/-! ### One call -/

/-- What no bus call changes: the kind, NACK's fault set, the WP level, the straps. -/
structure EnvFrame (e e' : Env) : Prop where
  kind : e'.kind = e.kind
  nackSet : e'.nackSet = e.nackSet
  wpLevel : e'.wpLevel = e.wpLevel
  pins : e'.chips.map Chip.pins = e.chips.map Chip.pins

theorem EnvFrame.refl (e : Env) : EnvFrame e e := ⟨rfl, rfl, rfl, rfl⟩

theorem EnvFrame.trans {e e' e'' : Env} (h : EnvFrame e e') (h' : EnvFrame e' e'') : EnvFrame e e'' :=
  ⟨h'.kind.trans h.kind, h'.nackSet.trans h.nackSet, h'.wpLevel.trans h.wpLevel, h'.pins.trans h.pins⟩

theorem EnvFrame.hasChips {e e' : Env} (h : EnvFrame e e') (hc : e.HasChips) : e'.HasChips := by
  unfold Env.HasChips at *
  rwa [h.kind]

theorem EnvFrame.chipFor {e e' : Env} (h : EnvFrame e e') (c : Config) (dev : Dev7) :
    chipFor c e'.chips dev = chipFor c e.chips dev := chipFor_of_pins h.pins dev

theorem nextDraw_alike (e : Env) :
    (nextDraw e).2 = { e with draws := (nextDraw e).2.draws, drawn := (nextDraw e).2.drawn } := by
  unfold nextDraw
  split <;> simp

/-- The chip a call could reach is not there, or busy. -/
def Unreached (c : Config) (dev : Dev7) (e : Env) : Prop :=
  chipFor c e.chips dev = none ∨
    ∃ k ch, chipFor c e.chips dev = some k ∧ e.chips[k]? = some ch ∧ ch.busy = true

/-- `BusAddr` in ENV (20_memory.md R61): refused with `nackSet`, or a chip is selected; `f` is what a faulty environment
injects. -/
theorem envAddr_chips {e : Env} (h : e.HasChips) (c : Config) (dev : Dev7) (dir : Dir) :
    ∃ f ds n, (e.kind = .chips → f = 0) ∧
      ((Unreached c dev e ∧ envAddr c dev dir e = (e.nackSet ||| f, { e with sel := none, draws := ds, drawn := n })) ∨
       ∃ k, chipFor c e.chips dev = some k ∧
        envAddr c dev dir e = (f, { e with
          chips := e.chips.modify k fun ch => { ch with busy := false, stage := [] }
          sel := some k
          dir := dir
          hi := dev &&& c.addrHighMask
          nsent := 0
          draws := ds
          drawn := n })) := by
  have ha := nextDraw_alike e
  generalize hq : nextDraw e = q at ha
  obtain ⟨d, e'⟩ := q
  refine ⟨injected c e.kind d.fault, e'.draws, e'.drawn, fun hk => by simp [injected, hk], ?_⟩
  simp only at ha
  have hans : envAddr c dev dir e = chipsAddrAnswer c dev dir d e' := by
    rcases h with h | h <;> simp [envAddr, h, hq]
  rw [hans, ha]
  simp only [chipsAddrAnswer, chipsAddr, chipsAnswer, stillBusy]
  rcases Option.eq_none_or_eq_some (chipFor c e.chips dev) with hf | ⟨k, hf⟩
  · exact .inl ⟨.inl hf, by simp [hf]⟩
  · have hk := List.getElem?_eq_getElem (chipFor_lt hf)
    by_cases hb : (e.chips[k]'(chipFor_lt hf)).busy && !d.ends
    · exact .inl ⟨.inr ⟨k, _, hf, hk, (Bool.and_eq_true_iff.1 hb).1⟩, by simp only [hf, hk, hb]; rfl⟩
    · exact .inr ⟨k, hf, by simp only [hf, hk, hb]; simp⟩

/-- A `BusSend` in ENV: what `chipsSend` decides, with what a faulty environment injects (20_memory.md R62, R66). -/
theorem envSend_chips {e : Env} (h : e.HasChips) (c : Config) (b : Byte) :
    ∃ f ds n, (e.kind = .chips → f = 0) ∧
      envSend c b e = ((if (chipsSend b e).1 then 0 else e.nackSet) ||| f,
        { (chipsSend b e).2 with draws := ds, drawn := n }) := by
  have ha := nextDraw_alike e
  generalize hq : nextDraw e = q at ha
  obtain ⟨d, e'⟩ := q
  refine ⟨injected c e.kind d.fault, e'.draws, e'.drawn, fun hk => by simp [injected, hk], ?_⟩
  simp only at ha
  have hans : envSend c b e = chipsSendAnswer c b d e' := by
    rcases h with h | h <;> simp [envSend, h, hq]
  rw [hans, ha]
  obtain ⟨kind, chips, sel, dir, hi, ah, nsent, wpLevel, nackSet, draws, drawn⟩ := e
  simp only [chipsSendAnswer, chipsAnswer, chipsSend]
  rcases sel with _ | k <;> rcases dir with _ | _ <;> try rfl
  by_cases h0 : nsent = 0
  · simp [h0]
  · by_cases h1 : nsent = 1 <;> simp [h0, h1]

section Send
variable {e : Env} (h : e.HasChips)
include h

/-- A byte no chip hears is refused. -/
theorem envSend_unheard (hs : e.sel = none) (c : Config) (b : Byte) :
    ∃ f ds n, envSend c b e = (e.nackSet ||| f, { e with draws := ds, drawn := n }) := by
  obtain ⟨f, ds, n, -, hb⟩ := envSend_chips h c b
  exact ⟨f, ds, n, by simpa [chipsSend, hs] using hb⟩

variable {k : Nat} (hs : e.sel = some k) (hd : e.dir = .write)
include hs hd

/-- The first word-address byte (20_memory.md R62). -/
theorem envSend_high (h0 : e.nsent = 0) (c : Config) (b : Byte) :
    ∃ f ds n, (e.kind = .chips → f = 0) ∧ envSend c b e = (f, { e with ah := b, nsent := 1, draws := ds, drawn := n }) := by
  obtain ⟨f, ds, n, hf, hb⟩ := envSend_chips h c b
  exact ⟨f, ds, n, hf, by simpa [chipsSend, hs, hd, h0] using hb⟩

/-- The second word-address byte sets the pointer (20_memory.md R62). -/
theorem envSend_low (h1 : e.nsent = 1) (c : Config) (b : Byte) :
    ∃ f ds n, (e.kind = .chips → f = 0) ∧ envSend c b e = (f, { e with
      chips := e.chips.modify k fun ch => { ch with ptr := joinAddr e.hi e.ah b }
      nsent := 2
      draws := ds
      drawn := n }) := by
  obtain ⟨f, ds, n, hf, hb⟩ := envSend_chips h c b
  exact ⟨f, ds, n, hf, by simpa [chipsSend, hs, hd, h1] using hb⟩

/-- A data byte is staged (20_memory.md R62). -/
theorem envSend_data (h2 : 2 ≤ e.nsent) (c : Config) (b : Byte) :
    ∃ f ds n, (e.kind = .chips → f = 0) ∧ envSend c b e = (f, { e with
      chips := e.chips.modify k fun ch => { ch with stage := ch.stage ++ [b] }
      nsent := e.nsent + 1
      draws := ds
      drawn := n }) := by
  obtain ⟨f, ds, n, hf, hb⟩ := envSend_chips h c b
  have h0 : e.nsent ≠ 0 := by omega
  have h1 : e.nsent ≠ 1 := by omega
  exact ⟨f, ds, n, hf, by simpa [chipsSend, hs, hd, h0, h1] using hb⟩

end Send

/-- `BusRecv` in ENV (20_memory.md R64): an undriven byte, or the byte at the selected chip's pointer, which moves on. -/
theorem envRecv_chips {e : Env} (h : e.HasChips) (c : Config) :
    ∃ b ds n,
      ((∀ k ch, e.sel = some k → e.dir = .read → e.chips[k]? ≠ some ch) ∧
        envRecv c e = (b, { e with draws := ds, drawn := n })) ∨
      ∃ k ch, e.sel = some k ∧ e.dir = .read ∧ e.chips[k]? = some ch ∧
        envRecv c e = (memRead ch.mem ch.ptr, { e with
          chips := e.chips.modify k fun ch => { ch with ptr := (ch.ptr + 1) % c.memorySize }
          draws := ds
          drawn := n }) := by
  have ha := nextDraw_alike e
  generalize hq : nextDraw e = q at ha
  obtain ⟨d, e'⟩ := q
  refine ⟨d.byte, e'.draws, e'.drawn, ?_⟩
  simp only at ha
  have hans : envRecv c e = chipsRecvAnswer c d e' := by
    rcases h with h | h <;> simp [envRecv, h, hq]
  rw [hans, ha]
  simp only [chipsRecvAnswer]
  cases hs : e.sel with
  | none => exact .inl ⟨by simp, by simp [chipsRecv]⟩
  | some k =>
    cases hd : e.dir with
    | write => exact .inl ⟨by simp, by simp [chipsRecv]⟩
    | read =>
      cases hk : e.chips[k]? with
      | none =>
        refine .inl ⟨?_, by simp [chipsRecv, hk]⟩
        rintro k' ch ⟨⟩ -
        simp [hk]
      | some ch => exact .inr ⟨k, ch, rfl, rfl, hk, by simp [chipsRecv, hk]⟩

/-- `BusStart` in ENV (20_memory.md R60). -/
theorem envStart_chips {e : Env} (h : e.HasChips) : envStart e = { e with nsent := 0 } := by
  rcases h with h | h <;> simp [envStart, h]

/-- `BusStop` in ENV (20_memory.md R63). -/
theorem envStop_chips {e : Env} (h : e.HasChips) (c : Config) : envStop c e = chipsStop c e := by
  rcases h with h | h <;> simp [envStop, h]

/-- A chip stores nothing where no data byte was staged. -/
theorem commitStage_empty (c : Config) (l : Level) (ch : Chip) (h : ch.stage = []) : commitStage c l ch = ch := by
  simp [commitStage, h]

/-! ### The mock changes nothing but its coming choices -/

/-- The environment is `e` but for the coming choices. -/
def SameButDraws (e e' : Env) : Prop := e' = { e with draws := e'.draws, drawn := e'.drawn }

theorem SameButDraws.refl (e : Env) : SameButDraws e e := rfl

theorem SameButDraws.trans {e e' e'' : Env} (h : SameButDraws e e') (h' : SameButDraws e' e'') : SameButDraws e e'' := by
  unfold SameButDraws at *
  rw [h', h]

theorem SameButDraws.frame {e e' : Env} (h : SameButDraws e e') : EnvFrame e e' := by
  unfold SameButDraws at h
  rw [h]
  exact ⟨rfl, rfl, rfl, rfl⟩

theorem SameButDraws.chips {e e' : Env} (h : SameButDraws e e') : e'.chips = e.chips := by
  unfold SameButDraws at h
  rw [h]

theorem SameButDraws.isMock {e e' : Env} (h : SameButDraws e e') (hk : e.kind = .mock) : e'.kind = .mock := by
  rw [h.frame.kind, hk]

section Mock
variable {e : Env} (h : e.kind = .mock)
include h

theorem envStart_mock : envStart e = e := by simp [envStart, h]
theorem envStop_mock (c : Config) : envStop c e = e := by simp [envStop, h]
theorem envWait_mock (c : Config) (n : Nat) : envWait c n e = e := by simp [envWait, h]
theorem envAddr_mock (c : Config) (dev : Dev7) (dir : Dir) : SameButDraws e (envAddr c dev dir e).2 := by
  simpa [envAddr, h, SameButDraws] using nextDraw_alike e
theorem envSend_mock (c : Config) (b : Byte) : SameButDraws e (envSend c b e).2 := by
  simpa [envSend, h, SameButDraws] using nextDraw_alike e
theorem envRecv_mock (c : Config) : SameButDraws e (envRecv c e).2 := by
  simpa [envRecv, h, SameButDraws] using nextDraw_alike e

end Mock

theorem hasChips_or_mock (e : Env) : e.HasChips ∨ e.kind = .mock := by
  unfold Env.HasChips
  cases e.kind <;> simp

end Sys2Proof.Machine
end

