-- ==== Sys2Proof/Laws/Chips.lean ====
section
/-! SUPPORT. The block's sequences against ENV (20_memory.md R59 to R66): each either reaches no chip, and then every answer
is a NACK and no array or pointer moves, or reaches exactly one chip, and then does there what the rules say. -/

namespace Sys2Proof.Machine

theorem or_ne_zero_left {a b : Nat} (h : a ≠ 0) : a ||| b ≠ 0 := fun h' => h (Nat.or_eq_zero_iff.1 h').1
theorem or_ne_zero_right {a b : Nat} (h : b ≠ 0) : a ||| b ≠ 0 := fun h' => h (Nat.or_eq_zero_iff.1 h').2

/-- What holds of every chip and is kept by a change of one chip holds after the change. -/
theorem forall_modify {P : Chip → Prop} {f : Chip → Chip} {l : List Chip} {k : Nat} (h : ∀ ch ∈ l, P ch)
    (hf : ∀ ch, P ch → P (f ch)) : ∀ ch ∈ l.modify k f, P ch := by
  intro ch hch
  obtain ⟨j, hj⟩ := List.mem_iff_getElem?.1 hch
  rw [List.getElem?_modify] at hj
  cases hl : l[j]? with
  | none => simp [hl] at hj
  | some ch' =>
    have := h ch' (List.mem_of_getElem? hl)
    by_cases hk : k = j
    · simp [hl, hk] at hj
      exact hj ▸ hf _ this
    · simp [hl, hk] at hj
      exact hj ▸ this

/-- A change of one chip that makes no chip busy leaves every ready chip ready. -/
theorem chipReady_modify {e e' : Env} {k : Nat} {f : Chip → Chip} (he : e'.chips = e.chips.modify k f)
    (hf : ∀ ch, ch.busy = false → (f ch).busy = false) (j : Nat) (h : e.ChipReady j) : e'.ChipReady j := by
  intro ch hch
  rw [he, List.getElem?_modify] at hch
  cases hl : e.chips[j]? with
  | none => simp [hl] at hch
  | some ch' =>
    have hb := h ch' hl
    by_cases hk : k = j
    · simp [hl, hk] at hch
      exact hch ▸ hf _ hb
    · simp [hl, hk] at hch
      exact hch ▸ hb

/-- A changed chip that is not busy is ready, whatever it was. -/
theorem chipReady_modified {e e' : Env} {k : Nat} {f : Chip → Chip} (he : e'.chips = e.chips.modify k f)
    (hf : ∀ ch, (f ch).busy = false) : e'.ChipReady k := by
  intro ch hch
  rw [he, List.getElem?_modify] at hch
  cases hl : e.chips[k]? with
  | none => simp [hl] at hch
  | some ch' =>
    simp [hl] at hch
    exact hch ▸ hf ch'

/-- What the address phase does to the chip it reaches: a fresh transaction, the pointer at the address
(20_memory.md R61, R62). -/
def positioned (ptr : Nat) (ch : Chip) : Chip := { ch with busy := false, stage := [], ptr := ptr }

/-- A busy chip is not what a fresh transaction has left. -/
theorem not_unreached_of_fresh {c : Config} {dev : Dev7} {e : Env} {k : Nat} {l : List Chip} {f : Chip → Chip}
    (hk : chipFor c e.chips dev = some k) (he : e.chips = l.modify k f) (hf : ∀ ch, (f ch).busy = false) :
    ¬ Unreached c dev e := by
  rintro (h | ⟨k', ch, h, hch, hb⟩)
  · simp [hk] at h
  · rw [hk] at h
    obtain rfl : k = k' := by simpa using h
    rw [he, List.getElem?_modify] at hch
    cases hl : l[k]? with
    | none => simp [hl] at hch
    | some ch' =>
      simp [hl] at hch
      rw [← hch, hf] at hb
      exact absurd hb (by decide)

/-- No chip takes bytes: none is selected, or the direction is read. -/
def NotWriting (e : Env) : Prop := e.sel = none ∨ e.dir = .read

/-- A stop outside a write transaction stores nothing (20_memory.md R63). -/
theorem envStop_notWriting {e : Env} (h : e.HasChips) (hn : NotWriting e) (c : Config) :
    envStop c e = { e with sel := none } := by
  rw [envStop_chips h]
  rcases hn with hn | hn <;> simp only [chipsStop, hn]
  cases e.sel <;> rfl

section Sequences
variable {s : State} (h : s.env.HasChips)
include h

/-- The address phase in ENV. -/
theorem addrPhase_chips (a : Nat) :
    EnvFrame s.env (addrPhase a s).env ∧
      ((Unreached s.cfg (deviceValue s.cfg s.dsb a) s.env ∧ (addrPhase a s).env.sel = none ∧
          (addrPhase a s).env.chips = s.env.chips ∧ (s.env.nackSet ≠ 0 → (addrPhase a s).fault ≠ 0)) ∨
       ∃ k, chipFor s.cfg s.env.chips (deviceValue s.cfg s.dsb a) = some k ∧ (addrPhase a s).env.sel = some k ∧
          (addrPhase a s).env.dir = .write ∧ (addrPhase a s).env.nsent = 2 ∧
          (addrPhase a s).env.chips = s.env.chips.modify k (positioned (wireAddr s.cfg s.dsb a)) ∧
          (s.env.kind = .chips → (addrPhase a s).fault = s.fault)) := by
  set dev := deviceValue s.cfg s.dsb a with hdev
  set ah := (encodeAddr s.cfg s.dsb a).ah with hah
  set al := (encodeAddr s.cfg s.dsb a).al with hal
  have hshape : addrPhase a s = sendCounted al (sendCounted ah (addrCounted dev .write s)) := rfl
  set s1 := addrCounted dev .write s with hs1
  set s2 := sendCounted ah s1 with hs2
  have e1 : s1.env = (envAddr s.cfg dev .write s.env).2 := rfl
  have f1 : s1.fault = s.fault ||| (envAddr s.cfg dev .write s.env).1 := rfl
  have e2 : s2.env = (envSend s.cfg ah s1.env).2 := rfl
  have f2 : s2.fault = s1.fault ||| (envSend s.cfg ah s1.env).1 := rfl
  have e3 : (addrPhase a s).env = (envSend s.cfg al s2.env).2 := rfl
  have f3 : (addrPhase a s).fault = s2.fault ||| (envSend s.cfg al s2.env).1 := rfl
  obtain ⟨g1, ds1, n1, hg1, ⟨hu, ha⟩ | ⟨k, hk, ha⟩⟩ := envAddr_chips h s.cfg dev .write
  · rw [ha] at e1 f1
    simp only at e1 f1
    obtain ⟨g2, ds2, n2, hb⟩ := envSend_unheard (e := s1.env) (by rw [e1]; exact h) (by rw [e1]) s.cfg ah
    rw [hb] at e2 f2
    simp only at e2 f2
    obtain ⟨g3, ds3, n3, hb'⟩ := envSend_unheard (e := s2.env) (by rw [e2, e1]; exact h) (by rw [e2, e1]) s.cfg al
    rw [hb'] at e3 f3
    simp only at e3 f3
    rw [e3, e2, e1]
    refine ⟨⟨rfl, rfl, rfl, rfl⟩, .inl ⟨hu, rfl, rfl, fun hn => ?_⟩⟩
    rw [f3, f2, f1]
    exact or_ne_zero_left (or_ne_zero_left (or_ne_zero_right (or_ne_zero_left hn)))
  · rw [ha] at e1 f1
    simp only at e1 f1
    obtain ⟨g2, ds2, n2, hg2, hb⟩ := envSend_high (e := s1.env) (by rw [e1]; exact h) (k := k) (by rw [e1]) (by rw [e1])
      (by rw [e1]) s.cfg ah
    rw [hb] at e2 f2
    simp only at e2 f2
    obtain ⟨g3, ds3, n3, hg3, hb'⟩ := envSend_low (e := s2.env) (by rw [e2, e1]; exact h) (k := k) (by rw [e2, e1])
      (by rw [e2, e1]) (by rw [e2]) s.cfg al
    rw [hb'] at e3 f3
    simp only at e3 f3
    have hchips : (addrPhase a s).env.chips = s.env.chips.modify k (positioned (wireAddr s.cfg s.dsb a)) := by
      rw [e3, e2, e1]
      simp only
      rw [modify_modify_same]
      rfl
    have hframe : EnvFrame s.env (addrPhase a s).env := by
      refine ⟨by rw [e3, e2, e1], by rw [e3, e2, e1], by rw [e3, e2, e1], ?_⟩
      rw [hchips]
      exact map_modify_of_eq _ _ (fun _ => by rfl) _ _
    refine ⟨hframe, .inr ⟨k, hk, by rw [e3, e2, e1], by rw [e3, e2, e1], by rw [e3], hchips, fun hkind => ?_⟩⟩
    rw [f3, f2, f1, hg1 hkind, hg2 (by rw [e1]; exact hkind), hg3 (by rw [e2, e1]; exact hkind)]
    simp

/-- Data sends that no chip hears. -/
theorem sendAll_unheard (bytes : List Byte) (hs : s.env.sel = none) :
    EnvFrame s.env (sendAll bytes s).env ∧ (sendAll bytes s).env.sel = none ∧ (sendAll bytes s).env.chips = s.env.chips := by
  induction bytes generalizing s with
  | nil => exact ⟨.refl _, hs, rfl⟩
  | cons b bs ih =>
    have e1 : (nextIndex (sendCounted b s)).env = (envSend s.cfg b s.env).2 := rfl
    obtain ⟨g, ds, n, hb⟩ := envSend_unheard h hs s.cfg b
    rw [hb] at e1
    simp only at e1
    obtain ⟨h1, h2, h3⟩ := ih (s := nextIndex (sendCounted b s)) (by rw [e1]; exact h) (by rw [e1]; exact hs)
    refine ⟨.trans ?_ h1, h2, by rw [sendAll, h3, e1]⟩
    rw [e1]
    exact ⟨rfl, rfl, rfl, rfl⟩

/-- Data sends to a chip that has its address: the bytes are staged in order (20_memory.md R62). -/
theorem sendAll_staged (bytes : List Byte) {k : Nat} (hs : s.env.sel = some k) (hd : s.env.dir = .write)
    (hn : 2 ≤ s.env.nsent) :
    EnvFrame s.env (sendAll bytes s).env ∧ (sendAll bytes s).env.sel = some k ∧ (sendAll bytes s).env.dir = .write ∧
      (sendAll bytes s).env.chips = s.env.chips.modify k (fun ch => { ch with stage := ch.stage ++ bytes }) ∧
      (s.env.kind = .chips → (sendAll bytes s).fault = s.fault) := by
  induction bytes generalizing s with
  | nil =>
    refine ⟨.refl _, hs, hd, ?_, fun _ => rfl⟩
    apply List.ext_getElem?
    intro j
    simp only [sendAll, List.getElem?_modify]
    by_cases hj : k = j <;> cases s.env.chips[j]? <;> simp [hj]
  | cons b bs ih =>
    have e1 : (nextIndex (sendCounted b s)).env = (envSend s.cfg b s.env).2 := rfl
    have f1 : (nextIndex (sendCounted b s)).fault = s.fault ||| (envSend s.cfg b s.env).1 := rfl
    obtain ⟨g, ds, n, hg, hb⟩ := envSend_data h hs hd hn s.cfg b
    rw [hb] at e1 f1
    simp only at e1 f1
    obtain ⟨h1, h2, h3, h4, h5⟩ := ih (s := nextIndex (sendCounted b s)) (by rw [e1]; exact h) (by rw [e1]; exact hs)
      (by rw [e1]; exact hd) (by rw [e1]; simp only; omega)
    refine ⟨.trans ?_ h1, h2, h3, ?_, fun hkind => ?_⟩
    · rw [e1]
      exact ⟨rfl, rfl, rfl, map_modify_of_eq _ _ (fun _ => by rfl) _ _⟩
    · rw [sendAll, h4, e1]
      simp only
      rw [modify_modify_same]
      simp
    · rw [sendAll, h5 (by rw [e1]; exact hkind), f1, hg hkind]
      simp

/-- What a write transaction leaves of the chip it reached (20_memory.md R61 to R63). -/
def written (c : Config) (l : Level) (ptr : Nat) (bytes : List Byte) (ch : Chip) : Chip :=
  commitStage c l { ch with busy := false, stage := bytes, ptr := ptr }

omit h in
theorem written_pins (c : Config) (l : Level) (ptr : Nat) (bytes : List Byte) (ch : Chip) :
    (written c l ptr bytes ch).pins = ch.pins := by
  unfold written commitStage
  split
  · rfl
  · split <;> rfl

/-- The write transaction in ENV (30_encoding.md R78, R79; 20_memory.md R60 to R63). -/
theorem writeTransaction_chips (a : Nat) (bytes : List Byte) :
    EnvFrame s.env (writeTransaction a bytes s).env ∧ (writeTransaction a bytes s).env.sel = none ∧
      ((Unreached s.cfg (deviceValue s.cfg s.dsb a) s.env ∧ (writeTransaction a bytes s).env.chips = s.env.chips ∧
          (s.env.nackSet ≠ 0 → (writeTransaction a bytes s).fault ≠ 0)) ∨
       ∃ k, chipFor s.cfg s.env.chips (deviceValue s.cfg s.dsb a) = some k ∧
          (writeTransaction a bytes s).env.chips =
            s.env.chips.modify k (written s.cfg s.env.wpLevel (wireAddr s.cfg s.dsb a) bytes) ∧
          (s.env.kind = .chips → (writeTransaction a bytes s).fault = s.fault)) := by
  have e0 : (busStart s).env = { s.env with nsent := 0 } := envStart_chips h
  have h0 : (busStart s).env.HasChips := by rw [e0]; exact h
  obtain ⟨hf1, hcase⟩ := addrPhase_chips h0 a
  set u := firstIndex (addrPhase a (busStart s)) with hu
  have eu : u.env = (addrPhase a (busStart s)).env := rfl
  have fu : u.fault = (addrPhase a (busStart s)).fault := rfl
  have cu : u.cfg = s.cfg := ((busStart_ran s).trans (addrPhase_ran (busStart s) a).choose_spec.choose_spec.choose_spec).cfg
  have hcu : u.env.HasChips := by rw [eu]; exact hf1.hasChips h0
  have ew : (writeTransaction a bytes s).env = envStop (sendAll bytes u).cfg (sendAll bytes u).env := rfl
  have fw : (writeTransaction a bytes s).fault = (sendAll bytes u).fault := rfl
  have hsr := (sendAll_ran u bytes).choose_spec.2
  have e0' : (busStart s).env.chips = s.env.chips := by rw [e0]
  have w0' : (busStart s).env.wpLevel = s.env.wpLevel := by rw [e0]
  have n0' : (busStart s).env.nackSet = s.env.nackSet := by rw [e0]
  have hf0 : EnvFrame s.env (busStart s).env := by rw [e0]; exact ⟨rfl, rfl, rfl, rfl⟩
  have hU : Unreached s.cfg (deviceValue s.cfg s.dsb a) (busStart s).env ↔
      Unreached s.cfg (deviceValue s.cfg s.dsb a) s.env := by
    unfold Unreached
    rw [e0']
  rw [hsr.cfg, cu] at ew
  rcases hcase with ⟨hun, hsel, hch, hfault⟩ | ⟨k, hk, hsel, hdir, hns, hch, hfault⟩
  · obtain ⟨h1, h2, h3⟩ := sendAll_unheard hcu bytes (by rw [eu]; exact hsel)
    have hst : envStop s.cfg (sendAll bytes u).env = { (sendAll bytes u).env with sel := none } := by
      rw [envStop_chips (h1.hasChips hcu)]
      simp [chipsStop, h2]
    rw [hst] at ew
    have hfr := (hf0.trans hf1).trans h1
    refine ⟨?_, by rw [ew], .inl ⟨hU.1 hun, ?_, fun hn => ?_⟩⟩
    · rw [ew]
      exact ⟨hfr.kind, hfr.nackSet, hfr.wpLevel, hfr.pins⟩
    · rw [ew]
      simp only
      rw [h3, eu, hch, e0']
    · rw [fw, hsr.fault, fu]
      exact or_ne_zero_left (hfault (by rw [n0']; exact hn))
  · obtain ⟨h1, h2, h3, h4, h5⟩ := sendAll_staged hcu bytes (by rw [eu]; exact hsel) (by rw [eu]; exact hdir)
      (by rw [eu, hns])
    have hwl : (sendAll bytes u).env.wpLevel = s.env.wpLevel := ((hf0.trans hf1).trans h1).wpLevel
    have hst : envStop s.cfg (sendAll bytes u).env = { (sendAll bytes u).env with
        chips := (sendAll bytes u).env.chips.modify k (commitStage s.cfg (sendAll bytes u).env.wpLevel), sel := none } := by
      rw [envStop_chips (h1.hasChips hcu)]
      simp [chipsStop, h2, h3]
    rw [hst] at ew
    have hfr := (hf0.trans hf1).trans h1
    have hchips : (writeTransaction a bytes s).env.chips =
        s.env.chips.modify k (written s.cfg s.env.wpLevel (wireAddr s.cfg s.dsb a) bytes) := by
      rw [ew]
      simp only
      rw [h4, eu, hch, e0', modify_modify_same, modify_modify_same, hwl]
      congr 1
    refine ⟨⟨by rw [ew]; exact hfr.kind, by rw [ew]; exact hfr.nackSet, by rw [ew]; exact hfr.wpLevel, ?_⟩, by rw [ew],
      .inr ⟨k, by rw [← e0']; exact hk, hchips, fun hkind => ?_⟩⟩
    · rw [hchips]
      exact map_modify_of_eq _ _ (written_pins _ _ _ _) _ _
    · rw [fw, h5 (by rw [eu, hf1.kind, e0]; exact hkind), fu, hfault (by rw [e0]; exact hkind)]
      rfl

/-- The positioning phase and the read phase's device value in ENV (44_read.md R151, R154). -/
theorem positionForRead_chips (a : Nat) :
    EnvFrame s.env (positionForRead a s).env ∧ NotWriting (positionForRead a s).env ∧
      ((Unreached s.cfg (deviceValue s.cfg s.dsb a) s.env ∧ (s.env.nackSet ≠ 0 → (positionForRead a s).fault ≠ 0) ∧
          ((positionForRead a s).env.chips = s.env.chips ∨
            ∃ k, (positionForRead a s).env.chips =
              s.env.chips.modify k fun ch => { ch with busy := false, stage := [] })) ∨
       ∃ k, chipFor s.cfg s.env.chips (deviceValue s.cfg s.dsb a) = some k ∧
          (positionForRead a s).env.sel = some k ∧ (positionForRead a s).env.dir = .read ∧
          (positionForRead a s).env.chips = s.env.chips.modify k (positioned (wireAddr s.cfg s.dsb a)) ∧
          (s.env.kind = .chips → (positionForRead a s).fault = s.fault)) := by
  obtain ⟨hf1, hsel, hcase⟩ := writeTransaction_chips h a []
  set w := writeTransaction a [] s with hw
  obtain ⟨f0, f1, f2, hr⟩ := addrPhase_ran (busStart s) a
  have hr' := (((busStart_ran s).trans hr).trans (busStop_ran _)).trans (busStart_ran _)
  have ew : (busStop (addrPhase a (busStart s))).env = w.env := rfl
  have fw : (busStop (addrPhase a (busStart s))).fault = w.fault := rfl
  have hshape : positionForRead a s = addrCounted (encodeAddr (busStart (busStop (addrPhase a (busStart s)))).cfg
    (busStart (busStop (addrPhase a (busStart s)))).dsb a).dev7 .read (busStart (busStop (addrPhase a (busStart s)))) := rfl
  have e0 : (busStart (busStop (addrPhase a (busStart s)))).env = { w.env with nsent := 0 } := by
    have := envStart_chips (hf1.hasChips h)
    rw [← ew] at this ⊢
    exact this
  have fv : (busStart (busStop (addrPhase a (busStart s)))).fault = w.fault := fw
  have cv := hr'.cfg
  have dv := hr'.dsb
  generalize busStart (busStop (addrPhase a (busStart s))) = v at hshape e0 fv cv dv
  have hcv : v.env.HasChips := by rw [e0]; exact hf1.hasChips h
  rw [cv, dv, encodeAddr_dev7] at hshape
  have ep : (positionForRead a s).env = (envAddr s.cfg (deviceValue s.cfg s.dsb a) .read v.env).2 := by
    rw [hshape, ← cv]
    rfl
  have fp : (positionForRead a s).fault = w.fault ||| (envAddr s.cfg (deviceValue s.cfg s.dsb a) .read v.env).1 := by
    rw [hshape, ← cv, ← fv]
    rfl
  have hf2 : EnvFrame s.env v.env := hf1.trans (by rw [e0]; exact ⟨rfl, rfl, rfl, rfl⟩)
  have hempty : ∀ ch, written s.cfg s.env.wpLevel (wireAddr s.cfg s.dsb a) [] ch = positioned (wireAddr s.cfg s.dsb a) ch :=
    fun ch => commitStage_empty _ _ _ rfl
  have hchv : v.env.chips = w.env.chips := by rw [e0]
  obtain ⟨g, ds, n, hg, ⟨hu, ha⟩ | ⟨k', hk', ha⟩⟩ := envAddr_chips hcv s.cfg (deviceValue s.cfg s.dsb a) .read
  · rw [ha] at ep fp
    simp only at ep fp
    have hfp : EnvFrame s.env (positionForRead a s).env := by
      rw [ep]
      exact ⟨hf2.kind, hf2.nackSet, hf2.wpLevel, hf2.pins⟩
    rcases hcase with ⟨hun, hch, hfault⟩ | ⟨k, hk, hch, hfault⟩
    · refine ⟨hfp, .inl (by rw [ep]), .inl ⟨hun, fun hn => ?_, .inl (by rw [ep]; simp only; rw [hchv, hch])⟩⟩
      rw [fp]
      exact or_ne_zero_left (hfault hn)
    · refine absurd hu (not_unreached_of_fresh (k := k) (l := s.env.chips)
        (f := written s.cfg s.env.wpLevel (wireAddr s.cfg s.dsb a) []) ?_ (by rw [hchv, hch]) ?_)
      · rw [hf2.chipFor, hk]
      · intro ch
        rw [hempty]
        rfl
  · rw [ha] at ep fp
    simp only at ep fp
    have hfp : EnvFrame s.env (positionForRead a s).env := by
      rw [ep]
      refine ⟨hf2.kind, hf2.nackSet, hf2.wpLevel, ?_⟩
      rw [← hf2.pins]
      exact map_modify_of_eq _ _ (fun _ => by rfl) _ _
    rcases hcase with ⟨hun, hch, hfault⟩ | ⟨k, hk, hch, hfault⟩
    · refine ⟨hfp, .inr (by rw [ep]), .inl ⟨hun, fun hn => ?_, .inr ⟨k', by rw [ep]; simp only; rw [hchv, hch]⟩⟩⟩
      rw [fp]
      exact or_ne_zero_left (hfault hn)
    · rw [hf2.chipFor, hk] at hk'
      obtain rfl : k = k' := by simpa using hk'
      refine ⟨hfp, .inr (by rw [ep]), .inr ⟨k, hk, by rw [ep], by rw [ep], ?_, fun hkind => ?_⟩⟩
      · rw [ep]
        simp only
        rw [hchv, hch, modify_modify_same]
        congr 1
      · rw [fp, hfault hkind, hg (by rw [hf2.kind, hkind])]
        simp

/-- The receive loop in ENV moves pointers and nothing else of the chips. -/
theorem recvAll_frame (n : Nat) :
    EnvFrame s.env (recvAll n s).2.env ∧ (NotWriting s.env → NotWriting (recvAll n s).2.env) ∧
      (recvAll n s).2.env.chips.map Chip.mem = s.env.chips.map Chip.mem ∧
      (0 < s.cfg.memorySize → (∀ ch ∈ s.env.chips, ch.ptr < s.cfg.memorySize) →
        ∀ ch ∈ (recvAll n s).2.env.chips, ch.ptr < s.cfg.memorySize) ∧
      (∀ j, s.env.ChipReady j → (recvAll n s).2.env.ChipReady j) := by
  induction n generalizing s with
  | zero => exact ⟨.refl _, id, rfl, fun _ hp => hp, fun _ hj => hj⟩
  | succ n ih =>
    set u := nextIndex (busRecv (recvPolicy n) s).2 with hu
    have e1 : u.env = (envRecv s.cfg s.env).2 := rfl
    have cu : u.cfg = s.cfg := rfl
    have he : (recvAll (n + 1) s).2 = (recvAll n u).2 := rfl
    have h1 : EnvFrame s.env u.env ∧ (NotWriting s.env → NotWriting u.env) ∧ u.env.chips.map Chip.mem = s.env.chips.map Chip.mem ∧
        (0 < s.cfg.memorySize → (∀ ch ∈ s.env.chips, ch.ptr < s.cfg.memorySize) →
          ∀ ch ∈ u.env.chips, ch.ptr < s.cfg.memorySize) ∧
        (∀ j, s.env.ChipReady j → u.env.ChipReady j) := by
      obtain ⟨b, ds, m, ⟨-, hb⟩ | ⟨k, ch, -, -, -, hb⟩⟩ := envRecv_chips h s.cfg
      · rw [e1, hb]
        exact ⟨⟨rfl, rfl, rfl, rfl⟩, id, rfl, fun _ hp => hp, fun _ hj => hj⟩
      · rw [e1, hb]
        refine ⟨⟨rfl, rfl, rfl, map_modify_of_eq _ _ (fun _ => by rfl) _ _⟩, id, map_modify_of_eq _ _ (fun _ => by rfl) _ _, ?_,
          fun j hj => chipReady_modify (e := s.env) (k := k)
            (f := fun ch => { ch with ptr := (ch.ptr + 1) % s.cfg.memorySize }) rfl (fun _ hb => hb) j hj⟩
        intro hpos hp
        exact forall_modify (P := fun ch => ch.ptr < s.cfg.memorySize) hp fun ch _ => Nat.mod_lt _ hpos
    obtain ⟨g1, g2, g3, g4, g5⟩ := ih (s := u) (h1.1.hasChips h)
    rw [he]
    exact ⟨h1.1.trans g1, fun hn => g2 (h1.2.1 hn), g3.trans h1.2.2.1, fun hpos hp => g4 hpos (h1.2.2.2.1 hpos hp),
      fun j hj => g5 j (h1.2.2.2.2 j hj)⟩

/-- What the receive loop gets from the chip that drives the bus: its bytes from the pointer on (20_memory.md R64). -/
theorem recvAll_bytes (n : Nat) {k : Nat} {ch : Chip} (hs : s.env.sel = some k) (hd : s.env.dir = .read)
    (hk : s.env.chips[k]? = some ch) (hin : ch.ptr + n ≤ s.cfg.memorySize) :
    ∀ j < n, (recvAll n s).1[j]? = some (memRead ch.mem (ch.ptr + j)) := by
  induction n generalizing s ch with
  | zero => simp
  | succ n ih =>
    set u := nextIndex (busRecv (recvPolicy n) s).2 with hu
    have e1 : u.env = (envRecv s.cfg s.env).2 := rfl
    have hb1 : (recvAll (n + 1) s).1 = (envRecv s.cfg s.env).1 :: (recvAll n u).1 := rfl
    obtain ⟨b, ds, m, ⟨hno, -⟩ | ⟨k', ch', hk', -, hch', hb⟩⟩ := envRecv_chips h s.cfg
    · exact absurd hk (hno k ch hs hd)
    rw [hs] at hk'
    obtain rfl : k = k' := by simpa using hk'
    rw [hk] at hch'
    obtain rfl : ch = ch' := by simpa using hch'
    rw [hb] at e1 hb1
    simp only at e1 hb1
    intro j hj
    rw [hb1]
    cases j with
    | zero => simp
    | succ j =>
      have hlt : j < n := by omega
      have hch1 : u.env.chips[k]? = some { ch with ptr := ch.ptr + 1 } := by
        have hm : (ch.ptr + 1) % s.cfg.memorySize = ch.ptr + 1 := Nat.mod_eq_of_lt (by omega)
        rw [e1]
        simp [hk, hm]
      have := ih (s := u) (ch := { ch with ptr := ch.ptr + 1 }) (by rw [e1]; exact h) (by rw [e1]; exact hs)
        (by rw [e1]; exact hd) hch1 (by show ch.ptr + 1 + n ≤ s.cfg.memorySize; omega) j hlt
      simp only [List.getElem?_cons_succ]
      rw [this]
      simp only [Nat.add_assoc, Nat.add_comm 1 j]

end Sequences

end Sys2Proof.Machine
end

