-- ==== Sys2Proof/Laws/Decode.lean ====
section
/-! SUPPORT. The command record's layout: a packed record unpacks to its fields and has no further wire. -/

namespace Sys2Proof

/-- Every field fits its port. -/
def Fields.Fit (c : Config) (f : Fields) : Prop :=
  f.op < 2 ^ 3 ∧ f.a < 2 ^ c.addrW ∧ f.d < 2 ^ 8 ∧ f.p < 2 ^ c.pageW ∧ f.n < 2 ^ c.lenW ∧ f.id < 2 ^ c.idW ∧ f.mode < 2

theorem low_of_pack {b x q : Nat} (h : x < b) : (x + b * q) % b = x := by
  rw [Nat.add_mul_mod_self_left, Nat.mod_eq_of_lt h]

theorem high_of_pack {b x q : Nat} (h : x < b) : (x + b * q) / b = q := by
  rw [Nat.add_mul_div_left _ _ (by omega), Nat.div_eq_of_lt h, Nat.zero_add]

theorem pack_lt {b x q r : Nat} (h : x < b) (hq : q < r) : x + b * q < b * r := by
  calc x + b * q < b + b * q := by omega
    _ = b * (q + 1) := by ring
    _ ≤ b * r := Nat.mul_le_mul_left b hq

/-- Unpacking undoes packing: no port's wires overlap another's. -/
theorem unpackFields_packFields {c : Config} {f : Fields} (h : f.Fit c) : unpackFields c (packFields c f) = f := by
  obtain ⟨h0, h1, h2, h3, h4, h5, h6⟩ := h
  simp only [unpackFields, packFields, low_of_pack h0, high_of_pack h0, low_of_pack h1, high_of_pack h1,
    low_of_pack h2, high_of_pack h2, low_of_pack h3, high_of_pack h3, low_of_pack h4, high_of_pack h4,
    low_of_pack h5, high_of_pack h5, Nat.mod_eq_of_lt h6]

/-- A packed record sets no wire beyond the record. -/
theorem packFields_lt {c : Config} {f : Fields} (h : f.Fit c) : packFields c f < 2 ^ recordBits c := by
  obtain ⟨h0, h1, h2, h3, h4, h5, h6⟩ := h
  have key := pack_lt h0 (pack_lt h1 (pack_lt h2 (pack_lt h3 (pack_lt h4 (pack_lt h5 h6)))))
  have : 2 ^ recordBits c = 2 ^ 3 * (2 ^ c.addrW * (2 ^ 8 * (2 ^ c.pageW * (2 ^ c.lenW * (2 ^ c.idW * 2))))) := by
    simp only [recordBits, pow_add]; ring
  rw [this]
  exact key

/-- The fields of a command whose operands fit. -/
theorem fieldsOf_fit {c : Config} {i : Instr} (h : i.operandsFit c = true) : (fieldsOf i).Fit c := by
  cases i <;> simp_all [Fields.Fit, fieldsOf, Instr.operandsFit]
  case wp mode => cases mode <;> simp [wpModeBit]
  case writeByte a d => exact d.isLt

end Sys2Proof
end

