-- ==== Sys2Proof/Laws/Quiet.lean ====
section
/-! SUPPORT. What stores nothing, whatever the environment: reads, polling attempts and the wait leave every array as it
was, and every pointer inside its array. -/

namespace Sys2Proof.Machine

/-- Every chip's pointer lies inside its array (20_memory.md R59). -/
def PointersInside (c : Config) (e : Env) : Prop := ∀ ch ∈ e.chips, ch.ptr < c.memorySize

/-- From `e` to `e'` no array changed, nothing of `EnvFrame`, and pointers stayed inside provided `P`. -/
structure Quiet (c : Config) (P : Prop) (e e' : Env) : Prop where
  frame : EnvFrame e e'
  arrays : e'.chips.map Chip.mem = e.chips.map Chip.mem
  inside : P → 0 < c.memorySize → PointersInside c e → PointersInside c e'
  ready : ∀ k, e.ChipReady k → e'.ChipReady k

section Quiet
variable {c : Config} {P : Prop} {e e' e'' : Env}

theorem Quiet.refl (c : Config) (P : Prop) (e : Env) : Quiet c P e e := ⟨.refl _, rfl, fun _ _ h => h, fun _ h => h⟩

theorem Quiet.trans (h : Quiet c P e e') (h' : Quiet c P e' e'') : Quiet c P e e'' :=
  ⟨h.frame.trans h'.frame, h'.arrays.trans h.arrays, fun hp h0 hi => h'.inside hp h0 (h.inside hp h0 hi),
    fun k hk => h'.ready k (h.ready k hk)⟩

theorem Quiet.mono {Q : Prop} (h : Quiet c P e e') (hq : Q → P) : Quiet c Q e e' :=
  ⟨h.frame, h.arrays, fun hp => h.inside (hq hp), h.ready⟩

theorem Quiet.byteAt (h : Quiet c P e e') (k x : Nat) : byteAt e' k x = byteAt e k x := byteAt_of_arrays h.arrays k x

theorem Quiet.of_sameChips (h : EnvFrame e e') (hc : e'.chips = e.chips) : Quiet c P e e' :=
  ⟨h, by rw [hc], fun _ _ hi => by unfold PointersInside; rwa [hc], fun k hk => by unfold Env.ChipReady; rwa [hc]⟩

theorem SameButDraws.quiet (h : SameButDraws e e') : Quiet c P e e' := .of_sameChips h.frame h.chips

/-- One chip of the environment changed, keeping its straps, its array and its pointer. -/
theorem Quiet.of_modify {k : Nat} {f : Chip → Chip} (hf : EnvFrame e e') (hc : e'.chips = e.chips.modify k f)
    (hm : ∀ ch, (f ch).mem = ch.mem) (hp : P → ∀ ch, ch.ptr < c.memorySize → (f ch).ptr < c.memorySize)
    (hb : ∀ ch, ch.busy = false → (f ch).busy = false) : Quiet c P e e' := by
  refine ⟨hf, by rw [hc]; exact map_modify_of_eq _ _ hm _ _, fun p _ hi => ?_, chipReady_modify hc hb⟩
  unfold PointersInside
  rw [hc]
  exact forall_modify hi (hp p)

end Quiet

variable (s : State)

/-- A stop outside a write transaction is quiet. -/
theorem busStop_quiet {P : Prop} (h : s.env.kind = .mock ∨ (s.env.HasChips ∧ NotWriting s.env)) :
    Quiet s.cfg P s.env (busStop s).env := by
  show Quiet s.cfg P s.env (envStop s.cfg s.env)
  rcases h with h | ⟨h, hn⟩
  · rw [envStop_mock h]
    exact .refl _ _ _
  · rw [envStop_notWriting h hn]
    exact .of_sameChips ⟨rfl, rfl, rfl, rfl⟩ rfl

/-! ### The mock through the sequences -/

section Mock
variable {s}
variable (h : s.env.kind = .mock)
include h

theorem busStart_mock : SameButDraws s.env (busStart s).env := by
  show SameButDraws s.env (envStart s.env)
  rw [envStart_mock h]
  exact .refl _

theorem busStop_mock : SameButDraws s.env (busStop s).env := by
  show SameButDraws s.env (envStop s.cfg s.env)
  rw [envStop_mock h]
  exact .refl _

theorem addrPhase_mock (a : Nat) : SameButDraws s.env (addrPhase a s).env := by
  have h1 : SameButDraws s.env (addrCounted (encodeAddr s.cfg s.dsb a).dev7 .write s).env := envAddr_mock h _ _ _
  have h2 := h1.trans (envSend_mock (h1.isMock h) s.cfg (encodeAddr s.cfg s.dsb a).ah)
  exact h2.trans (envSend_mock (h2.isMock h) s.cfg (encodeAddr s.cfg s.dsb a).al)

theorem sendAll_mock (bytes : List Byte) : SameButDraws s.env (sendAll bytes s).env := by
  induction bytes generalizing s with
  | nil => exact .refl _
  | cons b bs ih =>
    have h1 : SameButDraws s.env (nextIndex (sendCounted b s)).env := envSend_mock h _ _
    exact h1.trans (ih (h1.isMock h))

theorem recvAll_mock (n : Nat) : SameButDraws s.env (recvAll n s).2.env := by
  induction n generalizing s with
  | zero => exact .refl _
  | succ n ih =>
    have h1 : SameButDraws s.env (nextIndex (busRecv (recvPolicy n) s).2).env := envRecv_mock h _
    exact h1.trans (ih (h1.isMock h))

theorem writeTransaction_mock (a : Nat) (bytes : List Byte) : SameButDraws s.env (writeTransaction a bytes s).env := by
  have h1 := busStart_mock h
  have h2 := h1.trans (addrPhase_mock (h1.isMock h) a)
  have h3 := h2.trans (sendAll_mock (s := firstIndex (addrPhase a (busStart s))) (h2.isMock h) bytes)
  exact h3.trans (busStop_mock (h3.isMock h))

theorem positionForRead_mock (a : Nat) : SameButDraws s.env (positionForRead a s).env := by
  have h1 := writeTransaction_mock h a []
  have h2 : SameButDraws s.env (busStart (busStop (addrPhase a (busStart s)))).env :=
    h1.trans (busStart_mock (s := busStop (addrPhase a (busStart s))) (h1.isMock h))
  exact h2.trans (envAddr_mock (h2.isMock h) _ _ _)

end Mock

/-! ### The reads -/

/-- The pointer of the address phase lies inside the array. -/
abbrev WireInside (c : Config) (dsb : Dev7) (a : Nat) : Prop := wireAddr c dsb a < c.memorySize

theorem positionForRead_quiet (a : Nat) :
    Quiet s.cfg (WireInside s.cfg s.dsb a) s.env (positionForRead a s).env ∧
      ((positionForRead a s).env.kind = .mock ∨
        ((positionForRead a s).env.HasChips ∧ NotWriting (positionForRead a s).env)) := by
  rcases hasChips_or_mock s.env with h | h
  · obtain ⟨hf, hnw, hcase⟩ := positionForRead_chips h a
    refine ⟨?_, .inr ⟨hf.hasChips h, hnw⟩⟩
    rcases hcase with ⟨-, -, hc | ⟨k, hc⟩⟩ | ⟨k, -, -, -, hc, -⟩
    · exact .of_sameChips hf hc
    · exact .of_modify hf hc (fun _ => by rfl) (fun _ _ hp => hp) fun _ _ => rfl
    · exact .of_modify hf hc (fun _ => by rfl) (fun hw _ _ => hw) fun _ _ => rfl
  · have hm := positionForRead_mock h a
    exact ⟨hm.quiet, .inl (hm.isMock h)⟩

/-- Receives and the stop after them. -/
theorem recvStop_quiet {P : Prop} (n : Nat) (hs : s.env.kind = .mock ∨ (s.env.HasChips ∧ NotWriting s.env)) :
    Quiet s.cfg P s.env (busStop (recvAll n s).2).env := by
  have hcfg : (recvAll n s).2.cfg = s.cfg := (recvAll_ran s n).2.cfg
  rcases hs with h | ⟨h, hn⟩
  · have h1 := recvAll_mock h n
    have h2 := busStop_quiet (P := P) (recvAll n s).2 (.inl (h1.isMock h))
    rw [hcfg] at h2
    exact h1.quiet.trans h2
  · obtain ⟨hf, hnw, hmem, hin, hrd⟩ := recvAll_frame h n
    have h2 := busStop_quiet (P := P) (recvAll n s).2 (.inr ⟨hf.hasChips h, hnw hn⟩)
    rw [hcfg] at h2
    exact Quiet.trans ⟨hf, hmem, fun _ hpos => hin hpos, hrd⟩ h2

/-- READ_BYTE's sequence stores nothing. -/
theorem randomRead_quiet (a : Nat) :
    Quiet s.cfg (WireInside s.cfg s.dsb a) s.env (randomRead a s).after.env := by
  by_cases ha : addressOutOfRange s.cfg a = true
  · simp only [randomRead, ha, if_true]
    exact .refl _ _ _
  · simp only [randomRead, ha]
    obtain ⟨h1, h2⟩ := positionForRead_quiet (clearFault s) a
    obtain ⟨f0, f1, f2, f3, hr⟩ := positionForRead_ran (clearFault s) a
    have h3 := recvStop_quiet (P := WireInside s.cfg s.dsb a) (positionForRead a (clearFault s)) 1 h2
    rw [hr.cfg] at h3
    exact h1.trans h3

/-- READ_SEQUENTIAL's sequence stores nothing. -/
theorem sequentialRead_quiet (a n : Nat) :
    Quiet s.cfg (WireInside s.cfg s.dsb a) s.env (sequentialRead a n s).after.env := by
  by_cases ha : addressOutOfRange s.cfg a = true
  · simp only [sequentialRead, ha, if_true]
    exact .refl _ _ _
  · by_cases hn : n = 0
    · simp only [sequentialRead, ha, hn]
      exact .refl _ _ _
    · simp only [sequentialRead, ha, hn]
      obtain ⟨h1, h2⟩ := positionForRead_quiet (clearFault s) a
      obtain ⟨f0, f1, f2, f3, hr⟩ := positionForRead_ran (clearFault s) a
      have h3 := recvStop_quiet (P := WireInside s.cfg s.dsb a) (firstIndex (positionForRead a (clearFault s))) n h2
      rw [show (firstIndex (positionForRead a (clearFault s))).cfg = s.cfg from hr.cfg] at h3
      exact h1.trans h3

/-- A start and a device value (the opening of READ_CURRENT_BYTE and of a polling attempt) store nothing. -/
theorem probe_quiet {P : Prop} (dev : Dev7) (dir : Dir) :
    Quiet s.cfg P s.env (busAddr dev dir (busStart s)).2.env := by
  show Quiet s.cfg P s.env (envAddr s.cfg dev dir (envStart s.env)).2
  rcases hasChips_or_mock s.env with h | h
  · rw [envStart_chips h]
    obtain ⟨f, ds, n, -, ⟨-, he⟩ | ⟨k, -, he⟩⟩ := envAddr_chips (e := { s.env with nsent := 0 }) h s.cfg dev dir
    · rw [he]
      exact .of_sameChips ⟨rfl, rfl, rfl, rfl⟩ rfl
    · rw [he]
      refine .of_modify (k := k) ⟨rfl, rfl, rfl, map_modify_of_eq _ _ (fun _ => by rfl) _ _⟩ rfl ?_ ?_ ?_
      · intro ch; rfl
      · exact fun _ _ hp => hp
      · exact fun _ _ => rfl
  · rw [envStart_mock h]
    exact (envAddr_mock h _ _ _).quiet

/-- READ_CURRENT_BYTE's sequence stores nothing. -/
theorem currentRead_quiet {P : Prop} : Quiet s.cfg P s.env (currentRead s).after.env := by
  have h1 := probe_quiet (P := P) (clearFault s) s.dsb .read
  have h2 : (addrCounted s.dsb .read (busStart (clearFault s))).env.kind = .mock ∨
      ((addrCounted s.dsb .read (busStart (clearFault s))).env.HasChips ∧
        NotWriting (addrCounted s.dsb .read (busStart (clearFault s))).env) := by
    rcases hasChips_or_mock s.env with h | h
    · refine .inr ⟨h1.frame.hasChips h, ?_⟩
      show NotWriting (envAddr s.cfg s.dsb .read (envStart s.env)).2
      rw [envStart_chips h]
      obtain ⟨f, ds, n, -, ⟨-, he⟩ | ⟨k, -, he⟩⟩ := envAddr_chips (e := { s.env with nsent := 0 }) h s.cfg s.dsb .read
      · rw [he]
        exact .inl rfl
      · rw [he]
        exact .inr rfl
    · exact .inl (h1.frame.kind.trans h)
  exact Quiet.trans h1 (recvStop_quiet (P := P) (addrCounted s.dsb .read (busStart (clearFault s))) 1 h2)

/-! ### The end of a write and polling -/

theorem compareReadBack_env (expected : List Byte) (r : ReadResult) : (compareReadBack expected r).env = r.after.env := by
  simp only [compareReadBack]
  split
  · rfl
  · split <;> rfl

/-- The verify step stores nothing. -/
theorem verifyLatched_quiet : Quiet s.cfg (WireInside s.cfg s.dsb s.a) s.env (verifyLatched s).env := by
  simp only [verifyLatched]
  split
  · simp only [verifyPage, compareReadBack_env]
    exact sequentialRead_quiet s s.a s.n
  · simp only [verifyByte, compareReadBack_env]
    exact randomRead_quiet s s.a

/-- After the wait: WP closed where there is one, and nothing stored. -/
theorem finishWrite_quiet : Quiet s.cfg (WireInside s.cfg s.dsb s.a) (closeWp s).env (finishWrite s).env := by
  have hc := closeWp_ran s
  simp only [finishWrite]
  split
  · exact .refl _ _ _
  · split
    · have h := verifyLatched_quiet (closeWp s)
      rwa [hc.cfg, hc.dsb, hc.a] at h
    · exact .refl _ _ _

theorem closeWp_env : (closeWp s).env = if s.cfg.wpControl then { s.env with wpLevel := .high } else s.env := by
  by_cases h : s.cfg.wpControl <;> simp [closeWp, h, wpSet, envWp]

theorem openWp_env : (openWp s).env = if s.cfg.wpControl then { s.env with wpLevel := .low } else s.env := by
  by_cases h : s.cfg.wpControl <;> simp [openWp, h, wpSet, envWp]

/-- A polling attempt's stop stores nothing: no byte was staged. -/
theorem probeStop_quiet {P : Prop} (dev : Dev7) :
    Quiet s.cfg P s.env (busStop (busAddr dev .write (busStart s)).2).env := by
  show Quiet s.cfg P s.env (envStop s.cfg (envAddr s.cfg dev .write (envStart s.env)).2)
  rcases hasChips_or_mock s.env with h | h
  · rw [envStart_chips h]
    obtain ⟨f, ds, n, -, ⟨-, he⟩ | ⟨k, -, he⟩⟩ := envAddr_chips (e := { s.env with nsent := 0 }) h s.cfg dev .write
    · rw [he, envStop_notWriting (by exact h) (.inl rfl)]
      exact .of_sameChips ⟨rfl, rfl, rfl, rfl⟩ rfl
    · rw [he, envStop_chips (by exact h)]
      simp only [chipsStop]
      rw [modify_modify_same]
      refine .of_modify (k := k) ⟨rfl, rfl, rfl, map_modify_of_eq _ _ (fun _ => by rfl) _ _⟩ rfl ?_ ?_ ?_
      · intro ch; rfl
      · exact fun _ _ hp => hp
      · exact fun _ _ => rfl
  · rw [envStart_mock h]
    have h1 := envAddr_mock h s.cfg dev .write
    rw [envStop_mock (h1.isMock h)]
    exact h1.quiet

/-- The wait stores nothing. -/
theorem waitMs_quiet {P : Prop} (n : Nat) : Quiet s.cfg P s.env (waitMs n s).env := by
  show Quiet s.cfg P s.env (envWait s.cfg n s.env)
  have key : Quiet s.cfg P s.env { s.env with chips := s.env.chips.map fun ch => { ch with busy := false } } := by
    refine ⟨⟨rfl, rfl, rfl, by simp [Function.comp_def]⟩, by simp [Function.comp_def], fun _ _ hi ch hch => ?_,
      fun k _ ch hch => ?_⟩
    · simp only [List.mem_map] at hch
      obtain ⟨ch', hch', rfl⟩ := hch
      exact hi ch' hch'
    · rw [List.getElem?_map, Option.map_eq_some_iff] at hch
      obtain ⟨ch', -, rfl⟩ := hch
      rfl
  unfold envWait
  split
  · exact .refl _ _ _
  · split
    · exact key
    · exact .refl _ _ _
  · split
    · exact key
    · exact .refl _ _ _

/-! ### From the wait to the end -/

/-- As `Quiet`, but the WP level may have moved. -/
structure Still (c : Config) (P : Prop) (e e' : Env) : Prop where
  kind : e'.kind = e.kind
  nackSet : e'.nackSet = e.nackSet
  pins : e'.chips.map Chip.pins = e.chips.map Chip.pins
  arrays : e'.chips.map Chip.mem = e.chips.map Chip.mem
  inside : P → 0 < c.memorySize → PointersInside c e → PointersInside c e'
  ready : ∀ k, e.ChipReady k → e'.ChipReady k

theorem Quiet.still {c : Config} {P : Prop} {e e' : Env} (h : Quiet c P e e') : Still c P e e' :=
  ⟨h.frame.kind, h.frame.nackSet, h.frame.pins, h.arrays, h.inside, h.ready⟩

theorem Still.trans {c : Config} {P : Prop} {e e' e'' : Env} (h : Still c P e e') (h' : Still c P e' e'') :
    Still c P e e'' :=
  ⟨h'.kind.trans h.kind, h'.nackSet.trans h.nackSet, h'.pins.trans h.pins, h'.arrays.trans h.arrays,
    fun hp h0 hi => h'.inside hp h0 (h.inside hp h0 hi),
    fun k hk => h'.ready k (h.ready k hk)⟩

theorem Still.of_wpLevel (c : Config) (P : Prop) (e : Env) (l : Level) : Still c P e { e with wpLevel := l } :=
  ⟨rfl, rfl, rfl, rfl, fun _ _ h => h, fun _ h => h⟩

theorem Still.refl (c : Config) (P : Prop) (e : Env) : Still c P e e := ⟨rfl, rfl, rfl, rfl, fun _ _ h => h, fun _ h => h⟩

theorem closeWp_still {P : Prop} : Still s.cfg P s.env (closeWp s).env := by
  rw [closeWp_env]
  split
  · exact .of_wpLevel _ _ _ _
  · exact .refl _ _ _

theorem openWp_still {P : Prop} : Still s.cfg P s.env (openWp s).env := by
  rw [openWp_env]
  split
  · exact .of_wpLevel _ _ _ _
  · exact .refl _ _ _

theorem finishWrite_still : Still s.cfg (WireInside s.cfg s.dsb s.a) s.env (finishWrite s).env :=
  (closeWp_still s).trans (finishWrite_quiet s).still

/-- A polling attempt stores nothing, and neither does the end that follows an acknowledge. -/
theorem pollAttempt_still : Still s.cfg (WireInside s.cfg s.dsb s.a) s.env (pollAttempt s).env := by
  by_cases hg : (busAddr s.dsb .write (busStart s)).1 = 0
  · simp only [pollAttempt, hg, if_true]
    exact (probeStop_quiet s s.dsb).still.trans (finishWrite_still (busStop (busAddr s.dsb .write (busStart s)).2))
  · simp only [pollAttempt, hg, if_false]
    exact (probe_quiet s s.dsb .write).still

/-- From a write transaction's stop on nothing is stored (42_write_wait.md R120, R121; 43_write.md R130). -/
theorem waitWrite_still : Still s.cfg (WireInside s.cfg s.dsb s.a) s.env (waitWrite s).env := by
  simp only [waitWrite]
  split
  · exact pollAttempt_still s
  · exact (waitMs_quiet s _).still.trans (finishWrite_still (waitMs s.cfg.writeCycleMs s))

end Sys2Proof.Machine
end

