-- ==== Sys2Proof/Laws/Effects.lean ====
section
/-! SUPPORT. The whole effect of a command on the environment, and how a command can end, each said once for all commands. -/

namespace Sys2Proof.Machine

/-- The page of a valid index ends inside the memory (20_memory.md R42). -/
theorem pageAddress_add_le {c : Config} (h : admitted c = true) {p : Nat} (hp : p < c.pages) :
    pageAddress c p + c.pageSize ≤ c.memorySize := by
  have h1 := (admitted_facts h).pagesFill
  have : (p + 1) * c.pageSize ≤ c.pages * c.pageSize := Nat.mul_le_mul_right _ hp
  rw [Nat.add_mul] at this
  simp only [pageAddress]
  omega

theorem pageAddress_lt {c : Config} (h : admitted c = true) {p : Nat} (hp : p < c.pages) :
    pageAddress c p < c.memorySize := by
  have := pageAddress_add_le h hp
  have h2 := (admitted_facts h).pageSizeTwo
  omega

/-- The pointer of a valid address lies inside the array, for a `dsb` that keeps its invariant. -/
theorem wireInside {c : Config} {dsb : Dev7} (hA : admitted c = true) (hd : dsb &&& c.addrHighMask = 0) {a : Nat}
    (ha : a < c.memorySize) : WireInside c dsb a := by
  have := joinAddr_encodeAddr hA hd a
  rw [encodeAddr_dev7] at this
  unfold WireInside wireAddr
  rw [this]
  exact lt_of_le_of_lt (Nat.mod_le _ _) ha

theorem protectAtInit_cases (s : State) : protectAtInit s = s ∨ protectAtInit s = wpSet .high s := by
  unfold protectAtInit
  split <;> simp

/-! ### How a write sequence ends -/

/-- The latched operands have passed the tests a read-back would repeat. -/
def LatchedInside (s : State) : Prop := s.a < s.cfg.memorySize ∧ (s.op = 4 → s.n ≠ 0)

/-- The command has ended as a validated write can (60_exceptions.md R189). -/
def EndedWrite (c : Config) (t : State) : Prop :=
  t.seq = .idle ∧ (t.status = some .ok ∨ t.status = some .transportError ∨
    (t.status = some .dataError ∧ c.integrityCheck = true))

theorem transferStatus_cases (s : State) : transferStatus s = .ok ∨ transferStatus s = .transportError := by
  unfold transferStatus
  split <;> simp

theorem verifyLatched_ends {s : State} (h : LatchedInside s) (hi : s.cfg.integrityCheck = true) :
    EndedWrite s.cfg (verifyLatched s) := by
  have key : ∀ (e : List Byte) (r : ReadResult), (r.status = .ok ∨ r.status = .transportError) →
      EndedWrite s.cfg (compareReadBack e r) := by
    intro e r hr
    simp only [compareReadBack]
    split
    · refine ⟨rfl, ?_⟩
      rcases hr with h | h <;> simp_all [endCommand]
    · split
      · exact ⟨rfl, .inr (.inr ⟨rfl, hi⟩)⟩
      · exact ⟨rfl, .inl rfl⟩
  have hv : addressOutOfRange s.cfg s.a = false := by simp [addressOutOfRange, h.1]
  simp only [verifyLatched]
  split
  · rename_i h4
    apply key
    simp only [sequentialRead, hv, h.2 h4]
    exact transferStatus_cases _
  · apply key
    simp only [randomRead, hv]
    exact transferStatus_cases _

theorem finishWrite_ends {s : State} (h : LatchedInside s) : EndedWrite s.cfg (finishWrite s) := by
  have hc := closeWp_ran s
  simp only [finishWrite]
  split
  · exact ⟨rfl, .inr (.inl rfl)⟩
  · split
    · rename_i hi
      rw [← hc.cfg]
      refine verifyLatched_ends ?_ hi
      unfold LatchedInside at *
      rwa [hc.a, hc.cfg, hc.op, hc.n]
    · exact ⟨rfl, .inl rfl⟩

/-- A polling attempt ends the command or leaves it in the loop with its status (42_write_wait.md R121). -/
theorem pollAttempt_ends {s : State} (h : LatchedInside s) :
    EndedWrite s.cfg (pollAttempt s) ∨ ((pollAttempt s).seq = .pollStart ∧ (pollAttempt s).status = s.status) := by
  by_cases hg : (busAddr s.dsb .write (busStart s)).1 = 0
  · simp only [pollAttempt, hg, if_true]
    exact .inl (finishWrite_ends (s := busStop (busAddr s.dsb .write (busStart s)).2) h)
  · right
    simp only [pollAttempt, hg, if_false]
    exact ⟨trivial, rfl⟩

theorem writeSequence_ends {s : State} (h : LatchedInside s) (a : Nat) (bytes : List Byte) :
    EndedWrite s.cfg (writeSequence a bytes s) ∨
      ((writeSequence a bytes s).seq = .pollStart ∧ (writeSequence a bytes s).status = s.status ∧
        s.cfg.ackPolling = true) := by
  obtain ⟨f0, f1, f2, fs, hl, hr, hf⟩ := beforeWait_ran s a bytes
  have hm := hr.moved_of_clearFault
  have hst : _ = s.status := hr.status
  simp only [writeSequence, waitWrite]
  generalize writeTransaction a bytes (openWp (clearFault s)) = u at hr hm hst
  have hu : LatchedInside u := by
    unfold LatchedInside at *
    rwa [hm.cfg, hm.a, hm.op, hm.n]
  rw [hm.cfg]
  split
  · rw [← hm.cfg, ← hst]
    rename_i hp
    rcases pollAttempt_ends hu with h | h
    · exact .inl h
    · exact .inr ⟨h.1, h.2, by rw [hm.cfg]; exact hp⟩
  · rw [← hm.cfg]
    exact .inl (finishWrite_ends (s := waitMs u.cfg.writeCycleMs u) hu)

/-! ### The effect on the environment -/

/-- One chip took a write transaction of `bytes` at `a`, WP open where there is one. -/
structure Stored (c : Config) (dsb : Dev7) (a : Nat) (bytes : List Byte) (k : Nat) (e e' : Env) : Prop where
  reached : chipFor c e.chips dsb = some k
  kind : e'.kind = e.kind
  nackSet : e'.nackSet = e.nackSet
  chips : ∃ l, (c.wpControl = true → l = .low) ∧ e'.chips = e.chips.modify k (written c l (wireAddr c dsb a) bytes)

/-- The write sequence: nothing stored, or one chip took the transaction and nothing more was stored. -/
theorem writeSequence_env (s : State) (a : Nat) (bytes : List Byte) :
    Still s.cfg (WireInside s.cfg s.dsb s.a ∧ WireInside s.cfg s.dsb a) s.env (writeSequence a bytes s).env ∨
      (s.env.HasChips ∧ ∃ k e, Stored s.cfg s.dsb a bytes k s.env e ∧
        Still s.cfg (WireInside s.cfg s.dsb s.a) e (writeSequence a bytes s).env) := by
  obtain ⟨f0, f1, f2, fs, hl, hr, hf⟩ := beforeWait_ran s a bytes
  have ho := openWp_ran (clearFault s)
  have hst := openWp_still (clearFault s) (P := WireInside s.cfg s.dsb s.a ∧ WireInside s.cfg s.dsb a)
  have hw := waitWrite_still (writeTransaction a bytes (openWp (clearFault s)))
  rw [hr.cfg, hr.dsb, hr.a] at hw
  simp only [clearFault_cfg, clearFault_dsb, clearFault_a] at hw
  have hsame : (openWp (clearFault s)).env.chips = s.env.chips := by rw [openWp_env]; split <;> rfl
  have hkind : (openWp (clearFault s)).env.kind = s.env.kind := by rw [openWp_env]; split <;> rfl
  rcases hasChips_or_mock s.env with h | h
  · have h' : (openWp (clearFault s)).env.HasChips := by unfold Env.HasChips at *; rwa [hkind]
    obtain ⟨hfr, -, hc⟩ := writeTransaction_chips h' a bytes
    rw [ho.cfg, ho.dsb] at hc
    simp only [clearFault_cfg, clearFault_dsb] at hc
    rcases hc with ⟨_, hc, _⟩ | ⟨k, hk, hc, _⟩
    · left
      have q : Quiet s.cfg (WireInside s.cfg s.dsb s.a ∧ WireInside s.cfg s.dsb a) _ _ := .of_sameChips hfr hc
      exact hst.trans (q.still.trans ⟨hw.kind, hw.nackSet, hw.pins, hw.arrays, fun p => hw.inside p.1, hw.ready⟩)
    · right
      refine ⟨h, k, _, ⟨?_, ?_, ?_, (openWp (clearFault s)).env.wpLevel, ?_, ?_⟩, hw⟩
      · rw [← hk, hsame, chipFor_deviceValue]
      · rw [hfr.kind, hkind]
      · rw [hfr.nackSet, openWp_env]
        split <;> rfl
      · intro hwp
        rw [openWp_env]
        simp [hwp]
      · rw [hc, hsame]
  · left
    have q : Quiet s.cfg (WireInside s.cfg s.dsb s.a ∧ WireInside s.cfg s.dsb a) _ _ := (writeTransaction_mock (s := openWp (clearFault s)) (by rw [hkind, h]) a bytes).quiet
    exact hst.trans (q.still.trans ⟨hw.kind, hw.nackSet, hw.pins, hw.arrays, fun p => hw.inside p.1, hw.ready⟩)

/-- What an accepted command stores: nothing, or a write command's bytes at its address in the chip `dsb` selects. -/
theorem exec_env {i : Instr} {s t : State} (h : exec i s = .next t) :
    Still s.cfg (∀ a, a < s.cfg.memorySize → WireInside s.cfg s.dsb a) s.env t.env ∨
      (s.env.HasChips ∧ ∃ a bytes k e, Stored s.cfg s.dsb a bytes k s.env e ∧ a < s.cfg.memorySize ∧
        ((∃ d, i = .writeByte a d ∧ bytes = [d]) ∨
          ∃ p n buf, i = .writePage p n buf ∧ p < s.cfg.pages ∧ n < s.cfg.pageSize ∧ a = pageAddress s.cfg p ∧
            bytes = (pagePort s.portDrawn n buf).take n) ∧
        Still s.cfg (WireInside s.cfg s.dsb a) e t.env) := by
  cases i with
  | init =>
    obtain ⟨hr, rfl⟩ := execInit_next h
    left
    rcases protectAtInit_cases (writeDsb (initialDsb s.cfg) (startCommand 0 s)) with e | e <;> rw [e]
    · exact .refl _ _ _
    · exact .of_wpLevel _ _ _ _
  | selectDevice id => obtain ⟨_, _, rfl⟩ := execSelectDevice_next h; exact .inl (.refl _ _ _)
  | wp m => obtain ⟨_, _, rfl⟩ := execWp_next h; exact .inl (.of_wpLevel _ _ _ _)
  | writeByte a d =>
    obtain ⟨hr, ⟨ha, rfl⟩ | ⟨ha, rfl⟩⟩ := execWriteByte_next h
    · exact .inl (.refl _ _ _)
    · rcases writeSequence_env (latchData d (latchAddress a (startCommand 3 s))) a [d] with h | ⟨h1, k, e, h2, h7⟩
      · exact .inl ⟨h.kind, h.nackSet, h.pins, h.arrays, fun p => h.inside ⟨p a ha, p a ha⟩, h.ready⟩
      · exact .inr ⟨h1, a, [d], k, e, h2, ha, .inl ⟨d, rfl, rfl⟩, h7⟩
  | writePage p n buf =>
    obtain ⟨hr, ⟨ha, rfl⟩ | ⟨ha, hb, rfl⟩ | ⟨ha, hn, hb, rfl⟩⟩ := execWritePage_next h
    · exact .inl (.refl _ _ _)
    · exact .inl (.refl _ _ _)
    · have ha' := pageAddress_lt hr.1.1 ha
      rcases writeSequence_env (latchAddress (pageAddress s.cfg p) (latchPage n buf (latchLength n (startCommand 4 s)))) (pageAddress s.cfg p) ((pagePort s.portDrawn n buf).take n) with h | ⟨h1, k, e, h2, h7⟩
      · exact .inl ⟨h.kind, h.nackSet, h.pins, h.arrays, fun p' => h.inside ⟨p' _ ha', p' _ ha'⟩, h.ready⟩
      · exact .inr ⟨h1, pageAddress s.cfg p, (pagePort s.portDrawn n buf).take n, k, e, h2, ha', .inr ⟨p, n, buf, rfl, ha, hb, rfl, rfl⟩, h7⟩
  | readCurrentByte =>
    obtain ⟨hr, rfl⟩ := execReadCurrentByte_next h
    left
    obtain ⟨f, b, h, hb, hs⟩ := currentRead_ran (startCommand 5 s)
    rw [hb]
    exact (currentRead_quiet (startCommand 5 s)).still
  | readByte a =>
    obtain ⟨hr, rfl⟩ := execReadByte_next h
    left
    have q := randomRead_quiet (latchAddress a (startCommand 6 s)) a
    have : ∀ b, (endCommand (randomRead a (latchAddress a (startCommand 6 s))).status (deliverByte b (randomRead a (latchAddress a (startCommand 6 s))).after)).env = (randomRead a (latchAddress a (startCommand 6 s))).after.env := by
      intro b; cases b <;> rfl
    rw [this]
    by_cases ha : a < s.cfg.memorySize
    · exact (q.mono fun p => p a ha).still
    · have e : randomRead a (latchAddress a (startCommand 6 s)) = ⟨.addressError, [], latchAddress a (startCommand 6 s)⟩ := by simp [randomRead, addressOutOfRange, Nat.not_lt.1 ha]
      rw [e]; exact .refl _ _ _
  | readSequential a n =>
    obtain ⟨hr, rfl⟩ := execReadSequential_next h
    left
    have q := sequentialRead_quiet (latchLength n (latchAddress a (startCommand 7 s))) a n
    by_cases ha : a < s.cfg.memorySize
    · exact (q.mono fun p => p a ha).still
    · have e : sequentialRead a n (latchLength n (latchAddress a (startCommand 7 s))) = ⟨.addressError, [], latchLength n (latchAddress a (startCommand 7 s))⟩ := by simp [sequentialRead, addressOutOfRange, Nat.not_lt.1 ha]
      rw [e]; exact .refl _ _ _


theorem written_mem (c : Config) (l : Level) (p : Nat) (bytes : List Byte) (ch : Chip) :
    (written c l p bytes ch).mem = ch.mem ∨ (written c l p bytes ch).mem = memWriteAll c.memorySize ch.mem p bytes := by
  unfold written commitStage
  split
  · exact .inl rfl
  · split
    · exact .inl rfl
    · exact .inr rfl

/-- A stored transaction keeps every array canonical. -/
theorem Stored.arraysCanonical {c : Config} {dsb : Dev7} {a k : Nat} {bytes : List Byte} {e e' : Env}
    (h : Stored c dsb a bytes k e e') (hc : e.ArraysCanonical c) : e'.ArraysCanonical c := by
  obtain ⟨l, -, he⟩ := h.chips
  unfold Env.ArraysCanonical
  rw [he]
  refine forall_modify (P := fun ch => memWf c.memorySize ch.mem = true) hc fun ch hch => ?_
  rcases written_mem c l (wireAddr c dsb a) bytes ch with hm | hm <;> rw [hm]
  · exact hch
  · exact memWf_memWriteAll hch

/-- What stores nothing keeps every array canonical. -/
theorem Still.arraysCanonical {c : Config} {P : Prop} {e e' : Env} (h : Still c P e e') (hc : e.ArraysCanonical c) :
    e'.ArraysCanonical c := by
  intro ch hch
  have : ch.mem ∈ e'.chips.map Chip.mem := List.mem_map_of_mem hch
  rw [h.arrays, List.mem_map] at this
  obtain ⟨ch', h1, h2⟩ := this
  rw [← h2]
  exact hc ch' h1

/-- A stored transaction leaves every byte outside it alone (20_memory.md R63). -/
theorem Stored.byteAt_outside {c : Config} {dsb : Dev7} {a k : Nat} {bytes : List Byte} {e e' : Env}
    (h : Stored c dsb a bytes k e e') (k' x : Nat)
    (hx : x < wireAddr c dsb a ∨ wireAddr c dsb a + bytes.length ≤ x ∨ k ≠ k') : byteAt e' k' x = byteAt e k' x := by
  obtain ⟨l, -, he⟩ := h.chips
  unfold byteAt
  rw [he, List.getElem?_modify]
  cases hk' : e.chips[k']? with
  | none => by_cases hk : k = k' <;> simp [hk]
  | some ch =>
    by_cases hk : k = k'
    · rcases written_mem c l (wireAddr c dsb a) bytes ch with hm | hm
      · simp [hk, hm]
      · have : x < wireAddr c dsb a ∨ wireAddr c dsb a + bytes.length ≤ x := by
          rcases hx with hx | hx | hx
          · exact .inl hx
          · exact .inr hx
          · exact absurd hk hx
        simp [hk, hm, memRead_memWriteAll_outside this]
    · simp [hk]

end Sys2Proof.Machine
end

