-- ==== Sys2Proof/Laws/PerInstr.lean ====
section
/-! SUPPORT. A statement made per command: what the encoder drives is a record of the port, with the command's own code on
the wires of `op` (30_encoding.md R70, R71). -/

namespace Sys2Proof.Laws.EncodeFits

/-- The record has no wire beyond the port's, and its low three wires are the command's code. -/
def Statement (i : Instr) : Prop :=
  ∀ c : Config, i.operandsFit c = true →
    (encode c i).word < 2 ^ recordBits c ∧ (encode c i).word % 8 = opcodeOf i

theorem of_code {i : Instr} (hop : (fieldsOf i).op = opcodeOf i) (hlt : opcodeOf i < 8) : Statement i := by
  intro c h
  refine ⟨packFields_lt (fieldsOf_fit h), ?_⟩
  simp only [encode, packFields, hop]
  rw [show (2 : Nat) ^ 3 = 8 from rfl, Nat.add_mul_mod_self_left, Nat.mod_eq_of_lt hlt]

theorem init : Statement .init := of_code rfl (by simp [opcodeOf])

theorem selectDevice (id : Nat) : Statement (.selectDevice id) := of_code rfl (by simp [opcodeOf])

theorem wp (mode : WpMode) : Statement (.wp mode) := of_code rfl (by simp [opcodeOf])

theorem writeByte (a : Nat) (d : Byte) : Statement (.writeByte a d) := of_code rfl (by simp [opcodeOf])

theorem writePage (p n : Nat) (buf : List Byte) : Statement (.writePage p n buf) := of_code rfl (by simp [opcodeOf])

theorem readCurrentByte : Statement .readCurrentByte := of_code rfl (by simp [opcodeOf])

theorem readByte (a : Nat) : Statement (.readByte a) := of_code rfl (by simp [opcodeOf])

theorem readSequential (a n : Nat) : Statement (.readSequential a n) := of_code rfl (by simp [opcodeOf])

end Sys2Proof.Laws.EncodeFits
end

