-- ==== Sys2Proof/Laws/Pointer.lean ====
section
/-! SUPPORT. Busy state and pointers in ENV: no chip is in a write cycle once a write has ended, and the selected chip's pointer
is one past the last byte accessed (10_state.md R29; 20_memory.md R61 to R65). -/

namespace Sys2Proof.Machine

/-! ### Write cycles -/

/-- The fixed delay ends every write cycle (20_memory.md R65). -/
theorem waitMs_ready (s : State) (h : s.env.HasChips) (k : Nat) : (waitMs s.cfg.writeCycleMs s).env.ChipReady k := by
  have he : (waitMs s.cfg.writeCycleMs s).env.chips = s.env.chips.map fun ch => { ch with busy := false } := by
    show (envWait s.cfg s.cfg.writeCycleMs s.env).chips = _
    rcases h with h | h <;> simp [envWait, h]
  intro ch hch
  rw [he, List.getElem?_map, Option.map_eq_some_iff] at hch
  obtain ⟨ch', -, rfl⟩ := hch
  rfl

/-- A polling attempt answered with 0 has found the selected chip ready (42_write_wait.md R122). -/
theorem probeStop_ready (s : State) (h : s.env.HasChips) (hn : s.env.nackSet ≠ 0) (dev : Dev7)
    (hg : (busAddr dev .write (busStart s)).1 = 0) (k : Nat) (hk : chipFor s.cfg s.env.chips dev = some k) :
    (busStop (busAddr dev .write (busStart s)).2).env.ChipReady k := by
  have hg' : (envAddr s.cfg dev .write (envStart s.env)).1 = 0 := hg
  show (envStop s.cfg (envAddr s.cfg dev .write (envStart s.env)).2).ChipReady k
  rw [envStart_chips h] at hg' ⊢
  obtain ⟨f, ds, n, -, ⟨-, he⟩ | ⟨k', hk', he⟩⟩ := envAddr_chips (e := { s.env with nsent := 0 }) h s.cfg dev .write
  · rw [he] at hg'
    exact absurd hg' (or_ne_zero_left hn)
  · rw [he, envStop_chips (by exact h)]
    simp only [chipsStop]
    rw [modify_modify_same]
    have hkk : chipFor s.cfg s.env.chips dev = some k' := hk'
    rw [hk] at hkk
    obtain rfl : k = k' := by simpa using hkk
    exact chipReady_modified (e := s.env) rfl fun ch => rfl

/-- A polling attempt that ends the command leaves the selected chip ready. -/
theorem pollAttempt_ready (s : State) (h : s.env.HasChips) (hn : s.env.nackSet ≠ 0) (hi : (pollAttempt s).seq = .idle) (k : Nat)
    (hk : chipFor s.cfg s.env.chips s.dsb = some k) : (pollAttempt s).env.ChipReady k := by
  by_cases hg : (busAddr s.dsb .write (busStart s)).1 = 0
  · simp only [pollAttempt, hg, if_true]
    exact (finishWrite_still (busStop (busAddr s.dsb .write (busStart s)).2)).ready k (probeStop_ready s h hn s.dsb hg k hk)
  · simp only [pollAttempt, hg, if_false] at hi
    cases hi

/-- The transaction of a write changes neither the kind of environment, nor NACK, nor the straps. -/
theorem beforeWait_board (s : State) (a : Nat) (bytes : List Byte) (h : s.env.HasChips) :
    (writeTransaction a bytes (openWp (clearFault s))).env.HasChips ∧
    (writeTransaction a bytes (openWp (clearFault s))).env.nackSet = s.env.nackSet ∧
    (writeTransaction a bytes (openWp (clearFault s))).env.chips.map Chip.pins = s.env.chips.map Chip.pins := by
  have hsame : (openWp (clearFault s)).env.chips = s.env.chips := by rw [openWp_env]; split <;> rfl
  have hkind : (openWp (clearFault s)).env.kind = s.env.kind := by rw [openWp_env]; split <;> rfl
  have hnack : (openWp (clearFault s)).env.nackSet = s.env.nackSet := by rw [openWp_env]; split <;> rfl
  have h' : (openWp (clearFault s)).env.HasChips := by unfold Env.HasChips at *; rwa [hkind]
  obtain ⟨hfr, -⟩ := writeTransaction_chips h' a bytes
  exact ⟨hfr.hasChips h', hfr.nackSet.trans hnack, by rw [hfr.pins, hsame]⟩

/-- A write sequence that has ended leaves its chip ready, and with the fixed delay every chip. -/
theorem writeSequence_ready (s : State) (a : Nat) (bytes : List Byte) (h : s.env.HasChips) :
    (s.cfg.ackPolling = false → ∀ k, (writeSequence a bytes s).env.ChipReady k) ∧
    (s.env.nackSet ≠ 0 → (writeSequence a bytes s).seq = .idle → ∀ k, chipFor s.cfg s.env.chips s.dsb = some k → (writeSequence a bytes s).env.ChipReady k) := by
  obtain ⟨f0, f1, f2, fs, hl, hr, hf⟩ := beforeWait_ran s a bytes
  have hm := hr.moved_of_clearFault
  obtain ⟨h1, h2, h3⟩ := beforeWait_board s a bytes h
  simp only [writeSequence, waitWrite]
  generalize writeTransaction a bytes (openWp (clearFault s)) = u at hm h1 h2 h3 ⊢
  have fixed : u.cfg.ackPolling = false → ∀ k, (finishWrite (waitMs u.cfg.writeCycleMs u)).env.ChipReady k := fun _ k =>
    (finishWrite_still (waitMs u.cfg.writeCycleMs u)).ready k (waitMs_ready u h1 k)
  split
  · rename_i hp
    refine ⟨fun hq => absurd (hm.cfg ▸ hp) (by simp [hq]), fun hn hi k hk => pollAttempt_ready u h1 (by rwa [h2]) hi k ?_⟩
    rw [hm.cfg, hm.dsb, chipFor_of_pins h3, hk]
  · rename_i hp
    exact ⟨fun _ => fixed (by simpa using hp), fun _ _ k _ => fixed (by simpa using hp) k⟩

/-! ### Pointers -/

/-- Chip `k` is there and its pointer is `p`. -/
def PtrAt (e : Env) (k p : Nat) : Prop := (e.chips[k]?).map Chip.ptr = some p

/-- Each receive moves the pointer of the chip that drives the bus on by one (20_memory.md R64). -/
theorem recvAll_ptr (n : Nat) : ∀ (s : State) (p : Nat) {k : Nat}, s.env.HasChips → s.env.sel = some k → s.env.dir = .read → PtrAt s.env k p →
    PtrAt (recvAll (n+1) s).2.env k ((p + (n+1)) % s.cfg.memorySize) := by
  induction n with
  | zero =>
    intro s p k h hs hd hp
    have e1 : (recvAll 1 s).2.env = (envRecv s.cfg s.env).2 := rfl
    obtain ⟨b, ds, m, ⟨hno, -⟩ | ⟨k', ch', hk', -, hch', hb⟩⟩ := envRecv_chips h s.cfg
    · unfold PtrAt at hp
      cases hk : s.env.chips[k]? with
      | none => simp [hk] at hp
      | some ch => exact absurd hk (hno k ch hs hd)
    · rw [hs] at hk'; obtain rfl : k = k' := by simpa using hk'
      unfold PtrAt at *
      rw [e1, hb]
      simp [hch'] at hp ⊢
      rw [hp]
  | succ n ih =>
    intro s p k h hs hd hp
    set u := nextIndex (busRecv (recvPolicy (n+1)) s).2 with hu
    have e1 : u.env = (envRecv s.cfg s.env).2 := rfl
    have e2 : (recvAll (n+1+1) s).2 = (recvAll (n+1) u).2 := rfl
    obtain ⟨b, ds, m, ⟨hno, -⟩ | ⟨k', ch', hk', -, hch', hb⟩⟩ := envRecv_chips h s.cfg
    · unfold PtrAt at hp
      cases hk : s.env.chips[k]? with
      | none => simp [hk] at hp
      | some ch => exact absurd hk (hno k ch hs hd)
    · rw [hs] at hk'; obtain rfl : k = k' := by simpa using hk'
      have hp' : PtrAt u.env k ((p+1) % s.cfg.memorySize) := by
        unfold PtrAt at *
        rw [e1, hb]
        simp [hch'] at hp ⊢
        rw [hp]
      have := ih u _ (k := k) (by rw [e1, hb]; exact h) (by rw [e1, hb]; exact hs) (by rw [e1, hb]; exact hd) hp'
      rw [e2]
      have hc : u.cfg = s.cfg := rfl
      rw [hc, Nat.mod_add_mod] at this
      rw [show p + (n + 1 + 1) = p + 1 + (n + 1) by omega]
      exact this

theorem envStop_read {e : Env} (h : e.HasChips) (c) (hd : e.dir = .read) : (envStop c e).chips = e.chips := by
  rw [envStop_notWriting h (.inr hd)]

theorem recvAll_dir (n : Nat) : ∀ s : State, s.env.HasChips → (recvAll n s).2.env.dir = s.env.dir := by
  induction n with
  | zero => intro s _; rfl
  | succ n ih =>
    intro s h
    set u := nextIndex (busRecv (recvPolicy n) s).2 with hu
    have e1 : u.env = (envRecv s.cfg s.env).2 := rfl
    have : u.env.HasChips ∧ u.env.dir = s.env.dir := by
      obtain ⟨b, ds, m, ⟨-, hb⟩ | ⟨k', ch', -, -, -, hb⟩⟩ := envRecv_chips h s.cfg <;> rw [e1, hb] <;> exact ⟨h, rfl⟩
    exact (ih u this.1).trans this.2

/-- A sequential read that ends with OK leaves the pointer `n` past its start. -/
theorem sequentialRead_ptr (s : State) (a n) (hc : s.env.HasChips) (hn : s.env.nackSet ≠ 0) (hok : (sequentialRead a n s).status = .ok) :
   ∃ k, chipFor s.cfg s.env.chips s.dsb = some k ∧ PtrAt (sequentialRead a n s).after.env k ((wireAddr s.cfg s.dsb a + n) % s.cfg.memorySize) := by
  by_cases hv : addressOutOfRange s.cfg a = true
  · simp [sequentialRead, hv] at hok
  have hv : addressOutOfRange s.cfg a = false := by simpa using hv
  by_cases hn0 : n = 0
  · simp [sequentialRead, hv, hn0] at hok
  set v := firstIndex (positionForRead a (clearFault s)) with hvv
  have hst : (sequentialRead a n s).status = transferStatus (busStop (recvAll n v).2) := by simp only [sequentialRead, hv, hn0]; rfl
  have haf : (sequentialRead a n s).after = busStop (recvAll n v).2 := by simp only [sequentialRead, hv, hn0]; rfl
  have hf : (positionForRead a (clearFault s)).fault = 0 := by
    have h1 := (recvAll_ran v n).2.fault
    by_contra hne
    have : (busStop (recvAll n v).2).fault ≠ 0 := by
      show (recvAll n v).2.fault ≠ 0
      rw [h1]; exact or_ne_zero_left hne
    rw [hst, transferStatus, if_neg this] at hok; simp at hok
  obtain ⟨hfr, _, hcs⟩ := positionForRead_chips (s := clearFault s) hc a
  obtain ⟨f0, f1, f2, f3, hr⟩ := positionForRead_ran (clearFault s) a
  rcases hcs with ⟨_, h, _⟩ | ⟨k, hk, h1, h2, h3, _⟩
  · exact absurd hf (h hn)
  · rw [chipFor_deviceValue] at hk
    have hlt := chipFor_lt hk
    refine ⟨k, hk, ?_⟩
    rw [haf]
    have hvc : v.env.HasChips := hfr.hasChips hc
    have hp : PtrAt v.env k (wireAddr s.cfg s.dsb a) := by
      unfold PtrAt
      rw [show v.env = (positionForRead a (clearFault s)).env from rfl, h3, List.getElem?_modify, List.getElem?_eq_getElem hlt]
      simp [positioned]
    obtain ⟨m, rfl⟩ : ∃ m, n = m + 1 := ⟨n - 1, by omega⟩
    have := recvAll_ptr m v _ hvc h1 h2 hp
    rw [show v.cfg = s.cfg from hr.cfg] at this
    unfold PtrAt at *
    show ((envStop _ (recvAll (m+1) v).2.env).chips[k]?).map Chip.ptr = _
    rw [envStop_read ((recvAll_frame hvc (m+1)).1.hasChips hvc) _ ((recvAll_dir _ v hvc).trans h2)]
    exact this

/-- READ_BYTE's sequence answers and leaves the environment as a sequential read of one. -/
theorem randomRead_as_sequential (s : State) (a) : (randomRead a s).status = (sequentialRead a 1 s).status ∧ (randomRead a s).after.env = (sequentialRead a 1 s).after.env := by
  by_cases hv : addressOutOfRange s.cfg a = true
  · simp only [randomRead, sequentialRead, hv, if_true]; exact ⟨trivial, trivial⟩
  · simp only [randomRead, sequentialRead, hv]; exact ⟨rfl, rfl⟩

theorem closeWp_chips (s : State) : (closeWp s).env.chips = s.env.chips ∧ (closeWp s).env.kind = s.env.kind ∧ (closeWp s).env.nackSet = s.env.nackSet := by
  rw [closeWp_env]; split <;> exact ⟨rfl, rfl, rfl⟩

theorem compareReadBack_ok {e r} (h : (compareReadBack e r).status = some .ok) : r.status = .ok := by
  unfold compareReadBack at h
  by_contra hne
  simp [hne] at h

/-- A polling attempt's calls move no pointer (42_write_wait.md R121, corner case 5). -/
theorem probe_ptr (s : State) (dev : Dev7) :
    (busAddr dev .write (busStart s)).2.env.chips.map Chip.ptr = s.env.chips.map Chip.ptr ∧
    (busStop (busAddr dev .write (busStart s)).2).env.chips.map Chip.ptr = s.env.chips.map Chip.ptr := by
  show (envAddr s.cfg dev .write (envStart s.env)).2.chips.map Chip.ptr = _ ∧ (envStop s.cfg (envAddr s.cfg dev .write (envStart s.env)).2).chips.map Chip.ptr = _
  rcases hasChips_or_mock s.env with h | h
  · rw [envStart_chips h]
    obtain ⟨f, ds, n, -, ⟨-, he⟩ | ⟨k, -, he⟩⟩ := envAddr_chips (e := { s.env with nsent := 0 }) h s.cfg dev .write
    · rw [he, envStop_notWriting (by exact h) (.inl rfl)]; exact ⟨rfl, rfl⟩
    · rw [he, envStop_chips (by exact h)]
      simp only [chipsStop]
      rw [modify_modify_same]
      refine ⟨map_modify_of_eq _ _ (fun _ => by rfl) _ _, map_modify_of_eq _ _ (fun ch => ?_) _ _⟩
      rfl
  · rw [envStart_mock h]
    have h1 := envAddr_mock h s.cfg dev .write
    rw [envStop_mock (h1.isMock h)]
    exact ⟨by rw [h1.chips], by rw [h1.chips]⟩

/-- A polling attempt of an instance without read-back moves no pointer. -/
theorem pollAttempt_ptr (s : State) (hi : s.cfg.integrityCheck = false) : (pollAttempt s).env.chips.map Chip.ptr = s.env.chips.map Chip.ptr := by
  obtain ⟨p1, p2⟩ := probe_ptr s s.dsb
  by_cases hg : (busAddr s.dsb .write (busStart s)).1 = 0
  · simp only [pollAttempt, hg, if_true]
    set u := busStop (busAddr s.dsb .write (busStart s)).2 with hu
    have hcl : (closeWp u).cfg.integrityCheck = false := by rw [(closeWp_ran u).cfg]; exact hi
    have : (finishWrite u).env = (closeWp u).env := by
      unfold finishWrite; simp only
      split
      · rfl
      · simp [hcl]
    rw [this, (closeWp_chips u).1, p2]
  · simp only [pollAttempt, hg, if_false]; exact p1

end Sys2Proof.Machine
end

