-- ==== Sys2Proof/Tests/Slice0.lean ====
section
/-! SUPPORT. The model's own tests: ill-formed commands, words decoded by hand, worked examples of 95_test_vectors.md, and for
each statement with hypotheses a state that meets them. -/

namespace Sys2Proof.Tests

open Sys2Proof.Machine

/-! ### Helpers -/

/-- V2M, single device, A2 high, the four flags off (95_test_vectors.md 1.3). -/
def v2m : Config := { Config.atReset with multiDevices := false, wpControl := false }

/-- V1M with 256-byte pages, two chips, WP and polling (95_test_vectors.md P2). -/
def v1m : Config :=
  { Config.atReset with memorySize := 0x20000, pages := 512, addrHighMask := 0x01, addrPinMask := 0x06, ackPolling := true }

/-- After INIT (or SELECT_DEVICE) has given `dsb` the value `v`, with an environment of chips. -/
def ready (c : Config) (v : Dev7) (chips : List Chip) : State :=
  { State.reset with cfg := c, dsb := v, dsbSet := true, env := { Env.atReset with chips := chips } }

/-- The same with a transport that gives these answers. -/
def mocked (c : Config) (v : Dev7) (draws : List Draw) : State :=
  { State.reset with cfg := c, dsb := v, dsbSet := true, env := { Env.atReset with kind := .mock, draws := draws } }

/-- A transport's answer: acknowledged, and a byte. -/
def ack (b : Byte) : Draw := { fault := 0, byte := b, ends := true }

/-- A transport's answer: a fault, and a byte. -/
def nack (b : Byte) : Draw := { fault := 1, byte := b, ends := false }

/-- The state after an outcome, where there is one. -/
def after : Host.Outcome State Fault Refusal → Option State
  | .next t => some t
  | .fault _ => none
  | .refused _ => none

/-- Trace and status of a command, where it gives a next state. -/
def seen (i : Instr) (s : State) : Option (List Call × Option Status) := (after (exec i s)).map fun t => (t.trace, t.status)

theorem next_of (p : State → Bool) {o : Host.Outcome State Fault Refusal} (h : (after o).any p = true) :
    ∃ t, o = .next t ∧ p t = true := by
  cases o with
  | next t => exact ⟨t, rfl, by simpa [after] using h⟩
  | fault f => simp [after] at h
  | refused r => simp [after] at h

/-- The chip at A2 high, as 95_test_vectors.md section 3 starts it. -/
def chip4 : Chip := Chip.fresh 0x04

/-- A write command in the polling loop: `write_byte(0, 0)` of 95_test_vectors.md P6, with WP and these chips. -/
def polling (chips : List Chip) : State :=
  { ready { v2m with ackPolling := true, wpControl := true } 0x54 chips with
    seq := .pollStart
    op := 3
    trace := [.start, .addr 0x54 .write 1] }

/-- A page write in the polling loop. -/
def pollingPage : State := { polling [chip4] with op := 4, n := 2, bufPort := [0xDE, 0xAD] }

/-! ### Well-formedness: each check refuses its ill-formed term -/

theorem test_absent_select : (Instr.selectDevice 4).problem v2m = some .featureAbsent := by decide

theorem test_absent_wp : (Instr.wp .enabled).problem v2m = some .featureAbsent := by decide

theorem test_wide_address : (Instr.readByte 0x100000000).problem v2m = some .operandTooWide := by decide

theorem test_wide_length : (Instr.readSequential 0 65536).problem v2m = some .operandTooWide := by decide

theorem test_wide_page : (Instr.writePage 65536 1 [0]).problem v2m = some .operandTooWide := by decide

theorem test_wide_id : (Instr.selectDevice 256).problem v1m = some .operandTooWide := by decide

theorem test_short_buffer_well_formed : (Instr.writePage 3 3 [0x11, 0x22]).wellFormed v2m = true := by decide

theorem test_well_formed_page : (Instr.writePage 3 3 [0x11, 0x22, 0x33]).wellFormed v2m = true := by decide

/-! ### Decoding: words written out from 30_encoding.md R70 to R72 (wires above `op` numbered by log 12) -/

theorem test_decode_init : decode Config.atReset ⟨0b000, []⟩ = .ok .init := by decide

/-- `id = 0xFF` (P2), above op 3 + a 32 + d 8 + p 16 + n 16 = 75 wires. -/
theorem test_decode_select : decode Config.atReset ⟨0b001 + 2 ^ 75 * 0xFF, []⟩ = .ok (.selectDevice 0xFF) := by decide

/-- `mode = 1` is ENABLED (R72), above 83 wires. -/
theorem test_decode_wp : decode Config.atReset ⟨0b010 + 2 ^ 83, []⟩ = .ok (.wp .enabled) := by decide

theorem test_decode_write_byte :
    decode Config.atReset ⟨0b011 + 2 ^ 3 * 0x2ABCD + 2 ^ 35 * 0x5A, []⟩ = .ok (.writeByte 0x2ABCD 0x5A) := by decide

theorem test_decode_write_page :
    decode Config.atReset ⟨0b100 + 2 ^ 43 * 511 + 2 ^ 59 * 2, [0xDE, 0xAD]⟩ = .ok (.writePage 511 2 [0xDE, 0xAD]) := by
  decide

theorem test_decode_read_current : decode Config.atReset ⟨0b101, []⟩ = .ok .readCurrentByte := by decide

theorem test_decode_read_byte : decode Config.atReset ⟨0b110 + 2 ^ 3 * 0xFFFFFFFF, []⟩ = .ok (.readByte 0xFFFFFFFF) := by
  decide

theorem test_decode_read_sequential :
    decode Config.atReset ⟨0b111 + 2 ^ 3 * 0x1FF00 + 2 ^ 59 * 2, []⟩ = .ok (.readSequential 0x1FF00 2) := by decide

/-- Operands that the command's row does not name are ignored (R70). -/
theorem test_decode_ignores : decode Config.atReset ⟨0b101 + 2 ^ 3 * 0x12345 + 2 ^ 83, [7]⟩ = .ok .readCurrentByte := by
  decide

theorem test_decode_beyond : decode Config.atReset ⟨2 ^ 84, []⟩ = .error .bitsBeyondRecord := by decide

/-! ### Reset and the encoder -/

theorem test_reset_arrays : State.reset.env.chips.all (fun ch => memWf State.reset.cfg.memorySize ch.mem) = true := by
  decide

theorem test_reset_config : admitted Config.atReset = true ∧ admitted v2m = true ∧ admitted v1m = true := by decide

/-- 95_test_vectors.md 2.1. -/
theorem test_encode_v2m : encodeAddr v2m 0x54 0x1A2B3 = ⟨0x55, 0xA2, 0xB3⟩ ∧ encodeAddr v2m 0x50 0x3FFFF = ⟨0x53, 0xFF, 0xFF⟩ := by
  decide

theorem test_encode_v1m : encodeAddr v1m 0x52 0x12345 = ⟨0x53, 0x23, 0x45⟩ ∧ encodeAddr v1m 0x56 0x0FFFF = ⟨0x56, 0xFF, 0xFF⟩ := by
  decide

/-! ### One command each (95_test_vectors.md 2.2 to 2.7) -/

theorem test_init_strap :
    (after (exec .init { State.reset with cfg := { v2m with strap := 0x07 } })).map (fun t => (t.dsb, t.trace, t.status)) =
      some (0x54, [], some .ok) := by decide

theorem test_init_multi_wp :
    (after (exec .init State.reset)).map (fun t => (t.dsb, t.trace, t.env.wpLevel)) = some (0x50, [.wp .high], .high) := by decide

theorem test_select_v2m : (after (exec (.selectDevice 0x03) State.reset)).map (fun t => (t.dsb, t.trace)) = some (0x50, []) := by
  decide

theorem test_select_v1m :
    (after (exec (.selectDevice 0x07) (ready v1m 0x50 []))).map (fun t => (t.dsb, t.status)) = some (0x56, some .ok) := by decide

theorem test_wp_low : seen (.wp .disabled) State.reset = some ([.wp .low], some .ok) := by decide

theorem test_wp_high : (after (exec (.wp .enabled) State.reset)).map (fun t => t.env.wpLevel) = some .high := by decide

/-- 2.4, `addr` NACK, rest ACK: nothing is skipped; and P3, step 1: the read-back differs. -/
theorem test_write_byte :
    seen (.writeByte 0x10 0xAA) (mocked v2m 0x54 [nack 0, ack 0, ack 0, ack 0]) =
      some ([.start, .addr 0x54 .write 1, .send 0x00 0, .send 0x10 0, .send 0xAA 0, .stop, .waitMs 10],
        some .transportError) ∧
    seen (.writeByte 0x3FFFF 0x01) (mocked { v2m with integrityCheck := true } 0x54 (List.replicate 9 (ack 0))) =
      some ([.start, .addr 0x57 .write 0, .send 0xFF 0, .send 0xFF 0, .send 0x01 0, .stop, .waitMs 10,
        .start, .addr 0x57 .write 0, .send 0xFF 0, .send 0xFF 0, .stop, .start, .addr 0x57 .read 0, .recv .nack 0x00, .stop],
        some .dataError) := by decide

/-- 1.3, scenario 3 as corrected. -/
theorem test_write_page :
    seen (.writePage 3 3 [0x11, 0x22, 0x33]) (ready v2m 0x54 [chip4]) =
      some ([.start, .addr 0x54 .write 0, .send 0x03 0, .send 0x00 0, .send 0x11 0, .send 0x22 0, .send 0x33 0, .stop,
        .waitMs 10], some .ok) := by decide

/-- 95_test_vectors.md P2, step 3: the first of the two refused polling attempts is made within the command's first step. -/
theorem test_write_page_polls :
    seen (.writePage 511 2 [0xDE, 0xAD])
      { ready v1m 0x56 [Chip.fresh 0x00, Chip.fresh 0x06] with env :=
        { Env.atReset with chips := [Chip.fresh 0x00, Chip.fresh 0x06], draws := List.replicate 6 (nack 0) } } =
      some ([.wp .low, .start, .addr 0x57 .write 0, .send 0xFF 0, .send 0x00 0, .send 0xDE 0, .send 0xAD 0, .stop,
        .start, .addr 0x56 .write 1], none) := by decide

/-- 2.6. -/
theorem test_read_current : seen .readCurrentByte (mocked v2m 0x54 [ack 0, ack 0x3C]) =
    some ([.start, .addr 0x54 .read 0, .recv .nack 0x3C, .stop], some .ok) := by decide

theorem test_read_current_out :
    (after (exec .readCurrentByte (mocked v2m 0x54 [nack 0, ack 0xFF]))).map (fun t => (t.out, t.status)) =
      some (0xFF, some .transportError) := by decide

/-- 1.3, scenario 2 as corrected. -/
theorem test_read_byte : seen (.readByte 0x1FFFF) (mocked v2m 0x54 (List.replicate 4 (ack 0) ++ [ack 0xA5])) =
    some ([.start, .addr 0x55 .write 0, .send 0xFF 0, .send 0xFF 0, .stop, .start, .addr 0x55 .read 0, .recv .nack 0xA5,
      .stop], some .ok) := by decide

theorem test_read_byte_range : seen (.readByte 0xFFFFFFFF) (ready v2m 0x54 []) = some ([], some .addressError) := by decide

/-- 1.3, scenario 4. -/
theorem test_read_sequential :
    seen (.readSequential 0x100 4) (mocked v2m 0x54 (List.replicate 4 (ack 0) ++ [ack 0xA, ack 0xB, ack 0xC, ack 0xD])) =
      some ([.start, .addr 0x54 .write 0, .send 0x01 0, .send 0x00 0, .stop, .start, .addr 0x54 .read 0, .recv .ack 0xA,
        .recv .ack 0xB, .recv .ack 0xC, .recv .nack 0xD, .stop], some .ok) := by decide

/-- 2.6, last row: in ENV the read that starts at the last byte wraps to address 0. -/
theorem test_read_sequential_wraps :
    (after (exec (.readSequential 0x3FFFF 2) (ready v2m 0x54 [{ chip4 with mem := [(0, 0x22), (0x3FFFF, 0x11)] }]))).map
      (fun t => t.outBuf) = some [0x11, 0x22] := by decide

/-- 95_test_vectors.md P1, step 2: the byte is stored and the pointer is one past it. -/
theorem test_write_byte_stores :
    (after (exec (.writeByte 0x2ABCD 0x5A) (ready v2m 0x54 [chip4]))).map (fun t => t.env.chips) =
      some [{ chip4 with mem := [(0x2ABCD, 0x5A)], ptr := 0x2ABCE, stage := [0x5A] }] := by decide

/-! ### For every statement with hypotheses, a state and operands that meet them (each clause, at its bounds) -/

/-- A command gives a next state. -/
def Gives (i : Instr) (s : State) (p : State → Prop) : Prop := ∃ t, exec i s = .next t ∧ p t

theorem gives {i : Instr} {s : State} {p : State → Prop} (q : State → Bool) (hq : ∀ t, q t = true → p t)
    (h : (after (exec i s)).any q = true) : Gives i s p := by
  obtain ⟨t, ht, hp⟩ := next_of q h
  exact ⟨t, ht, hq t hp⟩

theorem step_gives {s : State} (q : State → Bool) (h : (after (step s)).any q = true) :
    ∃ t, step s = .next t ∧ q t = true := next_of q h

theorem ready_cfg {c : Config} (h : admitted c = true) (v : Dev7) (chips : List Chip) : (ready c v chips).ReadyIO :=
  ⟨⟨h, rfl⟩, rfl⟩

theorem mocked_ready {c : Config} (h : admitted c = true) (v : Dev7) (draws : List Draw) : (mocked c v draws).ReadyIO :=
  ⟨⟨h, rfl⟩, rfl⟩

/-- The chip of the examples as a well-formed environment. -/
theorem chip4_wf : ({ Env.atReset with chips := [chip4] } : Env).WellFormed v2m where
  strapsInMask := by decide
  strapsDistinct := by decide
  pointersInside := by decide
  arraysCanonical := by unfold Env.ArraysCanonical; decide
  nackNonzero := by decide
  nackFits := by decide

theorem ready_dsbFields (chips : List Chip) : (ready v2m 0x54 chips).DsbFields :=
  fun _ => ⟨(by decide : (0x54 : Dev7) &&& v2m.addrHighMask = 0),
    (by decide : (0x54 : Dev7) &&& ~~~(v2m.addrHighMask ||| v2m.addrPinMask) = v2m.baseAddr)⟩

theorem witness_DecodeInvertsEncode :
    (Instr.writePage 65535 65535 [1]).operandsFit Config.atReset = true ∧
    (Instr.writeByte 0xFFFFFFFF 0xFF).operandsFit Config.atReset = true := by decide

theorem witness_EveryRecordIsItsCodesCommand :
    2 ^ 84 - 1 < 2 ^ recordBits Config.atReset ∧ 2 ^ recordBits Config.atReset ≤ 2 ^ 84 := by decide

/-- A state whose host offers one command. -/
def offering (s : State) (r : Command) : State := { s with port := [r] }

theorem witness_StepRunsDecodedCommand :
    (offering State.reset ⟨2, []⟩).seq = .idle ∧ (offering State.reset ⟨2, []⟩).port = [⟨2, []⟩] ∧
    decode Config.atReset ⟨2, []⟩ = .ok (.wp .disabled) ∧ (Instr.wp .disabled).wellFormed Config.atReset = true := by decide

theorem witness_AbsentCommandsRefused :
    decode v2m ⟨1, []⟩ = .ok (.selectDevice 0) ∧ (Instr.selectDevice 0).existsIn v2m = false ∧
    decode v2m ⟨2, []⟩ = .ok (.wp .disabled) ∧ (Instr.wp .disabled).existsIn v2m = false ∧
    (offering (ready v2m 0x54 []) ⟨1, []⟩).seq = .idle ∧ v2m.multiDevices = false ∧ v2m.wpControl = false := by decide

/-- A page of three bytes of which the host presents two: all three are sent, the presented ones first. -/
theorem witness_ShortBufferRuns :
    (offering (ready v2m 0x54 [chip4]) ⟨4 + 2 ^ 43 * 1023 + 2 ^ 59 * 3, [0x11, 0x22]⟩).ReadyIO ∧
    decode v2m ⟨4 + 2 ^ 43 * 1023 + 2 ^ 59 * 3, [0x11, 0x22]⟩ = .ok (.writePage 1023 3 [0x11, 0x22]) ∧
    1023 < v2m.pages ∧ 3 < v2m.pageSize ∧
    ∃ t, step (offering (ready v2m 0x54 [chip4]) ⟨4 + 2 ^ 43 * 1023 + 2 ^ 59 * 3, [0x11, 0x22]⟩) = .next t ∧
      (t.status == some .ok && t.bufPort.length == 3 && t.portDrawn == 1 &&
        (t.trace.drop 4).take 2 == [.send 0x11 0, .send 0x22 0]) = true :=
  ⟨⟨⟨by decide, rfl⟩, rfl⟩, by decide, by decide, by decide, step_gives _ (by decide)⟩

/-- `MEMORY_SIZE` above 2 Mbit, and a base address that overlaps a mask (93_implementation_defined.md U15). -/
theorem witness_InadmissibleConfigurationRefused :
    admitted { v2m with memorySize := 0x80000, pages := 2048 } = false ∧ admitted { v2m with baseAddr := 0x51 } = false := by
  decide

theorem witness_NoCommandAcceptedWhileOneRuns :
    admitted (polling []).cfg = true ∧ (polling []).seq = .pollStart ∧ Instr.init.existsIn (polling []).cfg = true := by decide

theorem witness_CommandsBeforeInitFault : State.reset.Ready ∧ State.reset.dsbSet = false := ⟨⟨by decide, rfl⟩, rfl⟩

theorem witness_InitResult : State.reset.Ready := ⟨by decide, rfl⟩

theorem witness_SelectDeviceResult : State.reset.Ready ∧ State.reset.cfg.multiDevices = true := ⟨⟨by decide, rfl⟩, rfl⟩

theorem witness_SelectDeviceTakesPinBitsOnly :
    Gives (.selectDevice 0xFF) State.reset (fun t => t.dsb = 0x54) ∧ 262144 ≤ State.reset.cfg.memorySize ∧
    Gives (.selectDevice 0xFF) (ready v1m 0x50 []) (fun t => t.dsb = 0x56) ∧ v1m.memorySize < 262144 :=
  ⟨gives (fun t => t.dsb == 0x54) (by simp) (by decide), by decide,
   gives (fun t => t.dsb == 0x56) (by simp) (by decide), by decide⟩

theorem witness_WpResult : State.reset.Ready ∧ State.reset.cfg.wpControl = true := ⟨⟨by decide, rfl⟩, rfl⟩

theorem witness_EncoderInvertible :
    admitted v2m = true ∧ (0x54 : Dev7) &&& v2m.addrHighMask = 0 ∧ Addressable v2m ∧ 0x3FFFF < v2m.memorySize ∧
    admitted v1m = true ∧ (0x56 : Dev7) &&& v1m.addrHighMask = 0 ∧ Addressable v1m ∧ 0x1FFFF < v1m.memorySize := by
  unfold Addressable; decide

theorem witness_DeviceValueBits :
    (262144 ≤ v2m.memorySize ∧ admitted v2m = true ∧ (0x54 : Dev7) &&& v2m.addrHighMask = 0) ∧
    v1m.memorySize < 262144 ∧ admitted v1m = true ∧ (0x56 : Dev7) &&& v1m.addrHighMask = 0 := by decide

theorem witness_PageWriteStaysInPage : admitted v2m = true ∧ 1023 < v2m.pages ∧ 255 < v2m.pageSize := by decide

theorem witness_AddressErrorWithoutTraffic :
    (ready v2m 0x54 []).ReadyIO ∧ v2m.memorySize ≤ 0x40000 ∧
    Gives (.writeByte 0x40000 0) (ready v2m 0x54 []) (fun t => t.status = some .addressError) :=
  ⟨ready_cfg (by decide) _ _, by decide, gives (fun t => t.status == some .addressError) (by simp) (by decide)⟩

theorem witness_PageErrorWithoutTraffic :
    (ready v2m 0x54 []).ReadyIO ∧ v2m.pages ≤ 1024 ∧
    Gives (.writePage 1024 0 []) (ready v2m 0x54 []) (fun t => t.status = some .pageError) :=
  ⟨ready_cfg (by decide) _ _, by decide, gives (fun t => t.status == some .pageError) (by simp) (by decide)⟩

theorem witness_SizeErrorWithoutTraffic :
    (ready v2m 0x54 []).ReadyIO ∧ 1023 < v2m.pages ∧ v2m.pageSize ≤ 256 ∧ 0x3FFFF < v2m.memorySize ∧
    Gives (.writePage 1023 256 []) (ready v2m 0x54 []) (fun t => t.status = some .sizeError) ∧
    Gives (.writePage 1023 0 []) (ready v2m 0x54 []) (fun t => t.status = some .sizeError) ∧
    Gives (.readSequential 0x3FFFF 0) (ready v2m 0x54 []) (fun t => t.status = some .sizeError) :=
  ⟨ready_cfg (by decide) _ _, by decide, by decide, by decide,
   gives (fun t => t.status == some .sizeError) (by simp) (by decide),
   gives (fun t => t.status == some .sizeError) (by simp) (by decide),
   gives (fun t => t.status == some .sizeError) (by simp) (by decide)⟩

theorem witness_WriteByteResult :
    (ready v2m 0x54 [chip4]).ReadyIO ∧ v2m.ackPolling = false ∧ 0x3FFFF < v2m.memorySize ∧
    (ready v1m 0x56 []).ReadyIO ∧ v1m.ackPolling = true ∧ 0x1FFFF < v1m.memorySize :=
  ⟨ready_cfg (by decide) _ _, rfl, by decide, ready_cfg (by decide) _ _, rfl, by decide⟩

theorem witness_WritePageResult :
    (ready v2m 0x54 [chip4]).ReadyIO ∧ 1023 < v2m.pages ∧ 255 ≠ 0 ∧ 255 < v2m.pageSize ∧
    511 < v1m.pages ∧ 1 < v1m.pageSize :=
  ⟨ready_cfg (by decide) _ _, by decide, by decide, by decide, by decide, by decide⟩

theorem witness_PollingAttempt :
    admitted (polling [chip4]).cfg = true ∧ (polling [chip4]).seq = .pollStart ∧
    (polling [chip4]).a < (polling [chip4]).cfg.memorySize ∧ (polling [chip4]).op = 3 ∧
    admitted pollingPage.cfg = true ∧ pollingPage.seq = .pollStart ∧ pollingPage.a < pollingPage.cfg.memorySize ∧
    pollingPage.op = 4 ∧ pollingPage.n ≠ 0 ∧ pollingPage.n ≤ pollingPage.bufPort.length := by decide

theorem witness_PollingAbsentChipNeverReturns :
    admitted (polling []).cfg = true ∧ (polling []).seq = .pollStart ∧ (polling []).env.kind = .chips ∧
    (polling []).env.nackSet ≠ 0 ∧ selectedChip (polling []) = none := by decide

/-- A transport that refuses twice, the second time with a richer fault set, and then acknowledges. -/
def pollingMock : State :=
  { polling [] with env :=
      { Env.atReset with kind := .mock, draws := [nack 0, { nack 0 with fault := 0x80 }, ack 0, ack 0] } }

theorem witness_PollingEndsAtFirstAcknowledge :
    admitted pollingMock.cfg = true ∧ pollingMock.seq = .pollStart ∧ pollingMock.status = none ∧
    pollingMock.env.kind = .mock ∧
    pollingMock.env.draws = [nack 0, { nack 0 with fault := 0x80 }] ++ ack 0 :: [ack 0] ∧
    (∀ d ∈ [nack 0, { nack 0 with fault := 0x80 }], faultSet pollingMock.cfg d.fault ≠ 0) ∧
    faultSet pollingMock.cfg (ack 0).fault = 0 := by decide

theorem witness_WritesEndProtected :
    Gives (.writeByte 0 0) (ready { v2m with wpControl := true } 0x54 [chip4]) (fun t => t.env.wpLevel = .high) ∧
    Gives (.writeByte 0x40000 0) (ready { v2m with wpControl := true } 0x54 [chip4])
      (fun t => t.status = some .addressError) ∧
    Gives (.writePage 1024 1 [1]) (ready { v2m with wpControl := true } 0x54 [chip4]) (fun t => t.status = some .pageError) ∧
    Gives (.writePage 0 256 []) (ready { v2m with wpControl := true } 0x54 [chip4]) (fun t => t.status = some .sizeError) ∧
    Gives (.writePage 0 1 [1]) (ready v1m 0x56 []) (fun t => t.seq = .pollStart ∧ t.env.wpLevel = .low) ∧
    (polling []).cfg.wpControl = true ∧ (polling []).seq = .pollStart ∧
    (∃ t, step (polling []) = .next t ∧ (t.seq == .pollStart && t.env.wpLevel == .low) = true) ∧
    ∃ t, step (polling [chip4]) = .next t ∧ (t.seq == .idle && t.env.wpLevel == .high) = true :=
  ⟨gives (fun t => t.env.wpLevel == .high) (by simp) (by decide),
   gives (fun t => t.status == some .addressError) (by simp) (by decide),
   gives (fun t => t.status == some .pageError) (by simp) (by decide),
   gives (fun t => t.status == some .sizeError) (by simp) (by decide),
   gives (fun t => t.seq == .pollStart && t.env.wpLevel == .low) (by simp) (by decide), rfl, rfl,
   step_gives _ (by decide), step_gives _ (by decide)⟩

theorem witness_WaitStrategiesExclusive :
    Gives (.writeByte 0 0) (ready v2m 0x54 [chip4]) (fun t => Call.waitMs 10 ∈ t.trace ∧ pollsIn t.trace = false) ∧
    Gives (.writeByte 0 0) (ready v1m 0x56 []) (fun t => t.seq = .pollStart ∧ pollsIn t.trace = true) :=
  ⟨gives (fun t => decide (Call.waitMs 10 ∈ t.trace) && !pollsIn t.trace) (by simp) (by decide),
   gives (fun t => t.seq == .pollStart && pollsIn t.trace) (by simp) (by decide)⟩

theorem witness_ReadResults :
    (ready v2m 0x54 [chip4]).ReadyIO ∧ 0x3FFFF < v2m.memorySize ∧ (mocked v1m 0x50 []).ReadyIO ∧ 1 ≠ 0 :=
  ⟨ready_cfg (by decide) _ _, by decide, mocked_ready (by decide) _ _, by decide⟩

theorem witness_TerminalNackOnly :
    0x3FFFF < v2m.memorySize ∧
    Gives (.readSequential 0x3FFFF 1) (ready v2m 0x54 []) (fun t => t.status = some .transportError) ∧
    Gives (.readSequential 0x3FFFF 2) (ready v2m 0x54 [chip4]) (fun t => t.status = some .ok) :=
  ⟨by decide, gives (fun t => t.status == some .transportError) (by simp) (by decide),
   gives (fun t => t.status == some .ok) (by simp) (by decide)⟩

/-- Every invariant's premises: the reset state with INIT offered takes a step. -/
theorem witness_invariants_idle :
    (offering State.reset ⟨0, []⟩).BusProtocol ∧ (offering State.reset ⟨0, []⟩).DsbFields ∧
    (offering State.reset ⟨0, []⟩).PollingShape ∧ (offering State.reset ⟨0, []⟩).PollingBuffer ∧
    (offering State.reset ⟨0, []⟩).env.ArraysCanonical (offering State.reset ⟨0, []⟩).cfg ∧
    ∃ t, step (offering State.reset ⟨0, []⟩) = .next t ∧ (t.dsb == 0x50) = true :=
  ⟨(by decide : busPhaseAfter (some .closed) [] = some .closed), fun h => absurd h (by decide), fun h => absurd h (by decide),
   fun h => absurd h (by decide), by unfold Env.ArraysCanonical; decide, step_gives _ (by decide)⟩

/-- The same in the polling loop. -/
theorem witness_invariants_polling :
    (polling []).BusProtocol ∧ (polling []).DsbFields ∧ (polling []).PollingShape ∧
    ∃ t, step (polling []) = .next t ∧ (t.seq == .pollStart) = true :=
  ⟨(by decide : busPhaseAfter (some .closed) (polling []).trace = some (.writing false)), fun _ => by decide, fun _ => by decide, step_gives _ (by decide)⟩

/-- A page in the polling loop with exactly its bytes presented, still there after a refused attempt. -/
theorem witness_PollingShapeInvariant_page :
    { polling [] with op := 4, n := 2, bufPort := [0xDE, 0xAD] }.PollingShape ∧
    { polling [] with op := 4, n := 2, bufPort := [0xDE, 0xAD] }.PollingBuffer ∧
    ∃ t, step { polling [] with op := 4, n := 2, bufPort := [0xDE, 0xAD] } = .next t ∧
      (t.seq == .pollStart && t.op == 4 && t.bufPort == [0xDE, 0xAD]) = true :=
  ⟨fun _ => by decide, fun _ _ => by decide, step_gives _ (by decide)⟩

theorem witness_EnvironmentWellFormedInvariant :
    (offering (ready v2m 0x54 [chip4]) ⟨0, []⟩).DsbFields ∧ (offering (ready v2m 0x54 [chip4]) ⟨0, []⟩).PollingShape ∧
    (offering (ready v2m 0x54 [chip4]) ⟨0, []⟩).env.WellFormed v2m ∧
    ∃ t, step (offering (ready v2m 0x54 [chip4]) ⟨0, []⟩) = .next t ∧ (t.status == some .ok) = true :=
  ⟨fun _ => by decide, fun h => absurd h (by decide), chip4_wf, step_gives _ (by decide)⟩

theorem witness_OnlyInitAndSelectWriteDsb :
    Gives (.wp .enabled) State.reset (fun t => t.status = some .ok) ∧ (polling []).seq = .pollStart ∧
    ∃ t, step (polling []) = .next t ∧ (t.dsb == 0x54) = true :=
  ⟨gives (fun t => t.status == some .ok) (by simp) (by decide), rfl, step_gives _ (by decide)⟩

theorem witness_ConfigurationFixedTraceGrows :
    ∃ t, step (offering State.reset ⟨2, []⟩) = .next t ∧ (t.trace == [.wp .low]) = true := step_gives _ (by decide)

theorem witness_StatusTable :
    Gives (.readByte 0) (ready v2m 0x54 []) (fun t => t.seq = .idle ∧ t.status = some .transportError) ∧
    Gives (.writeByte 0 0) (ready v1m 0x56 []) (fun t => t.seq = .pollStart ∧ t.status = none) ∧
    (polling [chip4]).PollingShape ∧ (polling [chip4]).seq = .pollStart ∧
    ∃ t, step (polling [chip4]) = .next t ∧ (t.seq == .idle && t.status == some .ok) = true :=
  ⟨gives (fun t => t.seq == .idle && t.status == some .transportError) (by simp) (by decide),
   gives (fun t => t.seq == .pollStart && t.status == none) (by simp) (by decide), fun _ => by decide, rfl,
   step_gives _ (by decide)⟩

theorem witness_GeneralErrorNever :
    Gives .init State.reset (fun t => t.status = some .ok) ∧ (offering State.reset ⟨0, []⟩).status ≠ some .generalError ∧
    ∃ t, step (offering State.reset ⟨0, []⟩) = .next t ∧ (t.status == some .ok) = true :=
  ⟨gives (fun t => t.status == some .ok) (by simp) (by decide), by decide, step_gives _ (by decide)⟩

theorem witness_InputOutputFrame :
    Gives (.writeByte 0 1) (ready v2m 0x54 [chip4]) (fun t => t.status = some .ok) ∧
    Gives (.writePage 0 1 [1]) (ready v2m 0x54 [chip4]) (fun t => t.status = some .ok) ∧
    Gives .readCurrentByte (ready v2m 0x54 [chip4]) (fun t => t.status = some .ok) ∧
    Gives (.readByte 0) (ready v2m 0x54 [chip4]) (fun t => t.status = some .ok) ∧
    Gives (.readSequential 0 1) (ready v2m 0x54 [chip4]) (fun t => t.status = some .ok) ∧
    pollingPage.seq = .pollStart ∧ ∃ t, step pollingPage = .next t ∧ (t.seq == .idle) = true :=
  ⟨gives (fun t => t.status == some .ok) (by simp) (by decide), gives (fun t => t.status == some .ok) (by simp) (by decide),
   gives (fun t => t.status == some .ok) (by simp) (by decide), gives (fun t => t.status == some .ok) (by simp) (by decide),
   gives (fun t => t.status == some .ok) (by simp) (by decide), rfl, step_gives _ (by decide)⟩

/-- The same command in two environments, one with the chip and one without. -/
theorem witness_RequestsIndependentOfAnswers :
    v2m.ackPolling = false ∧ v2m.integrityCheck = false ∧
    Gives (.readByte 0) (ready v2m 0x54 [chip4]) (fun t => t.status = some .ok) ∧
    Gives (.readByte 0) { ready v2m 0x54 [chip4] with env := { Env.atReset with chips := [] } }
      (fun t => t.status = some .transportError) :=
  ⟨rfl, rfl, gives (fun t => t.status == some .ok) (by simp) (by decide),
   gives (fun t => t.status == some .transportError) (by simp) (by decide)⟩

/-- What an earlier command may have left: a fault, a code, operands and a status. -/
def withResidue : State :=
  { ready v2m 0x54 [chip4] with fault := 1, op := 7, a := 9, n := 2, status := some .transportError }

theorem witness_NoResidueBetweenCommands :
    withResidue = { ready v2m 0x54 [chip4] with
      fault := withResidue.fault
      op := withResidue.op
      a := withResidue.a
      d := withResidue.d
      n := withResidue.n
      i := withResidue.i
      bufPort := withResidue.bufPort
      rb := withResidue.rb
      status := withResidue.status } ∧
    Gives (.readByte 0) (ready v2m 0x54 [chip4]) (fun t => t.status = some .ok) :=
  ⟨rfl, gives (fun t => t.status == some .ok) (by simp) (by decide)⟩

theorem witness_DeviceValueFindsItsChip :
    admitted v2m = true ∧ ({ Env.atReset with chips := [chip4] } : Env).WellFormed v2m ∧ [chip4][0]? = some chip4 :=
  ⟨by decide, chip4_wf, rfl⟩

theorem witness_ArraysUnchangedWithoutWrite :
    Gives (.readSequential 0 2) (ready v2m 0x54 [{ chip4 with mem := [(1, 7)] }]) (fun t => byteAt t.env 0 1 = some 7) :=
  gives (fun t => byteAt t.env 0 1 == some 7) (by simp) (by decide)

/-- A size between the two variants (log 32): 192 KiB with the one-bit mask. -/
def between : Config := { v2m with memorySize := 0x30000, pages := 768, addrHighMask := 0x01, addrPinMask := 0x06 }

/-- Its last address and its last page reach the byte and the page 0x20000 below them. -/
theorem witness_between :
    admitted between = true ∧ ¬ Addressable between ∧ wireAddr between 0x54 0x2FFFF = 0xFFFF ∧
    Gives (.writeByte 0x2FFFF 9) (ready between 0x54 [chip4]) (fun t => t.status = some .ok ∧
      byteAt t.env 0 0xFFFF = some 9 ∧ byteAt t.env 0 0x2FFFF = some 0xFF ∧
      (t.env.chips[0]?).map Chip.ptr = some 0x10000) ∧
    Gives (.writePage 767 2 [1, 2]) (ready between 0x54 [chip4]) (fun t => t.status = some .ok ∧
      byteAt t.env 0 0xFF01 = some 2 ∧ (t.env.chips[0]?).map Chip.ptr = some 0xFF02) :=
  ⟨by decide, by unfold Addressable; decide, by decide,
   gives (fun t => t.status == some .ok && (byteAt t.env 0 0xFFFF == some 9 && (byteAt t.env 0 0x2FFFF == some 0xFF &&
      (t.env.chips[0]?).map Chip.ptr == some 0x10000))) (by simp) (by decide),
   gives (fun t => t.status == some .ok && (byteAt t.env 0 0xFF01 == some 2 &&
      (t.env.chips[0]?).map Chip.ptr == some 0xFF02)) (by simp) (by decide)⟩

/-- The bytes next to the stored ones, in the chip written. -/
theorem witness_WritesChangeOnlyTheirBytes :
    Addressable v2m ∧ selectedChip (ready v2m 0x54 [chip4]) = some 0 ∧
    Gives (.writeByte 0x2ABCD 0x5A) (ready v2m 0x54 [chip4])
      (fun t => byteAt t.env 0 0x2ABCC = some 0xFF ∧ byteAt t.env 0 0x2ABCD = some 0x5A ∧
        byteAt t.env 0 0x2ABCE = some 0xFF) ∧
    Gives (.writePage 3 2 [1, 2]) (ready v2m 0x54 [chip4])
      (fun t => byteAt t.env 0 0x2FF = some 0xFF ∧ byteAt t.env 0 0x301 = some 2 ∧ byteAt t.env 0 0x302 = some 0xFF) ∧
    (polling [chip4]).seq = .pollStart ∧ ∃ t, step (polling [chip4]) = .next t ∧ (t.seq == .idle) = true :=
  ⟨by unfold Addressable; decide, by decide,
   gives (fun t => byteAt t.env 0 0x2ABCC == some 0xFF && (byteAt t.env 0 0x2ABCD == some 0x5A &&
      byteAt t.env 0 0x2ABCE == some 0xFF)) (by simp) (by decide),
   gives (fun t => byteAt t.env 0 0x2FF == some 0xFF && (byteAt t.env 0 0x301 == some 2 &&
      byteAt t.env 0 0x302 == some 0xFF)) (by simp) (by decide),
   rfl, step_gives _ (by decide)⟩

/-- `s` after a command, for a second one. -/
def afterOr (i : Instr) (s : State) : State := (after (exec i s)).getD s

theorem next_afterOr {i : Instr} {s : State} (h : (after (exec i s)).isSome = true) : exec i s = .next (afterOr i s) := by
  unfold afterOr
  cases hx : exec i s <;> simp_all [after]

/-- P1 of 95_test_vectors.md, its commands 2 and 3. -/
theorem witness_ByteRoundTrip :
    (ready v2m 0x54 [chip4]).DsbFields ∧ (ready v2m 0x54 [chip4]).env.HasChips ∧
    (ready v2m 0x54 [chip4]).env.WellFormed v2m ∧
    Gives (.writeByte 0x2ABCD 0x5A) (ready v2m 0x54 [chip4]) (fun t => t.status = some .ok ∧
      Gives (.readByte 0x2ABCD) t (fun u => u.status = some .ok ∧ u.out = 0x5A)) :=
  ⟨ready_dsbFields _, .inl rfl, chip4_wf,
   afterOr (.writeByte 0x2ABCD 0x5A) (ready v2m 0x54 [chip4]), next_afterOr (by decide), by decide,
   gives (fun u => u.status == some .ok && u.out == 0x5A) (by simp) (by decide)⟩

/-- A polling instance whose chip stays busy for two attempts after the write. -/
def busyTwice : State :=
  { ready { v2m with ackPolling := true } 0x54 [chip4] with env :=
    { Env.atReset with chips := [chip4], draws := List.replicate 6 (nack 0) ++ List.replicate 9 (ack 0) } }

/-- The state a run of `k` steps ends in. -/
def runOr (k : Nat) (s : State) : State := (after (core.run k s)).getD s

theorem run_runOr {k : Nat} {s : State} (h : (after (core.run k s)).isSome = true) : core.run k s = .next (runOr k s) := by
  unfold runOr
  cases hx : core.run k s with
  | next t => rfl
  | fault f => rw [hx] at h; cases h
  | refused r => rw [hx] at h; cases h

/-- The write waits in the loop; two further steps end it; the read gives the byte back. -/
theorem witness_ByteRoundTripThroughPolling :
    busyTwice.port = [] ∧ exec (.writeByte 0x2ABCD 0x5A) busyTwice = .next (afterOr (.writeByte 0x2ABCD 0x5A) busyTwice) ∧
    (afterOr (.writeByte 0x2ABCD 0x5A) busyTwice).seq = .pollStart ∧
    core.run 2 (afterOr (.writeByte 0x2ABCD 0x5A) busyTwice) = .next (runOr 2 (afterOr (.writeByte 0x2ABCD 0x5A) busyTwice)) ∧
    (runOr 2 (afterOr (.writeByte 0x2ABCD 0x5A) busyTwice)).status = some .ok ∧
    Gives (.readByte 0x2ABCD) (runOr 2 (afterOr (.writeByte 0x2ABCD 0x5A) busyTwice))
      (fun u => u.status = some .ok ∧ u.out = 0x5A) :=
  ⟨rfl, next_afterOr (by decide), by decide, run_runOr (by decide), by decide,
   gives (fun u => u.status == some .ok && u.out == 0x5A) (by simp) (by decide)⟩

theorem witness_ByteRoundTripThroughPolling_env :
    busyTwice.DsbFields ∧ busyTwice.env.HasChips ∧ busyTwice.env.WellFormed busyTwice.cfg where
  left := fun _ => by decide
  right := ⟨.inl rfl, {
    strapsInMask := by decide
    strapsDistinct := by decide
    pointersInside := by decide
    arraysCanonical := by unfold Env.ArraysCanonical; decide
    nackNonzero := by decide
    nackFits := by decide }⟩

theorem witness_ByteRoundTripCompletes :
    (ready v2m 0x54 [chip4]).ReadyIO ∧ (ready v2m 0x54 [chip4]).DsbFields ∧ (ready v2m 0x54 [chip4]).env.kind = .chips ∧
    (ready v2m 0x54 [chip4]).env.WellFormed v2m ∧ (ready v2m 0x54 [chip4]).ChipIdle 0 ∧ v2m.ackPolling = false ∧
    0x3FFFF < v2m.memorySize :=
  ⟨ready_cfg (by decide) _ _, ready_dsbFields _, rfl, chip4_wf, ⟨by decide, by decide⟩, rfl,
   by decide⟩

theorem witness_PageRoundTrip :
    (ready v2m 0x54 [chip4]).DsbFields ∧ (ready v2m 0x54 [chip4]).env.HasChips ∧
    (ready v2m 0x54 [chip4]).env.WellFormed v2m ∧ 2 ≤ ([0xDE, 0xAD] : List Byte).length ∧
    Gives (.writePage 1023 2 [0xDE, 0xAD]) (ready v2m 0x54 [chip4]) (fun t => t.status = some .ok ∧
      Gives (.readSequential (pageAddress v2m 1023) 2) t (fun u => u.status = some .ok ∧ u.outBuf = [0xDE, 0xAD])) :=
  ⟨ready_dsbFields _, .inl rfl, chip4_wf, by decide,
   afterOr (.writePage 1023 2 [0xDE, 0xAD]) (ready v2m 0x54 [chip4]), next_afterOr (by decide), by decide,
   gives (fun u => u.status == some .ok && u.outBuf == [0xDE, 0xAD]) (by simp) (by decide)⟩

theorem witness_CurrentReadFollowsPointer :
    (ready v2m 0x54 [{ chip4 with ptr := 0x3FFFF }]).ReadyIO ∧ (ready v2m 0x54 [{ chip4 with ptr := 0x3FFFF }]).env.kind = .chips ∧
    (ready v2m 0x54 [{ chip4 with ptr := 0x3FFFF }]).ChipIdle 0 ∧
    (ready v2m 0x54 [{ chip4 with ptr := 0x3FFFF }]).env.chips[0]? = some { chip4 with ptr := 0x3FFFF } :=
  ⟨ready_cfg (by decide) _ _, rfl, ⟨by decide, by decide⟩, rfl⟩

/-- The last byte of the memory: the pointer wraps. -/
theorem witness_PointerFollowsLastAccess :
    (ready v2m 0x54 [chip4]).DsbFields ∧ (ready v2m 0x54 [chip4]).env.HasChips ∧
    (ready v2m 0x54 [chip4]).env.WellFormed v2m ∧ selectedChip (ready v2m 0x54 [chip4]) = some 0 ∧
    Gives (.writeByte 0x3FFFF 1) (ready v2m 0x54 [chip4])
      (fun t => t.status = some .ok ∧ (t.env.chips[0]?).map Chip.ptr = some 0) ∧
    Gives (.writePage 1023 2 [1, 2]) (ready v2m 0x54 [chip4])
      (fun t => t.status = some .ok ∧ (t.env.chips[0]?).map Chip.ptr = some 0x3FF02) ∧
    Gives (.readByte 0x3FFFF) (ready v2m 0x54 [chip4])
      (fun t => t.status = some .ok ∧ (t.env.chips[0]?).map Chip.ptr = some 0) ∧
    Gives (.readSequential 0x3FFFF 2) (ready v2m 0x54 [chip4])
      (fun t => t.status = some .ok ∧ (t.env.chips[0]?).map Chip.ptr = some 1) :=
  ⟨ready_dsbFields _, .inl rfl, chip4_wf, by decide,
   gives (fun t => t.status == some .ok && (t.env.chips[0]?).map Chip.ptr == some 0) (by simp) (by decide),
   gives (fun t => t.status == some .ok && (t.env.chips[0]?).map Chip.ptr == some 0x3FF02) (by simp) (by decide),
   gives (fun t => t.status == some .ok && (t.env.chips[0]?).map Chip.ptr == some 0) (by simp) (by decide),
   gives (fun t => t.status == some .ok && (t.env.chips[0]?).map Chip.ptr == some 1) (by simp) (by decide)⟩

/-- Polling without read-back moves no pointer. -/
theorem witness_PointerFollowsLastAccess_polling :
    (polling [chip4]).seq = .pollStart ∧ (polling [chip4]).cfg.integrityCheck = false ∧
    ∃ t, step (polling [chip4]) = .next t ∧ (t.seq == .idle && t.env.chips.map Chip.ptr == [0]) = true :=
  ⟨rfl, rfl, step_gives _ (by decide)⟩

/-- The same loop with read-back: a page write whose chip holds its two bytes, its pointer past them. -/
def pollingVerify (chips : List Chip) : State :=
  { pollingPage with
    cfg := { pollingPage.cfg with integrityCheck := true }
    a := 0x100
    env := { pollingPage.env with chips := chips } }

/-- A refused attempt with read-back moves no pointer; an acknowledged one ends past the bytes it compared. -/
theorem witness_PointerFollowsLastAccess_verify :
    (pollingVerify []).seq = .pollStart ∧
    (∃ t, step (pollingVerify [{ chip4 with pins := 0x00, ptr := 7 }]) = .next t ∧
      (t.seq == .pollStart && t.env.chips.map Chip.ptr == [7]) = true) ∧
    (pollingVerify [{ chip4 with mem := [(0x100, 0xDE), (0x101, 0xAD)], ptr := 7 }]).env.HasChips ∧
    (pollingVerify []).env.nackSet ≠ 0 ∧ (pollingVerify []).cfg.integrityCheck = true ∧
    selectedChip (pollingVerify [{ chip4 with mem := [(0x100, 0xDE), (0x101, 0xAD)], ptr := 7 }]) = some 0 ∧
    ∃ t, step (pollingVerify [{ chip4 with mem := [(0x100, 0xDE), (0x101, 0xAD)], ptr := 7 }]) = .next t ∧
      (t.seq == .idle && t.status == some .ok && t.env.chips.map Chip.ptr == [0x102]) = true :=
  ⟨rfl, step_gives _ (by decide), .inl rfl, by decide, rfl, by decide, step_gives _ (by decide)⟩

/-- The page write waits in the loop; two further steps end it; the read gives the bytes back. -/
theorem witness_PageRoundTripThroughPolling :
    busyTwice.DsbFields ∧ busyTwice.env.HasChips ∧ busyTwice.env.WellFormed busyTwice.cfg ∧ busyTwice.port = [] ∧
    2 ≤ ([0xDE, 0xAD] : List Byte).length ∧
    exec (.writePage 1023 2 [0xDE, 0xAD]) busyTwice = .next (afterOr (.writePage 1023 2 [0xDE, 0xAD]) busyTwice) ∧
    (afterOr (.writePage 1023 2 [0xDE, 0xAD]) busyTwice).seq = .pollStart ∧
    core.run 2 (afterOr (.writePage 1023 2 [0xDE, 0xAD]) busyTwice) =
      .next (runOr 2 (afterOr (.writePage 1023 2 [0xDE, 0xAD]) busyTwice)) ∧
    (runOr 2 (afterOr (.writePage 1023 2 [0xDE, 0xAD]) busyTwice)).status = some .ok ∧
    Gives (.readSequential (pageAddress busyTwice.cfg 1023) 2) (runOr 2 (afterOr (.writePage 1023 2 [0xDE, 0xAD]) busyTwice))
      (fun u => u.status = some .ok ∧ u.outBuf = [0xDE, 0xAD]) :=
  ⟨witness_ByteRoundTripThroughPolling_env.1, witness_ByteRoundTripThroughPolling_env.2.1,
   witness_ByteRoundTripThroughPolling_env.2.2, rfl, by decide, next_afterOr (by decide), by decide, run_runOr (by decide),
   by decide, gives (fun u => u.status == some .ok && u.outBuf == [0xDE, 0xAD]) (by simp) (by decide)⟩

/-- A fixed-delay write with another chip in a write cycle, and a write that ends at a polling step. -/
theorem witness_ChipsReadyAfterWrite :
    (ready v2m 0x54 [chip4, { Chip.fresh 0x00 with busy := true }]).env.HasChips ∧
    Gives (.writeByte 0x3FFFF 1) (ready v2m 0x54 [chip4, { Chip.fresh 0x00 with busy := true }])
      (fun t => t.seq = .idle ∧ t.env.chips.map Chip.busy = [false, false]) ∧
    Gives (.writePage 1023 1 [1]) (ready v2m 0x54 [chip4]) (fun t => t.env.chips.map Chip.busy = [false]) ∧
    (polling [chip4]).env.HasChips ∧ (polling [chip4]).env.nackSet ≠ 0 ∧ (polling [chip4]).seq = .pollStart ∧
    selectedChip (polling [chip4]) = some 0 ∧
    ∃ t, step (polling [chip4]) = .next t ∧ (t.seq == .idle && t.env.chips.map Chip.busy == [false]) = true :=
  ⟨.inl rfl, gives (fun t => t.seq == .idle && t.env.chips.map Chip.busy == [false, false]) (by simp) (by decide),
   gives (fun t => t.env.chips.map Chip.busy == [false]) (by simp) (by decide), .inl rfl, by decide, rfl, by decide,
   step_gives _ (by decide)⟩

theorem witness_BoardUnchanged :
    (ready v2m 0x54 [chip4]).cfg.wpControl = false ∧
    ∃ t, step (offering (ready v2m 0x54 [chip4]) ⟨5, []⟩) = .next t ∧ (t.status == some .ok) = true :=
  ⟨rfl, step_gives _ (by decide)⟩

/-- P4 of 95_test_vectors.md: no chip at all, each of the five forms. -/
theorem witness_AbsentChipReportsTransportError :
    (ready v2m 0x54 []).DsbFields ∧ (ready v2m 0x54 []).env.HasChips ∧ (ready v2m 0x54 []).env.nackSet ≠ 0 ∧
    v2m.ackPolling = false ∧ selectedChip (ready v2m 0x54 []) = none ∧
    Gives (.writeByte 0x3FFFF 0xAA) (ready v2m 0x54 []) (fun t => t.status = some .transportError) ∧
    Gives (.writePage 1023 1 [1]) (ready v2m 0x54 []) (fun t => t.status = some .transportError) ∧
    Gives .readCurrentByte (ready v2m 0x54 []) (fun t => t.status = some .transportError) ∧
    Gives (.readByte 0x3FFFF) (ready v2m 0x54 []) (fun t => t.status = some .transportError) ∧
    Gives (.readSequential 0x3FFFF 1) (ready v2m 0x54 []) (fun t => t.status = some .transportError) :=
  ⟨ready_dsbFields _, .inl rfl, by decide, rfl, by decide,
   gives (fun t => t.status == some .transportError) (by simp) (by decide),
   gives (fun t => t.status == some .transportError) (by simp) (by decide),
   gives (fun t => t.status == some .transportError) (by simp) (by decide),
   gives (fun t => t.status == some .transportError) (by simp) (by decide),
   gives (fun t => t.status == some .transportError) (by simp) (by decide)⟩

end Sys2Proof.Tests
end

/-! PROOFS. An inadmissible configuration is refused everywhere (00_scope.md R8); no step changes the board
(20_memory.md R59). -/

namespace Sys2Proof.Machine

/-! ### Inadmissible configurations -/

section Inadmissible
variable {s : State} (hA : admitted s.cfg = false)
include hA

theorem accept_of_inadmissible (op : BitVec 3) (run : State → Host.Outcome State Fault Refusal) :
    accept op s run = .refused .badConfiguration := by
  simp [accept, hA]

theorem acceptIO_of_inadmissible (op : BitVec 3) (run : State → Host.Outcome State Fault Refusal) :
    acceptIO op s run = .refused .badConfiguration :=
  accept_of_inadmissible hA op _

theorem pollAgain_of_inadmissible : pollAgain s = .refused .badConfiguration := by
  simp [pollAgain, hA]

/-- Every command asks for acceptance; SELECT_DEVICE and WP look first whether they exist (30_encoding.md R73). -/
theorem exec_of_inadmissible (i : Instr) : ∃ r, exec i s = .refused r := by
  cases i with
  | init => simp [exec, execInit, accept_of_inadmissible hA]
  | selectDevice id =>
    simp only [exec, execSelectDevice, accept_of_inadmissible hA]
    split
    · exact ⟨_, rfl⟩
    · exact ⟨_, rfl⟩
  | wp mode =>
    simp only [exec, execWp, accept_of_inadmissible hA]
    split
    · exact ⟨_, rfl⟩
    · exact ⟨_, rfl⟩
  | writeByte a d => simp [exec, execWriteByte, acceptIO_of_inadmissible hA]
  | writePage p n buf => simp [exec, execWritePage, acceptIO_of_inadmissible hA]
  | readCurrentByte => simp [exec, execReadCurrentByte, acceptIO_of_inadmissible hA]
  | readByte a => simp [exec, execReadByte, acceptIO_of_inadmissible hA]
  | readSequential a n => simp [exec, execReadSequential, acceptIO_of_inadmissible hA]

/-- A step waits for a command, or is refused: at the poll, at the port, or by the command. -/
theorem step_of_inadmissible :
    (s.seq = .idle ∧ s.port = [] ∧ step s = .next s) ∨ ∃ r, step s = .refused r := by
  unfold step
  split
  · exact .inr ⟨_, pollAgain_of_inadmissible hA⟩
  · next hidle =>
    split
    · next hport => exact .inl ⟨hidle, hport, rfl⟩
    · next r rest _ =>
      right
      split
      · exact ⟨_, rfl⟩
      · next i _ => exact exec_of_inadmissible (s := { s with port := rest }) hA i

end Inadmissible

/-! ### The board -/

/-- From `e` to `e'` the board stayed: which environment it is, its NACK, the straps, and, without WP control,
the WP level (00_scope.md R6). -/
structure BoardKept (c : Config) (e e' : Env) : Prop where
  kind : e'.kind = e.kind
  nackSet : e'.nackSet = e.nackSet
  pins : e'.chips.map Chip.pins = e.chips.map Chip.pins
  wpLevel : c.wpControl = false → e'.wpLevel = e.wpLevel

section BoardKept
variable {c : Config} {e e' e'' : Env}

theorem BoardKept.refl (c : Config) (e : Env) : BoardKept c e e := ⟨rfl, rfl, rfl, fun _ => rfl⟩

theorem BoardKept.trans (h : BoardKept c e e') (h' : BoardKept c e' e'') : BoardKept c e e'' :=
  ⟨h'.kind.trans h.kind, h'.nackSet.trans h.nackSet, h'.pins.trans h.pins,
    fun hw => (h'.wpLevel hw).trans (h.wpLevel hw)⟩

theorem EnvFrame.boardKept (h : EnvFrame e e') : BoardKept c e e' := ⟨h.kind, h.nackSet, h.pins, fun _ => h.wpLevel⟩

/-- Driving the WP pin moves the WP level alone, and only a block with WP control does it. -/
theorem BoardKept.of_wpLevel (hw : c.wpControl = true) (e : Env) (l : Level) : BoardKept c e { e with wpLevel := l } :=
  ⟨rfl, rfl, rfl, fun hw' => by simp [hw] at hw'⟩

end BoardKept

section Board
variable (s : State)

@[simp] theorem deliverByte_env (bytes : List Byte) : (deliverByte bytes s).env = s.env := by
  cases bytes <;> rfl

@[simp] theorem deliverBuffer_env (bytes : List Byte) : (deliverBuffer bytes s).env = s.env := rfl

theorem protectAtInit_boardKept : BoardKept s.cfg s.env (protectAtInit s).env := by
  unfold protectAtInit
  split
  · next hw => exact .of_wpLevel hw _ _
  · exact .refl _ _

theorem openWp_boardKept : BoardKept s.cfg s.env (openWp s).env := by
  unfold openWp
  split
  · next hw => exact .of_wpLevel hw _ _
  · exact .refl _ _

theorem closeWp_boardKept : BoardKept s.cfg s.env (closeWp s).env := by
  unfold closeWp
  split
  · next hw => exact .of_wpLevel hw _ _
  · exact .refl _ _

/-- The write transaction drives no WP pin, whoever answers it. -/
theorem writeTransaction_frame (a : Nat) (bytes : List Byte) : EnvFrame s.env (writeTransaction a bytes s).env := by
  rcases hasChips_or_mock s.env with h | h
  · exact (writeTransaction_chips h a bytes).1
  · exact (writeTransaction_mock h a bytes).frame

theorem finishWrite_boardKept : BoardKept s.cfg s.env (finishWrite s).env :=
  (closeWp_boardKept s).trans (finishWrite_quiet s).frame.boardKept

theorem pollAttempt_boardKept : BoardKept s.cfg s.env (pollAttempt s).env := by
  simp only [pollAttempt]
  split
  · have hstop := (probeStop_quiet (P := True) s s.dsb).frame.boardKept (c := s.cfg)
    exact hstop.trans (finishWrite_boardKept (busStop (busAddr s.dsb .write (busStart s)).2))
  · exact (probe_quiet (P := True) s s.dsb .write).frame.boardKept

theorem waitWrite_boardKept : BoardKept s.cfg s.env (waitWrite s).env := by
  unfold waitWrite
  split
  · exact pollAttempt_boardKept s
  · have hwait := (waitMs_quiet (P := True) s s.cfg.writeCycleMs).frame.boardKept (c := s.cfg)
    exact hwait.trans (finishWrite_boardKept (waitMs s.cfg.writeCycleMs s))

/-- The write sequence, part by part: WP opened, the transaction, the wait with the end after it (43_write.md R130, R131). -/
theorem writeSequence_boardKept (a : Nat) (bytes : List Byte) :
    BoardKept s.cfg s.env (writeSequence a bytes s).env := by
  obtain ⟨_, _, _, _, -, hran, -⟩ := beforeWait_ran s a bytes
  have hopen := openWp_boardKept (clearFault s)
  have hbus := (writeTransaction_frame (openWp (clearFault s)) a bytes).boardKept (c := s.cfg)
  have hwait := waitWrite_boardKept (writeTransaction a bytes (openWp (clearFault s)))
  rw [hran.cfg] at hwait
  exact (hopen.trans hbus).trans hwait

variable {s} {t : State}

theorem exec_boardKept {i : Instr} (h : exec i s = .next t) : BoardKept s.cfg s.env t.env := by
  cases i with
  | init =>
    obtain ⟨-, rfl⟩ := execInit_next h
    exact protectAtInit_boardKept (writeDsb (initialDsb s.cfg) (startCommand 0 s))
  | selectDevice id =>
    obtain ⟨-, -, rfl⟩ := execSelectDevice_next h
    exact .refl _ _
  | wp mode =>
    obtain ⟨-, hw, rfl⟩ := execWp_next h
    exact .of_wpLevel hw _ _
  | writeByte a d =>
    obtain ⟨-, ⟨-, rfl⟩ | ⟨-, rfl⟩⟩ := execWriteByte_next h
    · exact .refl _ _
    · exact writeSequence_boardKept (latchData d (latchAddress a (startCommand 3 s))) a [d]
  | writePage p n buf =>
    obtain ⟨-, ⟨-, rfl⟩ | ⟨-, -, rfl⟩ | ⟨-, -, -, rfl⟩⟩ := execWritePage_next h
    · exact .refl _ _
    · exact .refl _ _
    · exact writeSequence_boardKept
        (latchAddress (pageAddress s.cfg p) (latchPage n buf (latchLength n (startCommand 4 s)))) _ _
  | readCurrentByte =>
    obtain ⟨-, rfl⟩ := execReadCurrentByte_next h
    rw [endCommand_env, deliverByte_env]
    exact (currentRead_quiet (P := True) (startCommand 5 s)).frame.boardKept
  | readByte a =>
    obtain ⟨-, rfl⟩ := execReadByte_next h
    rw [endCommand_env, deliverByte_env]
    exact (randomRead_quiet (latchAddress a (startCommand 6 s)) a).frame.boardKept
  | readSequential a n =>
    obtain ⟨-, rfl⟩ := execReadSequential_next h
    rw [endCommand_env, deliverBuffer_env]
    exact (sequentialRead_quiet (latchLength n (latchAddress a (startCommand 7 s))) a n).frame.boardKept

theorem step_boardKept (h : step s = .next t) : BoardKept s.cfg s.env t.env := by
  obtain ⟨-, -, rfl⟩ | ⟨-, -, rfl⟩ | ⟨_, rest, _, -, -, -, hexec⟩ := step_next h
  · exact pollAttempt_boardKept s
  · exact .refl _ _
  · exact exec_boardKept (s := { s with port := rest }) hexec

end Board

/-- Settles O46: a polling attempt, a wait and every command keep the board (`step_boardKept`). -/
theorem boardUnchanged : Obligations.BoardUnchanged := by
  intro s t h
  obtain ⟨hkind, hnack, hpins, hwp⟩ := step_boardKept h
  exact ⟨hkind, hnack, hpins, hwp⟩

/-- Settles O7: no command and no polling attempt runs before its configuration is tested (00_scope.md R8). -/
theorem inadmissibleConfigurationRefused : Obligations.InadmissibleConfigurationRefused :=
  fun _ hA => ⟨exec_of_inadmissible hA, step_of_inadmissible hA⟩

end Sys2Proof.Machine

/-! PROOFS. The reset state; what every command and step leave of the configuration, `dsb`, the latches and the outputs
(10_state.md R20, R22, R27, R28, R31). -/

namespace Sys2Proof.Machine

/-! ### The reset state -/

theorem reset_safe : State.reset.Safe where
  admittedCfg := by decide
  dsbFields := fun h => absurd h (by decide)
  polling := fun h => absurd h (by decide)
  pollingBuffer := fun h => absurd h (by decide)
  protocol := rfl

theorem reset_env_wellFormed : State.reset.env.WellFormed State.reset.cfg where
  strapsInMask := by decide
  strapsDistinct := by decide
  pointersInside := by decide
  arraysCanonical := by
    unfold Env.ArraysCanonical
    decide
  nackNonzero := by decide
  nackFits := by decide

/-- Settles O9: the fields by the definition of the reset state, the step by its empty port. -/
theorem resetWaitsForCommands : Obligations.ResetWaitsForCommands := ⟨rfl, rfl, rfl, rfl, rfl, rfl⟩

/-- Settles O37: the base case of the invariants, which `dsb` without a value and IDLE make empty but for the
configuration and the bus protocol. -/
theorem resetMeetsInvariants : Obligations.ResetMeetsInvariants := ⟨reset_safe, reset_env_wellFormed⟩

/-! ### From which latched state each command works -/

/-- The later part of a run first, so that it says from which state the earlier part has to be shown. -/
theorem KeepsBlock.after {s u t : State} (h' : KeepsBlock u t) (h : KeepsBlock s u) : KeepsBlock s t :=
  ⟨h'.cfg.trans h.cfg, h'.dsb.trans h.dsb, h'.dsbSet.trans h.dsbSet, h'.port.trans h.port⟩

/-- The delivered byte goes to `out` and nowhere else (30_encoding.md R72). -/
theorem deliverByte_eq (bytes : List Byte) (s : State) :
    deliverByte bytes s = { s with out := bytes.head?.getD s.out } := by
  cases bytes <;> rfl

theorem Moved.ended {s t : State} {cs : List Call} (h : Moved s cs t) (st : Status) : Moved s cs (endCommand st t) := by
  simpa using h.trans (endCommand_moved st t)

/-- A byte delivered after the work is a byte delivered before it. -/
theorem Moved.deliverByte {s t : State} {cs : List Call} (h : Moved s cs t) (bytes : List Byte) :
    Moved (deliverByte bytes s) cs (deliverByte bytes t) := by
  rw [deliverByte_eq, deliverByte_eq, h.out]
  unfold Moved at *
  rw [h]

theorem Moved.deliverBuffer {s t : State} {cs : List Call} (h : Moved s cs t) (bytes : List Byte) :
    Moved (deliverBuffer bytes s) cs (deliverBuffer bytes t) := by
  unfold Machine.deliverBuffer
  rw [h.outBuf]
  unfold Moved at *
  rw [h]

theorem protectAtInit_moved (s : State) : ∃ cs, Moved s cs (protectAtInit s) := by
  rcases protectAtInit_cases s with e | e <;> rw [e]
  · exact ⟨_, .refl s⟩
  · exact ⟨_, (wpSet_ran s .high).moved⟩

theorem currentRead_moved (s : State) : ∃ cs, Moved s cs (currentRead s).after := by
  obtain ⟨_, _, hr, -⟩ := currentRead_ran s
  exact ⟨_, hr.moved_of_clearFault⟩

section Commands
variable {s t : State} {a n p : Nat} {d : Byte} {buf : List Byte}

theorem execWriteByte_moved (h : exec (.writeByte a d) s = .next t) :
    ∃ cs, Moved (latchData d (latchAddress a (startCommand 3 s))) cs t := by
  obtain ⟨-, ⟨-, rfl⟩ | ⟨-, rfl⟩⟩ := execWriteByte_next h
  · exact ⟨_, endCommand_moved _ _⟩
  · exact (writeSequence_moved _ a [d]).1

/-- A page that fails its validation is latched as the host presents it; one that passes, with the bytes of its port. -/
theorem execWritePage_moved (h : exec (.writePage p n buf) s = .next t) :
    ∃ u cs, Moved u cs t ∧ (u = latchBuffer buf (latchLength n (startCommand 4 s)) ∨
      u = latchAddress (pageAddress s.cfg p) (latchPage n buf (latchLength n (startCommand 4 s)))) := by
  obtain ⟨-, ⟨-, rfl⟩ | ⟨-, -, rfl⟩ | ⟨-, -, -, rfl⟩⟩ := execWritePage_next h
  · exact ⟨_, _, endCommand_moved _ _, .inl rfl⟩
  · exact ⟨_, _, endCommand_moved _ _, .inl rfl⟩
  · obtain ⟨cs, hm⟩ := (writeSequence_moved
      (latchAddress (pageAddress s.cfg p) (latchPage n buf (latchLength n (startCommand 4 s))))
      (pageAddress s.cfg p) ((pagePort s.portDrawn n buf).take n)).1
    exact ⟨_, cs, hm, .inr rfl⟩

theorem execReadCurrentByte_moved (h : exec .readCurrentByte s = .next t) :
    ∃ cs bytes, Moved (deliverByte bytes (startCommand 5 s)) cs t := by
  obtain ⟨-, rfl⟩ := execReadCurrentByte_next h
  obtain ⟨cs, hm⟩ := currentRead_moved (startCommand 5 s)
  exact ⟨cs, _, (hm.deliverByte _).ended _⟩

theorem execReadByte_moved (h : exec (.readByte a) s = .next t) :
    ∃ cs bytes, Moved (deliverByte bytes (latchAddress a (startCommand 6 s))) cs t := by
  obtain ⟨-, rfl⟩ := execReadByte_next h
  obtain ⟨cs, hm⟩ := randomRead_moved (latchAddress a (startCommand 6 s)) a
  exact ⟨cs, _, (hm.deliverByte _).ended _⟩

theorem execReadSequential_moved (h : exec (.readSequential a n) s = .next t) :
    ∃ cs bytes, Moved (deliverBuffer bytes (latchLength n (latchAddress a (startCommand 7 s)))) cs t := by
  obtain ⟨-, rfl⟩ := execReadSequential_next h
  obtain ⟨cs, hm⟩ := sequentialRead_moved (latchLength n (latchAddress a (startCommand 7 s))) a n
  exact ⟨cs, _, (hm.deliverBuffer _).ended _⟩

end Commands

/-- A command starts from `u`: INIT and SELECT_DEVICE with `dsb` written, every other one with `dsb` as it was. No call has
been made yet. -/
inductive StartsFrom (s : State) : Instr → State → Prop where
  | init : StartsFrom s .init (writeDsb (initialDsb s.cfg) (startCommand 0 s))
  | select (id : Nat) : StartsFrom s (.selectDevice id) (writeDsb (selectedDsb s.cfg id) (startCommand 1 s))
  | other {i : Instr} {u : State} (hk : KeepsBlock s u) (ht : u.trace = s.trace) : StartsFrom s i u

theorem StartsFrom.cfg {i : Instr} {s u : State} (h : StartsFrom s i u) : u.cfg = s.cfg := by
  cases h with
  | init => rfl
  | select => rfl
  | other hk => exact hk.cfg

theorem StartsFrom.trace {i : Instr} {s u : State} (h : StartsFrom s i u) : u.trace = s.trace := by
  cases h with
  | init => rfl
  | select => rfl
  | other _ ht => exact ht

theorem Moved.startsOther {i : Instr} {s u t : State} {cs : List Call} (hm : Moved u cs t) (hk : KeepsBlock s u)
    (ht : u.trace = s.trace) : ∃ u cs, StartsFrom s i u ∧ Moved u cs t := ⟨u, cs, .other hk ht, hm⟩

/-- What every accepted command does to the block: it latches, then only the working fields move. -/
theorem exec_moved {i : Instr} {s t : State} (h : exec i s = .next t) : ∃ u cs, StartsFrom s i u ∧ Moved u cs t := by
  cases i with
  | init =>
    obtain ⟨-, rfl⟩ := execInit_next h
    obtain ⟨cs, hm⟩ := protectAtInit_moved (writeDsb (initialDsb s.cfg) (startCommand 0 s))
    exact ⟨_, cs, .init, hm.ended _⟩
  | selectDevice id =>
    obtain ⟨-, -, rfl⟩ := execSelectDevice_next h
    exact ⟨_, _, .select id, endCommand_moved _ _⟩
  | wp mode =>
    obtain ⟨-, -, rfl⟩ := execWp_next h
    exact ((wpSet_ran (startCommand 2 s) _).moved.ended _).startsOther ⟨rfl, rfl, rfl, rfl⟩ rfl
  | writeByte a d =>
    obtain ⟨cs, hm⟩ := execWriteByte_moved h
    exact hm.startsOther ⟨rfl, rfl, rfl, rfl⟩ rfl
  | writePage p n buf =>
    obtain ⟨u, cs, hm, rfl | rfl⟩ := execWritePage_moved h
    · exact hm.startsOther ⟨rfl, rfl, rfl, rfl⟩ rfl
    · exact hm.startsOther ⟨rfl, rfl, rfl, rfl⟩ rfl
  | readCurrentByte =>
    obtain ⟨cs, bytes, hm⟩ := execReadCurrentByte_moved h
    rw [deliverByte_eq] at hm
    exact hm.startsOther ⟨rfl, rfl, rfl, rfl⟩ rfl
  | readByte a =>
    obtain ⟨cs, bytes, hm⟩ := execReadByte_moved h
    rw [deliverByte_eq] at hm
    exact hm.startsOther ⟨rfl, rfl, rfl, rfl⟩ rfl
  | readSequential a n =>
    obtain ⟨cs, bytes, hm⟩ := execReadSequential_moved h
    exact hm.startsOther ⟨rfl, rfl, rfl, rfl⟩ rfl

/-- A command that gives a next state found an admitted configuration (00_scope.md R8). -/
theorem exec_admitted {i : Instr} {s t : State} (h : exec i s = .next t) : admitted s.cfg = true := by
  by_contra hA
  obtain ⟨r, hr⟩ := exec_of_inadmissible (by simpa using hA) i
  simp [hr] at h

theorem step_polling_moved {s t : State} (hs : s.seq = .pollStart) (h : step s = .next t) : ∃ cs, Moved s cs t := by
  obtain ⟨-, rfl⟩ := step_polling hs h
  exact (pollAttempt_moved s).1

/-! ### The invariants of `dsb` -/

/-- `BASE_ADDR` with strap bits from anywhere keeps the invariants of `dsb` (10_state.md R22 (1), (3)): in an admitted
configuration neither mask meets `BASE_ADDR`, nor one mask the other. -/
theorem baseWithPins_fields {c : Config} (hA : admitted c = true) (x : Dev7) :
    (c.baseAddr ||| (x &&& c.addrPinMask)) &&& c.addrHighMask = 0 ∧
      (c.baseAddr ||| (x &&& c.addrPinMask)) &&& ~~~(c.addrHighMask ||| c.addrPinMask) = c.baseAddr := by
  have hbase := (admitted_facts hA).baseClear
  have hmasks : c.addrPinMask &&& c.addrHighMask = 0 := by
    rcases masks_cases hA with ⟨-, hh, hp⟩ | ⟨-, hh, hp⟩ <;> rw [hh, hp] <;> decide
  constructor <;> ext j hj
  all_goals
    have hb : (c.baseAddr &&& (c.addrHighMask ||| c.addrPinMask))[j] = false := by simp [hbase]
    have hm : (c.addrPinMask &&& c.addrHighMask)[j] = false := by simp [hmasks]
    simp only [BitVec.getElem_and, BitVec.getElem_or] at hb hm
    simp only [BitVec.getElem_and, BitVec.getElem_or, BitVec.getElem_not]
    revert hb hm
    cases c.baseAddr[j] <;> cases c.addrHighMask[j] <;> cases c.addrPinMask[j] <;> simp

theorem State.DsbFields.of_keepsBlock {s t : State} (hd : s.DsbFields) (hk : KeepsBlock s t) : t.DsbFields := by
  unfold State.DsbFields at *
  rwa [hk.cfg, hk.dsb, hk.dsbSet]

theorem exec_dsbFields {i : Instr} {s t : State} (hd : s.DsbFields) (h : exec i s = .next t) : t.DsbFields := by
  have hA := exec_admitted h
  obtain ⟨u, cs, hu, hm⟩ := exec_moved h
  refine State.DsbFields.of_keepsBlock ?_ hm.keepsBlock
  cases hu with
  | init =>
    intro _
    show initialDsb s.cfg &&& _ = 0 ∧ initialDsb s.cfg &&& _ = _
    unfold initialDsb
    split
    · simpa using baseWithPins_fields hA 0
    · exact baseWithPins_fields hA s.cfg.strap
  | select id => exact fun _ => baseWithPins_fields hA (BitVec.ofNat 7 id)
  | other hk => exact hd.of_keepsBlock hk

/-- Settles O33: polling and waiting keep `dsb`, INIT and SELECT_DEVICE give it `BASE_ADDR` with strap bits, and no other
command writes it. -/
theorem dsbFieldsInvariant : Obligations.DsbFieldsInvariant := by
  intro s t hd h
  obtain ⟨hs, -, -⟩ | ⟨-, -, rfl⟩ | ⟨_, rest, _, -, -, -, hexec⟩ := step_next h
  · obtain ⟨cs, hm⟩ := step_polling_moved hs h
    exact hd.of_keepsBlock hm.keepsBlock
  · exact hd
  · exact exec_dsbFields (s := { s with port := rest }) hd hexec

/-- Settles O38: every other command starts with `dsb` as it was, and neither its work nor a polling attempt moves it. -/
theorem onlyInitAndSelectWriteDsb : Obligations.OnlyInitAndSelectWriteDsb := by
  refine ⟨fun i s t h hinit hsel => ?_, fun s t hs h => ?_⟩
  · obtain ⟨u, cs, hu, hm⟩ := exec_moved h
    cases hu with
    | init => exact absurd rfl hinit
    | select id => exact absurd rfl (hsel id)
    | other hk => exact ⟨hm.dsb.trans hk.dsb, hm.dsbSet.trans hk.dsbSet⟩
  · obtain ⟨cs, hm⟩ := step_polling_moved hs h
    exact ⟨hm.dsb, hm.dsbSet⟩

/-- Settles O39: whatever a step does, only the working fields move, and calls are appended to the trace. -/
theorem configurationFixedTraceGrows : Obligations.ConfigurationFixedTraceGrows := by
  intro s t h
  obtain ⟨hs, -, -⟩ | ⟨-, -, rfl⟩ | ⟨_, rest, _, -, -, -, hexec⟩ := step_next h
  · obtain ⟨cs, hm⟩ := step_polling_moved hs h
    exact ⟨hm.cfg, cs, hm.trace⟩
  · exact ⟨rfl, [], by simp⟩
  · obtain ⟨u, cs, hu, hm⟩ := exec_moved hexec
    exact ⟨hm.cfg.trans hu.cfg, cs, by rw [hm.trace, hu.trace]⟩

/-! ### SELECT_DEVICE's values -/

/-- One bit of SELECT_DEVICE's operand, as a device value. -/
theorem idBit (id j : Nat) (hj : j < 7) :
    BitVec.ofNat 7 id &&& BitVec.twoPow 7 j = if id.testBit j then BitVec.twoPow 7 j else 0 := by
  rw [BitVec.and_twoPow, BitVec.getLsbD_ofNat]
  simp [hj]

/-- Settles O13: on V2M the pin mask lets bit 2 of `id` through, below it bits 2 and 1 (10_state.md R21). -/
theorem selectDeviceTakesPinBitsOnly : Obligations.SelectDeviceTakesPinBitsOnly := by
  intro s t id hbase h
  obtain ⟨hr, -, rfl⟩ := execSelectDevice_next h
  have h2 : BitVec.ofNat 7 id &&& 4 = if id.testBit 2 then 4 else 0 := idBit id 2 (by decide)
  have h1 : BitVec.ofNat 7 id &&& 2 = if id.testBit 1 then 2 else 0 := idBit id 1 (by decide)
  have h6 : BitVec.ofNat 7 id &&& 6 = (BitVec.ofNat 7 id &&& 4) ||| (BitVec.ofNat 7 id &&& 2) := by
    rw [← BitVec.and_or_distrib_left]
    rfl
  simp only [endCommand_dsb, writeDsb_dsb, selectedDsb, hbase]
  rcases masks_cases hr.1 with ⟨hsize, -, hp⟩ | ⟨hsize, -, hp⟩ <;> rw [hp]
  · refine ⟨fun _ => ?_, fun hlt => absurd hsize (by omega)⟩
    rw [h2]
    split <;> rfl
  · refine ⟨fun hle => absurd hsize (by omega), fun _ => ?_⟩
    rw [h6, h2, h1]
    cases id.testBit 2 <;> cases id.testBit 1 <;> rfl

/-! ### Latches and outputs -/

/-- A read by itself leaves the scratch of the verify step alone. -/
theorem randomRead_rb (s : State) (a : Nat) : (randomRead a s).after.rb = s.rb := by
  by_cases ha : a < s.cfg.memorySize
  · obtain ⟨_, _, _, _, _, hr, -⟩ := randomRead_ran s ha
    exact hr.rb
  · simp [randomRead, addressOutOfRange, Nat.not_lt.1 ha]

theorem sequentialRead_rb (s : State) (a n : Nat) : (sequentialRead a n s).after.rb = s.rb := by
  by_cases ha : a < s.cfg.memorySize
  · by_cases hn : n = 0
    · simp [sequentialRead, addressOutOfRange, Nat.not_le.2 ha, hn]
    · obtain ⟨_, _, _, _, _, -, hr, -⟩ := sequentialRead_ran s ha hn
      exact hr.rb
  · simp [sequentialRead, addressOutOfRange, Nat.not_lt.1 ha]

theorem currentRead_rb (s : State) : (currentRead s).after.rb = s.rb := by
  obtain ⟨_, _, hr, -⟩ := currentRead_ran s
  exact hr.rb

section Reads
variable {s t : State} {a n : Nat}

/-- READ_CURRENT_BYTE compares nothing, has no loop and drives no WP pin (44_read.md R150). -/
theorem execReadCurrentByte_frame (h : exec .readCurrentByte s = .next t) :
    t.i = s.i ∧ t.rb = s.rb ∧ t.env.wpLevel = s.env.wpLevel := by
  obtain ⟨-, rfl⟩ := execReadCurrentByte_next h
  have hwp := (currentRead_quiet (P := True) (startCommand 5 s)).frame.wpLevel
  simp only [deliverByte_eq, endCommand_i, endCommand_rb, endCommand_env]
  exact ⟨currentRead_i _, currentRead_rb _, hwp⟩

/-- READ_BYTE compares nothing, has no loop and drives no WP pin (44_read.md R151). -/
theorem execReadByte_frame (h : exec (.readByte a) s = .next t) :
    t.i = s.i ∧ t.rb = s.rb ∧ t.env.wpLevel = s.env.wpLevel := by
  obtain ⟨-, rfl⟩ := execReadByte_next h
  have hwp := (randomRead_quiet (latchAddress a (startCommand 6 s)) a).frame.wpLevel
  simp only [deliverByte_eq, endCommand_i, endCommand_rb, endCommand_env]
  exact ⟨randomRead_i _ _, randomRead_rb _ _, hwp⟩

/-- READ_SEQUENTIAL compares nothing and drives no WP pin (44_read.md R152). -/
theorem execReadSequential_frame (h : exec (.readSequential a n) s = .next t) :
    t.rb = s.rb ∧ t.env.wpLevel = s.env.wpLevel := by
  obtain ⟨-, rfl⟩ := execReadSequential_next h
  exact ⟨sequentialRead_rb _ _ _,
    (sequentialRead_quiet (latchLength n (latchAddress a (startCommand 7 s))) a n).frame.wpLevel⟩

end Reads

/-- Settles O42: each command's latched state has only its own operands new, the reads' also their own output; the work
after it moves none of these fields. -/
theorem inputOutputFrame : Obligations.InputOutputFrame := by
  refine ⟨fun s t a d h => ?_, fun s t p n buf h => ?_, fun s t h => ?_, fun s t a h => ?_, fun s t a n h => ?_,
    fun s t hs h => ?_⟩
  · obtain ⟨cs, hm⟩ := execWriteByte_moved h
    exact ⟨hm.keepsBlock.after ⟨rfl, rfl, rfl, rfl⟩, hm.n, hm.bufPort, hm.portDrawn, hm.out, hm.outBuf⟩
  · obtain ⟨u, cs, hm, rfl | rfl⟩ := execWritePage_moved h
    · exact ⟨hm.keepsBlock.after ⟨rfl, rfl, rfl, rfl⟩, hm.d, .inl hm.portDrawn, hm.out, hm.outBuf⟩
    · exact ⟨hm.keepsBlock.after ⟨rfl, rfl, rfl, rfl⟩, hm.d, .inr hm.portDrawn, hm.out, hm.outBuf⟩
  · obtain ⟨cs, bytes, hm⟩ := execReadCurrentByte_moved h
    obtain ⟨hi, hrb, hwp⟩ := execReadCurrentByte_frame h
    rw [deliverByte_eq] at hm
    exact ⟨hm.keepsBlock.after ⟨rfl, rfl, rfl, rfl⟩, hm.a, hm.d, hm.n, hi, hm.bufPort, hm.portDrawn, hrb, hm.outBuf, hwp⟩
  · obtain ⟨cs, bytes, hm⟩ := execReadByte_moved h
    obtain ⟨hi, hrb, hwp⟩ := execReadByte_frame h
    rw [deliverByte_eq] at hm
    exact ⟨hm.keepsBlock.after ⟨rfl, rfl, rfl, rfl⟩, hm.d, hm.n, hi, hm.bufPort, hm.portDrawn, hrb, hm.outBuf, hwp⟩
  · obtain ⟨cs, bytes, hm⟩ := execReadSequential_moved h
    obtain ⟨hrb, hwp⟩ := execReadSequential_frame h
    exact ⟨hm.keepsBlock.after ⟨rfl, rfl, rfl, rfl⟩, hm.d, hm.bufPort, hm.portDrawn, hrb, hm.out, hwp⟩
  · obtain ⟨cs, hm⟩ := step_polling_moved hs h
    exact ⟨hm.keepsBlock, hm.op, hm.a, hm.d, hm.n, hm.bufPort, hm.portDrawn, hm.out, hm.outBuf⟩

end Sys2Proof.Machine

/-! PROOFS. The selected chip's pointer (10_state.md R29, 70_reset_and_hazards.md R221): where the current read finds its
byte, and one past the last byte accessed after every command that ends with OK. -/

namespace Sys2Proof.Machine

/-! ### The current read -/

/-- A fault-free ENV answers 0 to the device value of a ready chip, which is selected with its pointer where it was
(20_memory.md R61). -/
theorem envAddr_ready {c : Config} {e : Env} {dev : Dev7} {k : Nat} (hkind : e.kind = .chips)
    (hk : chipFor c e.chips dev = some k) (hready : e.ChipReady k) (dir : Dir) :
    ∃ e', envAddr c dev dir e = (0, e') ∧ e'.kind = .chips ∧ e'.sel = some k ∧ e'.dir = dir ∧
      e'.chips = e.chips.modify k fun ch => { ch with busy := false, stage := [] } := by
  obtain ⟨f, ds, n, hf, ⟨hu, -⟩ | ⟨k', hk', he⟩⟩ := envAddr_chips (.inl hkind) c dev dir
  · exfalso
    rcases hu with hnone | ⟨k', ch, hk', hch, hbusy⟩
    · simp [hnone] at hk
    · obtain rfl : k' = k := by simpa [hk'] using hk
      simp [hready ch hch] at hbusy
  · obtain rfl : k' = k := by simpa [hk'] using hk
    rw [hf hkind] at he
    exact ⟨_, he, hkind, rfl, rfl, rfl⟩

/-- The chip that drives the bus gives the byte at its pointer (20_memory.md R64). -/
theorem envRecv_driven {e : Env} (h : e.HasChips) (c : Config) {k : Nat} {ch : Chip} (hs : e.sel = some k)
    (hd : e.dir = .read) (hch : e.chips[k]? = some ch) : (envRecv c e).1 = memRead ch.mem ch.ptr := by
  obtain ⟨b, ds, n, ⟨hno, -⟩ | ⟨k', ch', hs', -, hch', he⟩⟩ := envRecv_chips h c
  · exact absurd hch (hno k ch hs hd)
  · obtain rfl : k = k' := by simpa [hs] using hs'
    obtain rfl : ch = ch' := by simpa [hch] using hch'
    rw [he]

/-- READ_CURRENT_BYTE's sequence on a ready chip (20_memory.md R50, R64). -/
theorem currentRead_ready {s : State} {k : Nat} {ch : Chip} (hkind : s.env.kind = .chips)
    (hk : selectedChip s = some k) (hready : s.env.ChipReady k) (hch : s.env.chips[k]? = some ch) :
    (currentRead s).status = .ok ∧ (currentRead s).bytes = [memRead ch.mem ch.ptr] ∧
      PtrAt (currentRead s).after.env k ((ch.ptr + 1) % s.cfg.memorySize) := by
  obtain ⟨e', he, hkind', hsel, hdir, hchips⟩ :=
    envAddr_ready (c := s.cfg) (e := { s.env with nsent := 0 }) (dev := s.dsb) hkind hk hready .read
  rw [← envStart_chips (.inl hkind)] at he
  set v := addrCounted s.dsb .read (busStart (clearFault s)) with hv
  have hvenv : v.env = e' := congrArg Prod.snd he
  have hvfault : v.fault = 0 := by simp [hv, he]
  have hvch : v.env.chips[k]? = some { ch with busy := false, stage := [] } := by simp [hvenv, hchips, hch]
  have hvhas : v.env.HasChips := .inl (hvenv ▸ hkind')
  have hvsel : v.env.sel = some k := hvenv ▸ hsel
  have hvdir : v.env.dir = .read := hvenv ▸ hdir
  refine ⟨?_, ?_, ?_⟩
  · show transferStatus v = .ok
    simp [transferStatus, hvfault]
  · show [(envRecv s.cfg v.env).1] = _
    rw [envRecv_driven hvhas s.cfg hvsel hvdir hvch]
  · have hptr := recvAll_ptr 0 v ch.ptr hvhas hvsel hvdir (by simp [PtrAt, hvch])
    have hhas := (recvAll_frame hvhas 1).1.hasChips hvhas
    have hdir1 := (recvAll_dir 1 v hvhas).trans hvdir
    show ((envStop s.cfg (recvAll 1 v).2.env).chips[k]?).map Chip.ptr = _
    rw [envStop_read hhas s.cfg hdir1]
    exact hptr

theorem execReadCurrentByte_of_readyIO {s : State} (hr : s.ReadyIO) :
    exec .readCurrentByte s = .next (endCommand (currentRead (startCommand 5 s)).status
      (deliverByte (currentRead (startCommand 5 s)).bytes (currentRead (startCommand 5 s)).after)) := by
  show execReadCurrentByte s = _
  rw [execReadCurrentByte, acceptIO_of_readyIO hr]

/-- Settles O54: the selected chip acknowledges, gives the byte at its pointer and moves the pointer on. -/
theorem currentReadFollowsPointer : Obligations.CurrentReadFollowsPointer := by
  intro s k ch hr hkind hidle hch
  obtain ⟨hk, hnotBusy⟩ := hidle
  obtain ⟨hst, hbytes, hptr⟩ := currentRead_ready (s := startCommand 5 s) hkind hk
    (fun ch' hch' => hnotBusy ch' (List.mem_of_getElem? hch')) hch
  refine ⟨_, execReadCurrentByte_of_readyIO hr, ?_, ?_, ?_⟩
  · rw [endCommand_status, hst]
  · rw [hbytes]
    rfl
  · rw [endCommand_env, deliverByte_env]
    exact hptr

/-! ### The pointer through a write -/

theorem PtrAt.of_ptrs {e e' : Env} {k p : Nat} (hp : PtrAt e k p)
    (h : e'.chips.map Chip.ptr = e.chips.map Chip.ptr) : PtrAt e' k p := by
  unfold PtrAt at *
  rwa [← List.getElem?_map, h, List.getElem?_map]

/-- A transaction that stores leaves the pointer one past its bytes (20_memory.md R63). -/
theorem written_ptr {c : Config} {l : Level} {bytes : List Byte} (hb : bytes ≠ [])
    (hl : c.wpControl = true → l = .low) (ptr : Nat) (ch : Chip) :
    (written c l ptr bytes ch).ptr = (ptr + bytes.length) % c.memorySize := by
  have hopen : ¬ (c.wpControl = true ∧ l = .high) := by
    rintro ⟨hw, rfl⟩
    exact absurd (hl hw) (by decide)
  simp [written, commitStage, hb, hopen]

/-- A write transaction without a fault has reached the selected chip and leaves its pointer one past the bytes. -/
theorem writeTransaction_ptr {s : State} {k a : Nat} {bytes : List Byte} (h : s.env.HasChips) (hn : s.env.nackSet ≠ 0)
    (hwp : s.cfg.wpControl = true → s.env.wpLevel = .low) (hb : bytes ≠ []) (hk : selectedChip s = some k)
    (hf : (writeTransaction a bytes s).fault = 0) :
    PtrAt (writeTransaction a bytes s).env k ((wireAddr s.cfg s.dsb a + bytes.length) % s.cfg.memorySize) := by
  obtain ⟨-, -, ⟨-, -, hfault⟩ | ⟨k', hk', hchips, -⟩⟩ := writeTransaction_chips h a bytes
  · exact absurd hf (hfault hn)
  · rw [chipFor_deviceValue] at hk'
    obtain rfl : k' = k := Option.some.inj (hk'.symm.trans hk)
    have hlt := List.getElem?_eq_getElem (chipFor_lt hk')
    simp [PtrAt, hchips, hlt, written_ptr hb hwp]

/-- How many bytes the running write stores, from its latches (10_state.md R27). -/
def latchedLength (s : State) : Nat := if s.op = 4 then s.n else 1

/-- In `e` the pointer of chip `k` is one past the bytes that the running write of `s` stores. -/
def PastLatched (s : State) (k : Nat) (e : Env) : Prop :=
  PtrAt e k ((wireAddr s.cfg s.dsb s.a + latchedLength s) % s.cfg.memorySize)

/-- A read-back that ends with OK has read every byte stored, from the selected chip (43_write.md R132, R133). -/
theorem verifyLatched_pastLatched {s : State} {k : Nat} (h : s.env.HasChips) (hn : s.env.nackSet ≠ 0)
    (hk : selectedChip s = some k) (hok : (verifyLatched s).status = some .ok) :
    PastLatched s k (verifyLatched s).env := by
  have key : ∀ n, (sequentialRead s.a n s).status = .ok →
      PtrAt (sequentialRead s.a n s).after.env k ((wireAddr s.cfg s.dsb s.a + n) % s.cfg.memorySize) := by
    intro n hst
    obtain ⟨k', hk', hptr⟩ := sequentialRead_ptr s s.a n h hn hst
    obtain rfl : k' = k := Option.some.inj (hk'.symm.trans hk)
    exact hptr
  unfold PastLatched latchedLength
  by_cases hop : s.op = 4
  · simp only [verifyLatched, verifyPage, hop, if_true, compareReadBack_env] at hok ⊢
    exact key s.n (compareReadBack_ok hok)
  · simp only [verifyLatched, verifyByte, hop, if_false, compareReadBack_env] at hok ⊢
    obtain ⟨hst, henv⟩ := randomRead_as_sequential s s.a
    rw [henv]
    exact key 1 (hst ▸ compareReadBack_ok hok)

/-- A write ends with OK only without a fault, and then either unchecked, with nothing but WP moved, or by its read-back
(43_write.md R130). -/
theorem finishWrite_ok {s : State} (hok : (finishWrite s).status = some .ok) :
    s.fault = 0 ∧ (s.cfg.integrityCheck = false ∧ (finishWrite s).env = (closeWp s).env ∨
      s.cfg.integrityCheck = true ∧ finishWrite s = verifyLatched (closeWp s)) := by
  have hc := closeWp_ran s
  have hfault : (closeWp s).fault = s.fault := by rw [hc.fault, answersOr_wpCalls, Nat.or_zero]
  have hcfg : (closeWp s).cfg = s.cfg := hc.cfg
  by_cases hf : s.fault = 0
  · refine ⟨hf, ?_⟩
    cases hi : s.cfg.integrityCheck
    · exact .inl ⟨rfl, by simp [finishWrite, hfault, hf, hcfg, hi]⟩
    · exact .inr ⟨rfl, by simp [finishWrite, hfault, hf, hcfg, hi]⟩
  · simp [finishWrite, hfault, hf] at hok

/-- The end of a write keeps the pointer where the transaction has left it, or its read-back brings it there again. -/
theorem finishWrite_pastLatched {s : State} {k : Nat} (h : s.env.HasChips) (hn : s.env.nackSet ≠ 0)
    (hk : selectedChip s = some k) (hp : s.cfg.integrityCheck = false → PastLatched s k s.env)
    (hok : (finishWrite s).status = some .ok) : PastLatched s k (finishWrite s).env := by
  obtain ⟨hchips, hkind, hnack⟩ := closeWp_chips s
  obtain ⟨-, ⟨hi, henv⟩ | ⟨-, hverify⟩⟩ := finishWrite_ok hok
  · exact PtrAt.of_ptrs (hp hi) (by rw [henv, hchips])
  · have hc := (closeWp_ran s).moved
    rw [hverify] at hok ⊢
    have hpast := verifyLatched_pastLatched (k := k) (by unfold Env.HasChips; rwa [hkind]) (by rwa [hnack])
      (by unfold selectedChip; rwa [hc.cfg, hc.dsb, hchips]) hok
    unfold PastLatched latchedLength at *
    rwa [hc.cfg, hc.dsb, hc.a, hc.op, hc.n] at hpast

/-- A polling attempt goes on to the end of the write, or stays in the loop with its two calls made (42_write_wait.md
R121). -/
theorem pollAttempt_cases (s : State) :
    ((pollAttempt s).seq = .idle ∧ pollAttempt s = finishWrite (busStop (busAddr s.dsb .write (busStart s)).2)) ∨
      ((pollAttempt s).seq = .pollStart ∧ (pollAttempt s).status = s.status ∧
        (pollAttempt s).env = (busAddr s.dsb .write (busStart s)).2.env) := by
  by_cases hg : (busAddr s.dsb .write (busStart s)).1 = 0
  · have he : pollAttempt s = finishWrite (busStop (busAddr s.dsb .write (busStart s)).2) := by
      simp only [pollAttempt, hg, if_true]
    exact .inl ⟨he ▸ (finishWrite_moved _).2.1, he⟩
  · have he : pollAttempt s = { (busAddr s.dsb .write (busStart s)).2 with seq := .pollStart } := by
      simp only [pollAttempt, hg, if_false]
    rw [he]
    exact .inr ⟨rfl, rfl, rfl⟩

/-- An attempt's own calls leave the latches, the straps and the pointers, so what holds of the end of the write holds of
an attempt that reaches it. -/
theorem pollAttempt_pastLatched {s : State} {k : Nat} (h : s.env.HasChips) (hn : s.env.nackSet ≠ 0)
    (hk : selectedChip s = some k) (hp : s.cfg.integrityCheck = false → PastLatched s k s.env)
    (hidle : (pollAttempt s).seq = .idle) (hok : (pollAttempt s).status = some .ok) :
    PastLatched s k (pollAttempt s).env := by
  obtain ⟨-, he⟩ | ⟨hpoll, -⟩ := pollAttempt_cases s
  · have hframe := (probeStop_quiet (P := True) s s.dsb).frame
    rw [he] at hok ⊢
    exact finishWrite_pastLatched (hframe.hasChips h) (by rwa [hframe.nackSet]) ((hframe.chipFor _ _).trans hk)
      (fun hi => PtrAt.of_ptrs (hp hi) (probe_ptr s s.dsb).2) hok
  · simp [hpoll] at hidle

theorem waitMs_ptrs (s : State) (n : Nat) : (waitMs n s).env.chips.map Chip.ptr = s.env.chips.map Chip.ptr := by
  show (envWait s.cfg n s.env).chips.map Chip.ptr = _
  unfold envWait
  split
  · rfl
  all_goals
    split
    · simp [Function.comp_def]
    · rfl

/-- Whatever the wait, a write that ends with OK has found no fault before it, and keeps or restores the pointer. -/
theorem waitWrite_pastLatched {s : State} {k : Nat} (h : s.env.HasChips) (hn : s.env.nackSet ≠ 0)
    (hk : selectedChip s = some k) (hst : s.status = none) (hp : s.fault = 0 → PastLatched s k s.env)
    (hok : (waitWrite s).status = some .ok) : PastLatched s k (waitWrite s).env := by
  unfold waitWrite at *
  split at hok
  · next hpolling =>
    rw [if_pos hpolling]
    obtain ⟨hidle, he⟩ | ⟨-, hstay, -⟩ := pollAttempt_cases s
    · have hf : s.fault = 0 := (finishWrite_ok (s := busStop (busAddr s.dsb .write (busStart s)).2) (he ▸ hok)).1
      exact pollAttempt_pastLatched h hn hk (fun _ => hp hf) hidle hok
    · simp [hstay, hst] at hok
  · next hpolling =>
    rw [if_neg hpolling]
    have hframe := (waitMs_quiet (P := True) s s.cfg.writeCycleMs).frame
    have hf : s.fault = 0 := (finishWrite_ok hok).1
    exact finishWrite_pastLatched (s := waitMs s.cfg.writeCycleMs s) (hframe.hasChips h) (by rwa [hframe.nackSet])
      ((hframe.chipFor _ _).trans hk) (fun _ => PtrAt.of_ptrs (hp hf) (waitMs_ptrs s _)) hok

/-- The write sequence of the latched operands: after an OK the pointer is one past the bytes stored. -/
theorem writeSequence_pastLatched {s : State} {k : Nat} {bytes : List Byte} (h : s.env.HasChips)
    (hn : s.env.nackSet ≠ 0) (hk : selectedChip s = some k) (hst : s.status = none) (hb : bytes ≠ [])
    (hlen : bytes.length = latchedLength s) (hok : (writeSequence s.a bytes s).status = some .ok) :
    PastLatched s k (writeSequence s.a bytes s).env := by
  obtain ⟨_, _, _, _, -, hr, -⟩ := beforeWait_ran s s.a bytes
  obtain ⟨hhas, hnack, hpins⟩ := beforeWait_board s s.a bytes h
  have hm := hr.moved_of_clearFault
  have ho := openWp_ran (clearFault s)
  have hopen := openWp_env (clearFault s)
  have hkind : (openWp (clearFault s)).env.kind = s.env.kind := by rw [hopen]; split <;> rfl
  have hsets : (openWp (clearFault s)).env.nackSet = s.env.nackSet := by rw [hopen]; split <;> rfl
  have hchips : (openWp (clearFault s)).env.chips = s.env.chips := by rw [hopen]; split <;> rfl
  have hlow : (openWp (clearFault s)).cfg.wpControl = true → (openWp (clearFault s)).env.wpLevel = .low := by
    rw [ho.cfg, hopen]
    intro hw
    rw [if_pos hw]
  have hptr := writeTransaction_ptr (s := openWp (clearFault s)) (k := k) (a := s.a) (bytes := bytes)
    (by unfold Env.HasChips; rwa [hkind]) (by rwa [hsets]) hlow hb
    (by unfold selectedChip; rwa [ho.cfg, ho.dsb, hchips])
  rw [ho.cfg, ho.dsb, hlen] at hptr
  have hpast := waitWrite_pastLatched (s := writeTransaction s.a bytes (openWp (clearFault s))) (k := k) hhas
    (by rwa [hnack]) (by unfold selectedChip; rwa [hm.cfg, hm.dsb, chipFor_of_pins hpins]) (hr.status.trans hst)
  unfold PastLatched latchedLength at *
  rw [hm.cfg, hm.dsb, hm.a, hm.op, hm.n] at hpast
  exact hpast hptr hok

/-! ### The pointer after each command -/

section After
variable {s t : State} {k a n p : Nat} {d : Byte} {buf : List Byte}
variable (h : s.env.HasChips) (hn : s.env.nackSet ≠ 0) (hk : selectedChip s = some k) (hok : t.status = some .ok)
include h hn hk hok

theorem execWriteByte_ptr (hexec : exec (.writeByte a d) s = .next t) :
    PtrAt t.env k ((wireAddr s.cfg s.dsb a + 1) % s.cfg.memorySize) := by
  obtain ⟨-, ⟨-, rfl⟩ | ⟨-, rfl⟩⟩ := execWriteByte_next hexec
  · simp at hok
  · exact writeSequence_pastLatched (s := latchData d (latchAddress a (startCommand 3 s))) h hn hk rfl (by simp) rfl hok

theorem execWritePage_ptr (hexec : exec (.writePage p n buf) s = .next t) :
    PtrAt t.env k ((wireAddr s.cfg s.dsb (pageAddress s.cfg p) + n) % s.cfg.memorySize) := by
  obtain ⟨-, ⟨-, rfl⟩ | ⟨-, -, rfl⟩ | ⟨-, hn0, -, rfl⟩⟩ := execWritePage_next hexec
  · simp at hok
  · simp at hok
  · have hlen := length_take_pagePort s.portDrawn n buf
    exact writeSequence_pastLatched
      (s := latchAddress (pageAddress s.cfg p) (latchPage n buf (latchLength n (startCommand 4 s)))) h hn hk rfl
      (List.ne_nil_of_length_pos (by omega)) hlen hok

theorem execReadSequential_ptr (hexec : exec (.readSequential a n) s = .next t) :
    PtrAt t.env k ((wireAddr s.cfg s.dsb a + n) % s.cfg.memorySize) := by
  obtain ⟨-, rfl⟩ := execReadSequential_next hexec
  obtain ⟨k', hk', hptr⟩ := sequentialRead_ptr (latchLength n (latchAddress a (startCommand 7 s))) a n h hn
    (by simpa using hok)
  obtain rfl : k' = k := Option.some.inj (hk'.symm.trans hk)
  exact hptr

theorem execReadByte_ptr (hexec : exec (.readByte a) s = .next t) :
    PtrAt t.env k ((wireAddr s.cfg s.dsb a + 1) % s.cfg.memorySize) := by
  obtain ⟨-, rfl⟩ := execReadByte_next hexec
  obtain ⟨hst, henv⟩ := randomRead_as_sequential (latchAddress a (startCommand 6 s)) a
  obtain ⟨k', hk', hptr⟩ := sequentialRead_ptr (latchAddress a (startCommand 6 s)) a 1 h hn
    (hst.symm.trans (by simpa using hok))
  obtain rfl : k' = k := Option.some.inj (hk'.symm.trans hk)
  rw [endCommand_env, deliverByte_env, henv]
  exact hptr

end After

/-- An attempt that ends nothing, or whose end reads nothing back, moves no pointer (42_write_wait.md R121). -/
theorem pollAttempt_ptrs {s : State} (h : s.cfg.integrityCheck = false ∨ (pollAttempt s).seq = .pollStart) :
    (pollAttempt s).env.chips.map Chip.ptr = s.env.chips.map Chip.ptr := by
  rcases h with hi | hpoll
  · exact pollAttempt_ptr s hi
  · obtain ⟨hidle, -⟩ | ⟨-, -, henv⟩ := pollAttempt_cases s
    · simp [hpoll] at hidle
    · rw [henv, (probe_ptr s s.dsb).1]

/-- Settles O55: an OK means that the selected chip has taken the transaction or driven the read, and each byte has moved
its pointer on by one; a polling attempt moves none but by the read-back that follows it. -/
theorem pointerFollowsLastAccess : Obligations.PointerFollowsLastAccess := by
  refine ⟨fun s t k _ h hw hk hok => ⟨?_, ?_, ?_, ?_⟩, fun s t hs hstep hquiet => ?_,
    fun s t k h hn hs hi hk hstep hidle hok => ?_⟩
  · exact fun a d => execWriteByte_ptr h hw.nackNonzero hk hok
  · exact fun p n buf => execWritePage_ptr h hw.nackNonzero hk hok
  · exact fun a => execReadByte_ptr h hw.nackNonzero hk hok
  · exact fun a n => execReadSequential_ptr h hw.nackNonzero hk hok
  · obtain ⟨-, rfl⟩ := step_polling hs hstep
    exact pollAttempt_ptrs hquiet
  · obtain ⟨-, rfl⟩ := step_polling hs hstep
    exact pollAttempt_pastLatched h hn hk (by simp [hi]) hidle hok

end Sys2Proof.Machine

/-! PROOFS. The reference environment along every step (20_memory.md R59, R63, R64): arrays stay canonical, pointers stay
inside them, and the board stays; with them the environment stays well formed. -/

namespace Sys2Proof.Machine

/-! ### Arrays -/

/-- A command keeps every array canonical: it stores nothing, or one transaction in one chip. -/
theorem exec_arraysCanonical {i : Instr} {s t : State} (hc : s.env.ArraysCanonical s.cfg) (h : exec i s = .next t) :
    t.env.ArraysCanonical s.cfg := by
  obtain hstill | ⟨-, _, _, _, _, hstored, -, -, hstill⟩ := exec_env h
  · exact hstill.arraysCanonical hc
  · exact hstill.arraysCanonical (hstored.arraysCanonical hc)

/-- Settles O35: a polling attempt and a wait store nothing; a command stores canonically (`exec_arraysCanonical`). -/
theorem arraysCanonicalInvariant : Obligations.ArraysCanonicalInvariant := by
  intro s t hc h
  rw [(configurationFixedTraceGrows s t h).1]
  obtain ⟨-, -, rfl⟩ | ⟨-, -, rfl⟩ | ⟨_, rest, _, -, -, -, hexec⟩ := step_next h
  · exact (pollAttempt_still s).arraysCanonical hc
  · exact hc
  · exact exec_arraysCanonical (s := { s with port := rest }) hc hexec

/-! ### Pointers -/

/-- A write transaction leaves a chip's pointer where the address phase has set it, or moves it on modulo the memory size. -/
theorem written_ptr_lt {c : Config} {ptr : Nat} (h0 : 0 < c.memorySize) (hptr : ptr < c.memorySize) (l : Level)
    (bytes : List Byte) (ch : Chip) : (written c l ptr bytes ch).ptr < c.memorySize := by
  unfold written commitStage
  split
  · exact hptr
  · split
    · exact hptr
    · exact Nat.mod_lt _ h0

theorem Stored.pointersInside {c : Config} {dsb : Dev7} {a k : Nat} {bytes : List Byte} {e e' : Env}
    (h : Stored c dsb a bytes k e e') (h0 : 0 < c.memorySize) (hw : WireInside c dsb a) (hp : PointersInside c e) :
    PointersInside c e' := by
  obtain ⟨l, -, hchips⟩ := h.chips
  unfold PointersInside
  rw [hchips]
  exact forall_modify (P := fun ch => ch.ptr < c.memorySize) hp fun ch _ => written_ptr_lt h0 hw l bytes ch

/-- Before `dsb` holds a value no command can reach a chip (70_reset_and_hazards.md R211). -/
theorem exec_chips_of_dsbUnset {i : Instr} {s t : State} (hd : s.dsbSet = false) (h : exec i s = .next t) :
    t.env.chips = s.env.chips := by
  have hno : ¬ s.ReadyIO := fun hr => by simp [hr.2] at hd
  cases i with
  | init =>
    obtain ⟨-, rfl⟩ := execInit_next h
    rcases protectAtInit_cases (writeDsb (initialDsb s.cfg) (startCommand 0 s)) with he | he <;> rw [he] <;> rfl
  | selectDevice id =>
    obtain ⟨-, -, rfl⟩ := execSelectDevice_next h
    rfl
  | wp mode =>
    obtain ⟨-, -, rfl⟩ := execWp_next h
    rfl
  | writeByte a d => exact absurd (execWriteByte_next h).1 hno
  | writePage p n buf => exact absurd (execWritePage_next h).1 hno
  | readCurrentByte => exact absurd (execReadCurrentByte_next h).1 hno
  | readByte a => exact absurd (execReadByte_next h).1 hno
  | readSequential a n => exact absurd (execReadSequential_next h).1 hno

/-- With the invariants of `dsb` every valid operand sends an address inside the array. -/
theorem State.DsbFields.wireInside {s : State} (hd : s.DsbFields) (hset : s.dsbSet = true) (hA : admitted s.cfg = true)
    {a : Nat} (ha : a < s.cfg.memorySize) : WireInside s.cfg s.dsb a :=
  Machine.wireInside hA (hd hset).1 ha

theorem exec_pointersInside {i : Instr} {s t : State} (hd : s.DsbFields) (hp : PointersInside s.cfg s.env)
    (h : exec i s = .next t) : PointersInside s.cfg t.env := by
  have hA := exec_admitted h
  have h0 := (admitted_facts hA).notEmpty
  cases hset : s.dsbSet with
  | false =>
    unfold PointersInside
    rwa [exec_chips_of_dsbUnset hset h]
  | true =>
    obtain hstill | ⟨-, a, _, _, _, hstored, ha, -, hstill⟩ := exec_env h
    · exact hstill.inside (fun a ha => hd.wireInside hset hA ha) h0 hp
    · have hw := hd.wireInside hset hA ha
      exact hstill.inside hw h0 (hstored.pointersInside h0 hw hp)

theorem step_pointersInside {s t : State} (hd : s.DsbFields) (hshape : s.PollingShape)
    (hp : PointersInside s.cfg s.env) (h : step s = .next t) : PointersInside s.cfg t.env := by
  obtain ⟨hs, hA, rfl⟩ | ⟨-, -, rfl⟩ | ⟨_, rest, _, -, -, -, hexec⟩ := step_next h
  · obtain ⟨-, hset, -, -, ha, -⟩ := hshape hs
    exact (pollAttempt_still s).inside (hd.wireInside hset hA ha) (admitted_facts hA).notEmpty hp
  · exact hp
  · exact exec_pointersInside (s := { s with port := rest }) hd hp hexec

/-! ### The environment as a whole -/

theorem strapsInMask_of_pins {c : Config} {l l' : List Chip} (h : l'.map Chip.pins = l.map Chip.pins)
    (hl : ∀ ch ∈ l, ch.pins &&& ~~~c.addrPinMask = 0) : ∀ ch ∈ l', ch.pins &&& ~~~c.addrPinMask = 0 := by
  intro ch hch
  have hpins : ch.pins ∈ l.map Chip.pins := h ▸ List.mem_map_of_mem hch
  obtain ⟨ch', hch', he⟩ := List.mem_map.1 hpins
  exact he ▸ hl ch' hch'

/-- Settles O36: the board stays (`step_boardKept`), arrays stay canonical, and a pointer is moved only to a valid
address's place or on modulo the memory size. -/
theorem environmentWellFormedInvariant : Obligations.EnvironmentWellFormedInvariant := by
  intro s t hd hshape hw h
  have hcfg := (configurationFixedTraceGrows s t h).1
  obtain ⟨-, hnack, hpins, -⟩ := step_boardKept h
  have harrays := arraysCanonicalInvariant s t hw.arraysCanonical h
  have hpointers := step_pointersInside hd hshape hw.pointersInside h
  rw [hcfg] at harrays ⊢
  exact {
    strapsInMask := strapsInMask_of_pins hpins hw.strapsInMask
    strapsDistinct := hpins ▸ hw.strapsDistinct
    pointersInside := hpointers
    arraysCanonical := harrays
    nackNonzero := hnack ▸ hw.nackNonzero
    nackFits := hnack ▸ hw.nackFits }

end Sys2Proof.Machine

/-! PROOFS. Which command a step runs (20_memory.md R51), where a page write lies (R42) and which chip a device value
finds (R43, R61). -/

namespace Sys2Proof.Machine

/-! ### The command a step runs -/

theorem fetchCommand_of_wellFormed {c : Config} {r : Command} {i : Instr} (hdec : decode c r = .ok i)
    (hwf : i.wellFormed c = true) : fetchCommand c r = .ok i := by
  obtain ⟨hexists, hfit⟩ := Bool.and_eq_true_iff.1 hwf
  simp [fetchCommand, hdec, Instr.problem, hexists, hfit]

/-- Settles O4: in IDLE a step runs what the port's first record is fetched as. -/
theorem stepRunsDecodedCommand : Obligations.StepRunsDecodedCommand := by
  intro s r rest i hidle hport hdec hwf
  simp [step, hidle, hport, fetchCommand_of_wellFormed hdec hwf]

section Busy
variable {s : State} (hA : admitted s.cfg = true) (hs : s.seq = .pollStart)
include hA hs

theorem accept_of_polling (op : BitVec 3) (run : State → Host.Outcome State Fault Refusal) :
    accept op s run = .refused .busy := by
  simp [accept, hA, hs]

theorem acceptIO_of_polling (op : BitVec 3) (run : State → Host.Outcome State Fault Refusal) :
    acceptIO op s run = .refused .busy :=
  accept_of_polling hA hs op _

/-- Every command asks for acceptance, SELECT_DEVICE and WP once they exist (30_encoding.md R73). -/
theorem exec_of_polling {i : Instr} (hi : i.existsIn s.cfg = true) : exec i s = .refused .busy := by
  cases i with
  | init => simp [exec, execInit, accept_of_polling hA hs]
  | selectDevice id =>
    have hmulti : s.cfg.multiDevices = true := hi
    simp [exec, execSelectDevice, hmulti, accept_of_polling hA hs]
  | wp mode =>
    have hwp : s.cfg.wpControl = true := hi
    simp [exec, execWp, hwp, accept_of_polling hA hs]
  | writeByte a d => simp [exec, execWriteByte, acceptIO_of_polling hA hs]
  | writePage p n buf => simp [exec, execWritePage, acceptIO_of_polling hA hs]
  | readCurrentByte => simp [exec, execReadCurrentByte, acceptIO_of_polling hA hs]
  | readByte a => simp [exec, execReadByte, acceptIO_of_polling hA hs]
  | readSequential a n => simp [exec, execReadSequential, acceptIO_of_polling hA hs]

theorem step_of_polling : step s = .next (pollAttempt s) := by
  simp [step, hs, pollAgain, hA]

end Busy

/-- Settles O8: acceptance asks for IDLE, and a polling attempt leaves the port alone. -/
theorem noCommandAcceptedWhileOneRuns : Obligations.NoCommandAcceptedWhileOneRuns := by
  intro s hA hs
  obtain ⟨⟨_, hm⟩, -⟩ := pollAttempt_moved s
  exact ⟨fun i hi => exec_of_polling hA hs hi, _, step_of_polling hA hs, hm.port⟩

/-! ### Pages -/

/-- Settles O17: the next page begins `PAGE_SIZE` bytes on, and no later than the memory ends (`pageAddress_add_le`). -/
theorem pageWriteStaysInPage : Obligations.PageWriteStaysInPage := by
  intro c p n hA hp hn
  have hinside := pageAddress_add_le hA hp
  rw [Nat.add_mul, Nat.one_mul]
  unfold pageAddress at *
  exact ⟨by omega, hinside⟩

/-! ### Device values -/

/-- In an admitted configuration the pin bits of `BASE_ADDR` with a chip's straps are the straps. -/
theorem baseWithPins_pins {c : Config} (hA : admitted c = true) {pins : Dev7} (hp : pins &&& ~~~c.addrPinMask = 0) :
    (c.baseAddr ||| pins) &&& c.addrPinMask = pins := by
  have hbase := (admitted_facts hA).baseClear
  ext j hj
  have hb : (c.baseAddr &&& (c.addrHighMask ||| c.addrPinMask))[j] = false := by simp [hbase]
  have hm : (pins &&& ~~~c.addrPinMask)[j] = false := by simp [hp]
  simp only [BitVec.getElem_and, BitVec.getElem_or, BitVec.getElem_not] at hb hm ⊢
  revert hb hm
  cases c.baseAddr[j] <;> cases c.addrPinMask[j] <;> cases pins[j] <;> simp

/-- A chip's own device value has none of the memory-address bits, which R61 masks out. -/
theorem baseWithPins_masked {c : Config} (hA : admitted c = true) {pins : Dev7} (hp : pins &&& ~~~c.addrPinMask = 0) :
    (c.baseAddr ||| pins) &&& ~~~c.addrHighMask = c.baseAddr ||| pins := by
  have hhigh := (baseWithPins_fields hA (c.baseAddr ||| pins)).1
  rw [baseWithPins_pins hA hp] at hhigh
  simpa using dev_low_part (x := 0) hhigh

/-- Straps within the mask are told apart by the device values (20_memory.md R43). -/
theorem baseWithPins_injective {c : Config} (hA : admitted c = true) {p q : Dev7} (hp : p &&& ~~~c.addrPinMask = 0)
    (hq : q &&& ~~~c.addrPinMask = 0) (h : c.baseAddr ||| p = c.baseAddr ||| q) : p = q := by
  rw [← baseWithPins_pins hA hp, h, baseWithPins_pins hA hq]

theorem chipFor_baseWithPins {c : Config} {e : Env} (hA : admitted c = true) (hw : e.WellFormed c) {k : Nat} {ch : Chip}
    (hch : e.chips[k]? = some ch) : chipFor c e.chips (c.baseAddr ||| ch.pins) = some k := by
  obtain ⟨hk, rfl⟩ := List.getElem?_eq_some_iff.1 hch
  have hmask : ∀ j (hj : j < e.chips.length), e.chips[j].pins &&& ~~~c.addrPinMask = 0 :=
    fun j hj => hw.strapsInMask _ (List.getElem_mem hj)
  simp only [chipFor, List.findIdx?_eq_some_iff_getElem, baseWithPins_masked hA (hmask k hk), decide_eq_true_eq]
  refine ⟨hk, trivial, fun j hjk hsame => ?_⟩
  have hj : j < e.chips.length := hjk.trans hk
  have hpins := baseWithPins_injective hA (hmask k hk) (hmask j hj) hsame
  have hindex : k = j := (hw.strapsDistinct.getElem_inj_iff (hi := by simpa using hk) (hj := by simpa using hj)).1
    (by simpa using hpins)
  omega

/-- Settles O47: the address bits of a device value do not count (`chipFor_deviceValue`), and the straps are distinct. -/
theorem deviceValueFindsItsChip : Obligations.DeviceValueFindsItsChip := by
  intro c e k ch a hA hw hch
  rw [encodeAddr_dev7, chipFor_deviceValue]
  exact chipFor_baseWithPins hA hw hch

end Sys2Proof.Machine

/-! PROOFS. What a write transaction and a read find in ENV (20_memory.md R61 to R65): the chip there or absent, and ready
once a write has ended. -/

namespace Sys2Proof.Machine

/-! ### The chip reached, or not -/

theorem unreached_deviceValue {c : Config} {dsb : Dev7} {a : Nat} {e : Env} :
    Unreached c (deviceValue c dsb a) e ↔ Unreached c dsb e := by
  simp only [Unreached, chipFor_deviceValue]

/-- A chip that is there and in no write cycle is reached. -/
theorem not_unreached_of_ready {c : Config} {dev : Dev7} {e : Env} {k : Nat} (hk : chipFor c e.chips dev = some k)
    (hready : e.ChipReady k) : ¬ Unreached c dev e := by
  rintro (hnone | ⟨k', ch, hk', hch, hbusy⟩)
  · simp [hnone] at hk
  · obtain rfl : k' = k := Option.some.inj (hk'.symm.trans hk)
    simp [hready ch hch] at hbusy

theorem openWp_board (s : State) : (openWp s).env.kind = s.env.kind ∧ (openWp s).env.nackSet = s.env.nackSet ∧
    (openWp s).env.chips = s.env.chips ∧ (s.cfg.wpControl = true → (openWp s).env.wpLevel = .low) := by
  rw [openWp_env]
  split
  · exact ⟨rfl, rfl, rfl, fun _ => rfl⟩
  · next hw => exact ⟨rfl, rfl, rfl, fun hw' => absurd hw' hw⟩

/-- The write sequence up to its wait, in ENV: no chip reached and a fault accumulated, or the transaction stored, in a
fault-free ENV without a fault (43_write.md R130; 20_memory.md R61 to R63). -/
theorem beforeWait_chips (s : State) (a : Nat) (bytes : List Byte) (h : s.env.HasChips) :
    (Unreached s.cfg s.dsb s.env ∧
      (s.env.nackSet ≠ 0 → (writeTransaction a bytes (openWp (clearFault s))).fault ≠ 0)) ∨
    ∃ k, Stored s.cfg s.dsb a bytes k s.env (writeTransaction a bytes (openWp (clearFault s))).env ∧
      (s.env.kind = .chips → (writeTransaction a bytes (openWp (clearFault s))).fault = 0) := by
  obtain ⟨hkind, hnack, hchips, hlow⟩ := openWp_board (clearFault s)
  have ho := openWp_ran (clearFault s)
  have hfault : (openWp (clearFault s)).fault = 0 := by rw [ho.fault, answersOr_wpCalls, clearFault_fault, Nat.or_zero]
  have hhas : (openWp (clearFault s)).env.HasChips := by unfold Env.HasChips; rwa [hkind]
  obtain ⟨hframe, -, hcase⟩ := writeTransaction_chips hhas a bytes
  simp only [ho.cfg, ho.dsb, hkind, hnack, hchips, hfault, clearFault_cfg, clearFault_dsb, clearFault_env] at hcase
  rcases hcase with ⟨hun, -, hf⟩ | ⟨k, hk, hc, hf⟩
  · refine .inl ⟨(unreached_deviceValue (a := a)).1 ?_, hf⟩
    unfold Unreached at hun ⊢
    rwa [hchips] at hun
  · rw [chipFor_deviceValue] at hk
    exact .inr ⟨k, ⟨hk, hframe.kind.trans hkind, hframe.nackSet.trans hnack, _, hlow, hc⟩, hf⟩

/-- The write sequence with a fixed delay (42_write_wait.md R120, R123). -/
theorem writeSequence_of_delay {s : State} (hp : s.cfg.ackPolling = false) (a : Nat) (bytes : List Byte) :
    writeSequence a bytes s = finishWrite (waitMs s.cfg.writeCycleMs (writeTransaction a bytes (openWp (clearFault s)))) := by
  obtain ⟨_, _, _, _, -, hr, -⟩ := beforeWait_ran s a bytes
  simp [writeSequence, waitWrite, hr.cfg, hp]

/-! ### The reads' status and bytes -/

theorem recvAll_fault (n : Nat) (s : State) : (recvAll n s).2.fault = s.fault := by
  induction n generalizing s with
  | zero => rfl
  | succ n ih => exact ih (nextIndex (busRecv (recvPolicy n) s).2)

/-- On valid operands a sequential read's status is decided by its positioning and the device value of its read phase:
receives count no fault (44_read.md R152). -/
theorem sequentialRead_valid (s : State) {a n : Nat} (ha : a < s.cfg.memorySize) (hn : n ≠ 0) :
    (sequentialRead a n s).status = transferStatus (positionForRead a (clearFault s)) ∧
      (sequentialRead a n s).bytes = (recvAll n (firstIndex (positionForRead a (clearFault s)))).1 := by
  have hv : addressOutOfRange s.cfg a = false := by simp [addressOutOfRange, ha]
  simp [sequentialRead, hv, hn, transferStatus, recvAll_fault]

/-- A sequential read that ends with OK has passed its validation. -/
theorem sequentialRead_ok_valid {s : State} {a n : Nat} (hok : (sequentialRead a n s).status = .ok) :
    a < s.cfg.memorySize ∧ n ≠ 0 := by
  by_cases ha : a < s.cfg.memorySize
  · refine ⟨ha, fun hn => ?_⟩
    simp [sequentialRead, addressOutOfRange, Nat.not_le.2 ha, hn] at hok
  · simp [sequentialRead, addressOutOfRange, Nat.not_lt.1 ha] at hok

/-- READ_BYTE's sequence receives what a sequential read of one receives. -/
theorem randomRead_bytes (s : State) (a : Nat) : (randomRead a s).bytes = (sequentialRead a 1 s).bytes := by
  by_cases ha : addressOutOfRange s.cfg a = true
  · simp [randomRead, sequentialRead, ha]
  · simp [randomRead, sequentialRead, ha, recvAll, recvPolicy]

/-! ### An absent chip -/

theorem transferStatus_of_fault {s : State} (h : s.fault ≠ 0) : transferStatus s = .transportError := if_neg h

theorem finishWrite_of_fault {s : State} (h : s.fault ≠ 0) : (finishWrite s).status = some .transportError := by
  have hf : (closeWp s).fault = s.fault := by rw [(closeWp_ran s).fault, answersOr_wpCalls, Nat.or_zero]
  simp [finishWrite, hf, h]

/-- A command stores nothing where no chip is selected. -/
theorem exec_byteAt_absent {i : Instr} {s t : State} (habsent : selectedChip s = none) (hexec : exec i s = .next t)
    (k x : Nat) : byteAt t.env k x = byteAt s.env k x := by
  obtain hstill | ⟨-, _, _, _, _, hstored, -⟩ := exec_env hexec
  · exact byteAt_of_arrays hstill.arrays k x
  · exact absurd (habsent.symm.trans hstored.reached) (by simp)

section Absent
variable {s : State} (h : s.env.HasChips) (hn : s.env.nackSet ≠ 0) (habsent : selectedChip s = none)
include h hn habsent

/-- With a fixed delay a write to an absent chip ends by its fault (43_write.md R135, 95_test_vectors.md P4). -/
theorem writeSequence_absent (hp : s.cfg.ackPolling = false) (a : Nat) (bytes : List Byte) :
    (writeSequence a bytes s).seq = .idle ∧ (writeSequence a bytes s).status = some .transportError := by
  obtain ⟨-, hfault⟩ | ⟨k, hstored, -⟩ := beforeWait_chips s a bytes h
  · rw [writeSequence_of_delay hp]
    exact ⟨(finishWrite_moved _).2.1, finishWrite_of_fault (hfault hn)⟩
  · exact absurd (habsent.symm.trans hstored.reached) (by simp)

theorem sequentialRead_absent {a n : Nat} (ha : a < s.cfg.memorySize) (hlen : n ≠ 0) :
    (sequentialRead a n s).status = .transportError := by
  rw [(sequentialRead_valid s ha hlen).1]
  obtain ⟨-, -, ⟨-, hfault, -⟩ | ⟨k, hk, -⟩⟩ := positionForRead_chips (s := clearFault s) h a
  · exact transferStatus_of_fault (hfault hn)
  · rw [chipFor_deviceValue] at hk
    exact absurd (habsent.symm.trans hk) (by simp)

theorem currentRead_absent : (currentRead s).status = .transportError := by
  refine transferStatus_of_fault (s := addrCounted s.dsb .read (busStart (clearFault s))) ?_
  rw [addrCounted_fault]
  refine or_ne_zero_right ?_
  show (envAddr s.cfg s.dsb .read (envStart s.env)).1 ≠ 0
  rw [envStart_chips h]
  obtain ⟨f, ds, n, -, ⟨-, he⟩ | ⟨k, hk, -⟩⟩ := envAddr_chips (e := { s.env with nsent := 0 }) h s.cfg s.dsb .read
  · rw [he]
    exact or_ne_zero_left hn
  · exact absurd (habsent.symm.trans hk) (by simp)

end Absent

/-- Settles O57: the unanswered device value is counted into `fault`, and with a fixed delay every sequence ends by it. -/
theorem absentChipReportsTransportError : Obligations.AbsentChipReportsTransportError := by
  intro i s t _ h hn hp habsent hi hexec
  rw [← and_assoc]
  refine ⟨?_, exec_byteAt_absent habsent hexec⟩
  rcases hi with ⟨a, d, rfl, ha⟩ | ⟨p, n, buf, rfl, hpage, hn0, hlen⟩ | rfl | ⟨a, rfl, ha⟩ | ⟨a, n, rfl, ha, hn0⟩
  · obtain ⟨-, ⟨hbad, -⟩ | ⟨-, rfl⟩⟩ := execWriteByte_next hexec
    · omega
    · exact writeSequence_absent (s := latchData d (latchAddress a (startCommand 3 s))) h hn habsent hp a [d]
  · obtain ⟨-, ⟨hbad, -⟩ | ⟨-, hbad, -⟩ | ⟨-, -, -, rfl⟩⟩ := execWritePage_next hexec
    · omega
    · omega
    · exact writeSequence_absent
        (s := latchAddress (pageAddress s.cfg p) (latchPage n buf (latchLength n (startCommand 4 s)))) h hn habsent hp _ _
  · obtain ⟨-, rfl⟩ := execReadCurrentByte_next hexec
    exact ⟨rfl, congrArg some (currentRead_absent (s := startCommand 5 s) h hn habsent)⟩
  · obtain ⟨-, rfl⟩ := execReadByte_next hexec
    refine ⟨rfl, congrArg some ?_⟩
    rw [(randomRead_as_sequential _ a).1]
    exact sequentialRead_absent (s := latchAddress a (startCommand 6 s)) h hn habsent ha one_ne_zero
  · obtain ⟨-, rfl⟩ := execReadSequential_next hexec
    exact ⟨rfl, congrArg some
      (sequentialRead_absent (s := latchLength n (latchAddress a (startCommand 7 s))) h hn habsent ha hn0)⟩

/-! ### Ready after a write -/

/-- Settles O56: the fixed delay ends every write cycle, and an acknowledged attempt has found the selected chip ready
(`writeSequence_ready`, `pollAttempt_ready`); what follows makes no chip busy. -/
theorem chipsReadyAfterWrite : Obligations.ChipsReadyAfterWrite := by
  refine ⟨fun i s t h hi hexec => ?_, fun s t k h hn hs hstep hidle hk => ?_⟩
  · rcases hi with ⟨a, d, rfl, ha⟩ | ⟨p, n, buf, rfl, hpage, hn0, hlen⟩
    · obtain ⟨-, ⟨hbad, -⟩ | ⟨-, rfl⟩⟩ := execWriteByte_next hexec
      · omega
      · exact writeSequence_ready (latchData d (latchAddress a (startCommand 3 s))) a [d] h
    · obtain ⟨-, ⟨hbad, -⟩ | ⟨-, hbad, -⟩ | ⟨-, -, -, rfl⟩⟩ := execWritePage_next hexec
      · omega
      · omega
      · exact writeSequence_ready
          (latchAddress (pageAddress s.cfg p) (latchPage n buf (latchLength n (startCommand 4 s)))) _ _ h
  · obtain ⟨-, rfl⟩ := step_polling hs hstep
    exact pollAttempt_ready s h hn hidle k hk

end Sys2Proof.Machine

/-! PROOFS. The round trips (20_memory.md R52 (b)): a write that ends with OK, at once or after any number of polling
attempts, has its bytes stand in the selected chip; a read of the same address that ends with OK gives them back. -/

namespace Sys2Proof.Machine

/-! ### Bytes that stand -/

/-- In `e` the chip that `dsb` selects holds `bytes` from the address on that the triple of `a` carries, inside its array. -/
def Holds (c : Config) (dsb : Dev7) (a : Nat) (bytes : List Byte) (e : Env) : Prop :=
  wireAddr c dsb a + bytes.length ≤ c.memorySize ∧
    ∃ k, chipFor c e.chips dsb = some k ∧ ∀ j < bytes.length, byteAt e k (wireAddr c dsb a + j) = bytes[j]?

theorem Holds.of_still {c c' : Config} {P : Prop} {dsb : Dev7} {a : Nat} {bytes : List Byte} {e e' : Env}
    (h : Holds c dsb a bytes e) (hs : Still c' P e e') : Holds c dsb a bytes e' := by
  obtain ⟨hin, k, hk, hbytes⟩ := h
  refine ⟨hin, k, by rw [chipFor_of_pins hs.pins, hk], fun j hj => ?_⟩
  rw [byteAt_of_arrays hs.arrays, hbytes j hj]

/-- The bytes of `n` valid addresses from `a` on lie inside the array at the place their triple carries too, also where
R102's condition fails (log 32). -/
theorem wireAddr_add_le {c : Config} {dsb : Dev7} (hA : admitted c = true) (hd : dsb &&& c.addrHighMask = 0) {a n : Nat}
    (h : a + n ≤ c.memorySize) : wireAddr c dsb a + n ≤ c.memorySize := by
  have hjoin := joinAddr_encodeAddr hA hd a
  rw [encodeAddr_dev7] at hjoin
  have hle := Nat.mod_le a (2 ^ 16 * (c.addrHighMask.toNat + 1))
  unfold wireAddr
  omega

/-- With WP open a write transaction stores all its bytes (20_memory.md R63). -/
theorem written_mem_open {c : Config} {l : Level} (hl : c.wpControl = true → l = .low) (ptr : Nat) (bytes : List Byte)
    (ch : Chip) : (written c l ptr bytes ch).mem = memWriteAll c.memorySize ch.mem ptr bytes := by
  have hopen : ¬ (c.wpControl = true ∧ l = .high) := by
    rintro ⟨hw, rfl⟩
    exact absurd (hl hw) (by decide)
  by_cases hb : bytes = []
  · simp [written, commitStage, hb, memWriteAll]
  · simp [written, commitStage, hb, hopen]

theorem Stored.holds {c : Config} {dsb : Dev7} {a k : Nat} {bytes : List Byte} {e e' : Env}
    (h : Stored c dsb a bytes k e e') (hc : e.ArraysCanonical c) (hin : wireAddr c dsb a + bytes.length ≤ c.memorySize) :
    Holds c dsb a bytes e' := by
  obtain ⟨l, hl, hchips⟩ := h.chips
  have hpins : e'.chips.map Chip.pins = e.chips.map Chip.pins := by
    rw [hchips]
    exact map_modify_of_eq _ _ (written_pins _ _ _ _) _ _
  have hk := List.getElem?_eq_getElem (chipFor_lt h.reached)
  refine ⟨hin, k, by rw [chipFor_of_pins hpins, h.reached], fun j hj => ?_⟩
  have hmem := memRead_memWriteAll_inside (hc _ (List.mem_of_getElem? hk)) hin hj
  simp [byteAt, hchips, hk, written_mem_open hl, hmem, hj]

/-! ### A write on its way -/

/-- A write has landed as far as it has come: while it polls without a fault, and once it has ended with OK, its bytes
stand. -/
def Lands (c : Config) (dsb : Dev7) (a : Nat) (bytes : List Byte) (t : State) : Prop :=
  (t.seq = .pollStart ∧ t.status = none ∧ (t.fault = 0 → Holds c dsb a bytes t.env)) ∨
  (t.seq = .idle ∧ (t.status = some .ok → Holds c dsb a bytes t.env))

theorem Lands.holds {c : Config} {dsb : Dev7} {a : Nat} {bytes : List Byte} {t : State} (h : Lands c dsb a bytes t)
    (hok : t.status = some .ok) : Holds c dsb a bytes t.env := by
  obtain ⟨-, hnone, -⟩ | ⟨-, hend⟩ := h
  · simp [hnone] at hok
  · exact hend hok

section Lands
variable {c : Config} {dsb : Dev7} {a : Nat} {bytes : List Byte} {s : State}

theorem Lands.of_error {st : Status} (hst : st ≠ .ok) : Lands c dsb a bytes (endCommand st s) :=
  .inr ⟨rfl, fun hok => absurd (Option.some.inj hok) hst⟩

theorem finishWrite_lands (hp : s.fault = 0 → Holds c dsb a bytes s.env) : Lands c dsb a bytes (finishWrite s) := by
  obtain ⟨-, hidle, -⟩ := finishWrite_moved s
  exact .inr ⟨hidle, fun hok => (hp (finishWrite_ok hok).1).of_still (finishWrite_still s)⟩

/-- A refused attempt keeps status and fault, an acknowledged one goes on to the end (42_write_wait.md R121). -/
theorem pollAttempt_lands (hst : s.status = none) (hp : s.fault = 0 → Holds c dsb a bytes s.env) :
    Lands c dsb a bytes (pollAttempt s) := by
  simp only [pollAttempt]
  split
  · exact finishWrite_lands (s := busStop (busAddr s.dsb .write (busStart s)).2)
      fun hf => (hp hf).of_still (probeStop_quiet (P := True) s s.dsb).still
  · exact .inl ⟨rfl, hst, fun hf => (hp hf).of_still (probe_quiet (P := True) s s.dsb .write).still⟩

theorem waitWrite_lands (hst : s.status = none) (hp : s.fault = 0 → Holds c dsb a bytes s.env) :
    Lands c dsb a bytes (waitWrite s) := by
  unfold waitWrite
  split
  · exact pollAttempt_lands hst hp
  · exact finishWrite_lands (s := waitMs s.cfg.writeCycleMs s)
      fun hf => (hp hf).of_still (waitMs_quiet (P := True) s s.cfg.writeCycleMs).still

/-- A write transaction without a fault has reached its chip and stored its bytes there. -/
theorem writeSequence_lands (hst : s.status = none) (h : s.env.HasChips) (hw : s.env.WellFormed s.cfg)
    (hin : wireAddr s.cfg s.dsb a + bytes.length ≤ s.cfg.memorySize) :
    Lands s.cfg s.dsb a bytes (writeSequence a bytes s) := by
  obtain ⟨_, _, _, _, -, hr, -⟩ := beforeWait_ran s a bytes
  refine waitWrite_lands (hr.status.trans hst) fun hf => ?_
  obtain ⟨-, hfault⟩ | ⟨k, hstored, -⟩ := beforeWait_chips s a bytes h
  · exact absurd hf (hfault hw.nackNonzero)
  · exact hstored.holds hw.arraysCanonical hin

end Lands

/-- A run of `k + 1` steps that gives a state begins with a step that gives one. -/
theorem run_succ {M : Host.Core} {k : Nat} {x y : M.State} (h : M.run (k + 1) x = .next y) :
    ∃ x', M.step x = .next x' ∧ M.run k x' = .next y := by
  unfold Host.Core.run at h
  split at h
  · next x' hstep => exact ⟨x', hstep, h⟩
  · cases h
  · cases h

/-- What a run from `s` keeps while a write of `bytes` at `a` is on its way or has ended, and no further command comes. -/
structure WriteRun (s : State) (a : Nat) (bytes : List Byte) (t : State) : Prop where
  block : KeepsBlock s t
  board : BoardKept s.cfg s.env t.env
  lands : Lands s.cfg s.dsb a bytes t

section WriteRun
variable {s t : State} (hd : s.DsbFields) (h : s.env.HasChips) (hw : s.env.WellFormed s.cfg)
include hd h hw

theorem execWriteByte_run {a : Nat} {d : Byte} (hexec : exec (.writeByte a d) s = .next t) :
    WriteRun s a [d] t := by
  obtain ⟨_, hm⟩ := execWriteByte_moved hexec
  refine ⟨hm.keepsBlock.after ⟨rfl, rfl, rfl, rfl⟩, exec_boardKept hexec, ?_⟩
  obtain ⟨⟨⟨hA, -⟩, hset⟩, ⟨-, rfl⟩ | ⟨ha, rfl⟩⟩ := execWriteByte_next hexec
  · exact .of_error (by decide)
  · exact writeSequence_lands (s := latchData d (latchAddress a (startCommand 3 s))) rfl h hw
      (wireAddr_add_le hA (hd hset).1 ha)

theorem execWritePage_run {p n : Nat} {buf : List Byte} (hexec : exec (.writePage p n buf) s = .next t) :
    WriteRun s (pageAddress s.cfg p) ((pagePort s.portDrawn n buf).take n) t := by
  obtain ⟨u, _, hm, hu⟩ := execWritePage_moved hexec
  have hblock : KeepsBlock s u := by rcases hu with rfl | rfl <;> exact ⟨rfl, rfl, rfl, rfl⟩
  refine ⟨hm.keepsBlock.after hblock, exec_boardKept hexec, ?_⟩
  obtain ⟨⟨⟨hA, -⟩, hset⟩, ⟨-, rfl⟩ | ⟨-, -, rfl⟩ | ⟨hp, -, hn, rfl⟩⟩ := execWritePage_next hexec
  · exact .of_error (by decide)
  · exact .of_error (by decide)
  · have hpage := pageAddress_add_le hA hp
    refine writeSequence_lands
      (s := latchAddress (pageAddress s.cfg p) (latchPage n buf (latchLength n (startCommand 4 s)))) rfl h hw ?_
    rw [length_take_pagePort]
    exact wireAddr_add_le hA (hd hset).1 (by omega)

end WriteRun

section Run
variable {s t u : State} {a : Nat} {bytes : List Byte}

/-- With no further command on the port a step makes one more attempt, or waits. -/
theorem WriteRun.step (hrun : WriteRun s a bytes t) (hport : s.port = []) (hstep : step t = .next u) :
    WriteRun s a bytes u := by
  obtain ⟨hblock, hboard, hlands⟩ := hrun
  obtain ⟨hs, -, rfl⟩ | ⟨-, -, rfl⟩ | ⟨_, _, _, -, hport', -⟩ := step_next hstep
  · obtain ⟨-, hnone, hp⟩ | ⟨hidle, -⟩ := hlands
    · obtain ⟨⟨_, hm⟩, -⟩ := pollAttempt_moved t
      have hkept := pollAttempt_boardKept t
      rw [hblock.cfg] at hkept
      exact ⟨hm.keepsBlock.after hblock, hboard.trans hkept, pollAttempt_lands hnone hp⟩
    · simp [hs] at hidle
  · exact ⟨hblock, hboard, hlands⟩
  · simp [hblock.port, hport] at hport'

theorem WriteRun.run (hport : s.port = []) (k : Nat) (hrun : WriteRun s a bytes t) (hk : core.run k t = .next u) :
    WriteRun s a bytes u := by
  induction k generalizing t with
  | zero => exact eq_of_next hk ▸ hrun
  | succ k ih =>
    obtain ⟨t', hstep, hrest⟩ := run_succ (M := core) hk
    exact ih (hrun.step hport hstep) hrest

end Run

/-! ### Reading back -/

/-- A sequential read that ends with OK, where the chip holds `bytes` from its start on, receives them. -/
theorem sequentialRead_holds {s : State} {a : Nat} {bytes : List Byte} (h : s.env.HasChips) (hn : s.env.nackSet ≠ 0)
    (hholds : Holds s.cfg s.dsb a bytes s.env) (hok : (sequentialRead a bytes.length s).status = .ok) :
    (sequentialRead a bytes.length s).bytes = bytes := by
  obtain ⟨ha, hlen⟩ := sequentialRead_ok_valid hok
  obtain ⟨hstatus, hbytes⟩ := sequentialRead_valid s ha hlen
  obtain ⟨hin, k, hk, hstand⟩ := hholds
  set v := firstIndex (positionForRead a (clearFault s))
  obtain ⟨hframe, -, ⟨-, hfault, -⟩ | ⟨k', hk', hsel, hdir, hchips, -⟩⟩ := positionForRead_chips (s := clearFault s) h a
  · rw [hstatus, transferStatus_of_fault (hfault hn)] at hok
    cases hok
  · rw [chipFor_deviceValue] at hk'
    obtain rfl : k' = k := Option.some.inj (hk'.symm.trans hk)
    obtain ⟨ch, hch⟩ : ∃ ch, s.env.chips[k']? = some ch := ⟨_, List.getElem?_eq_getElem (chipFor_lt hk)⟩
    have hcfg : v.cfg = s.cfg := by
      obtain ⟨_, _, _, _, hr⟩ := positionForRead_ran (clearFault s) a
      exact hr.cfg
    have hvch : v.env.chips[k']? = some (positioned (wireAddr s.cfg s.dsb a) ch) := by
      rw [show v.env.chips = _ from hchips]
      simp [hch]
    have hgot := recvAll_bytes (s := v) (hframe.hasChips h) bytes.length hsel hdir hvch (by rw [hcfg]; exact hin)
    rw [hbytes]
    apply List.ext_getElem?
    intro j
    by_cases hj : j < bytes.length
    · rw [hgot j hj, ← hstand j hj]
      simp [byteAt, hch, positioned]
    · rw [List.getElem?_eq_none (by rw [(recvAll_ran v _).1]; omega), List.getElem?_eq_none (by omega)]

/-- READ_BYTE's sequence, as a sequential read of one. -/
theorem randomRead_holds {s : State} {a : Nat} {d : Byte} (h : s.env.HasChips) (hn : s.env.nackSet ≠ 0)
    (hholds : Holds s.cfg s.dsb a [d] s.env) (hok : (randomRead a s).status = .ok) : (randomRead a s).bytes = [d] := by
  rw [randomRead_bytes]
  exact sequentialRead_holds h hn hholds ((randomRead_as_sequential s a).1 ▸ hok)

theorem BoardKept.hasChips {c : Config} {e e' : Env} (hb : BoardKept c e e') (h : e.HasChips) : e'.HasChips := by
  unfold Env.HasChips
  rwa [hb.kind]

section ReadBack
variable {s w u : State} {a n : Nat} {d : Byte} {bytes : List Byte}
variable (h : s.env.HasChips) (hn : s.env.nackSet ≠ 0) (hwok : w.status = some .ok)
include h hn hwok

/-- READ_BYTE after a WRITE_BYTE of the same address, both with OK. -/
theorem execReadByte_back (hrun : WriteRun s a [d] w) (hexec : exec (.readByte a) w = .next u)
    (huok : u.status = some .ok) : u.out = d := by
  obtain ⟨hblock, hboard, hlands⟩ := hrun
  obtain ⟨-, rfl⟩ := execReadByte_next hexec
  have hholds := hlands.holds hwok
  rw [← hblock.cfg, ← hblock.dsb] at hholds
  rw [randomRead_holds (s := latchAddress a (startCommand 6 w)) (hboard.hasChips h) (hboard.nackSet ▸ hn) hholds
    (Option.some.inj huok)]
  rfl

/-- READ_SEQUENTIAL after a write of as many bytes at the same address, both with OK. -/
theorem execReadSequential_back (hrun : WriteRun s a bytes w) (hlen : bytes.length = n)
    (hexec : exec (.readSequential a n) w = .next u) (huok : u.status = some .ok) : u.outBuf.take n = bytes := by
  subst hlen
  obtain ⟨hblock, hboard, hlands⟩ := hrun
  obtain ⟨-, rfl⟩ := execReadSequential_next hexec
  have hholds := hlands.holds hwok
  rw [← hblock.cfg, ← hblock.dsb] at hholds
  rw [sequentialRead_holds (s := latchLength bytes.length (latchAddress a (startCommand 7 w))) (hboard.hasChips h)
    (hboard.nackSet ▸ hn) hholds (Option.some.inj huok)]
  exact List.take_left

end ReadBack

/-! ### The round trips -/

/-- Settles O50: the write has landed (`execWriteByte_run`), and the read gives back what stands there. -/
theorem byteRoundTrip : Obligations.ByteRoundTrip := by
  intro s t u a d hd h hw hwrite htok hread huok
  exact execReadByte_back h hw.nackNonzero htok (execWriteByte_run hd h hw hwrite) hread huok

/-- Settles O51: further attempts and waits keep what has landed (`WriteRun.run`). -/
theorem byteRoundTripThroughPolling : Obligations.ByteRoundTripThroughPolling := by
  intro s t w u k a d hd h hw hport hwrite hk hwok hread huok
  exact execReadByte_back h hw.nackNonzero hwok ((execWriteByte_run hd h hw hwrite).run hport k hk) hread huok

/-- Of the `n` bytes that came back the first are those the host presented (43_write.md R131 (6)). -/
theorem take_presented {k n : Nat} {buf back : List Byte} (h : back.take n = (pagePort k n buf).take n) :
    back.take (min n buf.length) = buf.take n := by
  have hmin : min (min n buf.length) n = min n buf.length := by omega
  calc back.take (min n buf.length) = (back.take n).take (min n buf.length) := by rw [List.take_take, hmin]
    _ = (pagePort k n buf).take (min n buf.length) := by rw [h, List.take_take, hmin]
    _ = buf.take n := take_pagePort k n buf

/-- Settles O53: as the byte's, with the bytes of the buffer port. -/
theorem pageRoundTrip : Obligations.PageRoundTrip := by
  intro s t u p n buf hd h hw hwrite htok hread huok
  have hback := execReadSequential_back h hw.nackNonzero htok (execWritePage_run hd h hw hwrite)
    (length_take_pagePort s.portDrawn n buf) hread huok
  exact ⟨hback, take_presented hback⟩

/-- Settles O58: further attempts and waits keep what has landed (`WriteRun.run`). -/
theorem pageRoundTripThroughPolling : Obligations.PageRoundTripThroughPolling := by
  intro s t w u k p n buf hd h hw hport hwrite hk hwok hread huok
  have hback := execReadSequential_back h hw.nackNonzero hwok ((execWritePage_run hd h hw hwrite).run hport k hk)
    (length_take_pagePort s.portDrawn n buf) hread huok
  exact ⟨hback, take_presented hback⟩

/-! ### The round trip completes -/

/-- In a fault-free ENV a sequential read of a ready chip ends with OK (44_read.md R152). -/
theorem sequentialRead_ready {s : State} {k a n : Nat} (hkind : s.env.kind = .chips) (hk : selectedChip s = some k)
    (hready : s.env.ChipReady k) (ha : a < s.cfg.memorySize) (hn : n ≠ 0) : (sequentialRead a n s).status = .ok := by
  rw [(sequentialRead_valid s ha hn).1]
  obtain ⟨-, -, ⟨hun, -⟩ | ⟨_, -, -, -, -, hfault⟩⟩ := positionForRead_chips (s := clearFault s) (.inl hkind) a
  · exact absurd (unreached_deviceValue.1 hun) (not_unreached_of_ready hk hready)
  · exact if_pos (hfault hkind)

theorem randomRead_ready {s : State} {k a : Nat} (hkind : s.env.kind = .chips) (hk : selectedChip s = some k)
    (hready : s.env.ChipReady k) (ha : a < s.cfg.memorySize) : (randomRead a s).status = .ok := by
  rw [(randomRead_as_sequential s a).1]
  exact sequentialRead_ready hkind hk hready ha one_ne_zero

/-- A read-back that finds what it expects ends with OK (43_write.md R132, R133). -/
theorem compareReadBack_matches {expected : List Byte} {r : ReadResult} (hst : r.status = .ok)
    (hbytes : r.bytes = expected) : (compareReadBack expected r).status = some .ok := by
  simp [compareReadBack, hst, hbytes]

/-- The read-back of a byte that stands in a ready chip. -/
theorem verifyByte_ready {s : State} {k a : Nat} {d : Byte} (hkind : s.env.kind = .chips) (hn : s.env.nackSet ≠ 0)
    (hk : selectedChip s = some k) (hready : s.env.ChipReady k) (ha : a < s.cfg.memorySize)
    (hholds : Holds s.cfg s.dsb a [d] s.env) : (verifyByte a d s).status = some .ok :=
  have hok := randomRead_ready hkind hk hready ha
  compareReadBack_matches hok (randomRead_holds (.inl hkind) hn hholds hok)

/-- The end of a WRITE_BYTE without a fault whose byte stands in a ready chip, checked or not (43_write.md R130). -/
theorem finishWrite_byte_ready {s : State} {k : Nat} (hkind : s.env.kind = .chips) (hn : s.env.nackSet ≠ 0)
    (hk : selectedChip s = some k) (hready : s.env.ChipReady k) (ha : s.a < s.cfg.memorySize) (hop : s.op = 3)
    (hfault : s.fault = 0) (hholds : Holds s.cfg s.dsb s.a [s.d] s.env) : (finishWrite s).status = some .ok := by
  have hc := closeWp_ran s
  have hstill := closeWp_still s (P := True)
  have hverify : (verifyByte (closeWp s).a (closeWp s).d (closeWp s)).status = some .ok := by
    refine verifyByte_ready (k := k) (hstill.kind.trans hkind) (hstill.nackSet ▸ hn) ?_ (hstill.ready k hready) ?_ ?_
    · unfold selectedChip
      rw [hc.cfg, hc.dsb, chipFor_of_pins hstill.pins]
      exact hk
    · rwa [hc.a, hc.cfg]
    · rw [hc.cfg, hc.dsb, hc.a, hc.d]
      exact hholds.of_still hstill
  have hop' : (closeWp s).op ≠ 4 := by
    rw [hc.op, hop]
    decide
  have hlatched : verifyLatched (closeWp s) = verifyByte (closeWp s).a (closeWp s).d (closeWp s) := if_neg hop'
  have hf : (closeWp s).fault = 0 := by rw [hc.fault, answersOr_wpCalls, hfault, Nat.or_zero]
  cases hi : (closeWp s).cfg.integrityCheck
  · simp [finishWrite, hf, hi]
  · simp [finishWrite, hf, hi, hlatched, hverify]

/-- The write sequence of a latched byte to a ready chip of a fault-free ENV, with a fixed delay. -/
theorem writeSequence_byte_ready {s : State} {k : Nat} (hkind : s.env.kind = .chips) (hw : s.env.WellFormed s.cfg)
    (hk : selectedChip s = some k) (hready : s.env.ChipReady k) (hp : s.cfg.ackPolling = false)
    (ha : s.a < s.cfg.memorySize) (hop : s.op = 3) (hin : WireInside s.cfg s.dsb s.a) :
    (writeSequence s.a [s.d] s).status = some .ok := by
  rw [writeSequence_of_delay hp]
  obtain ⟨_, _, _, _, -, hr, -⟩ := beforeWait_ran s s.a [s.d]
  obtain ⟨hhas, hnack, hpins⟩ := beforeWait_board s s.a [s.d] (.inl hkind)
  obtain ⟨hun, -⟩ | ⟨k', hstored, hfault⟩ := beforeWait_chips s s.a [s.d] (.inl hkind)
  · exact absurd hun (not_unreached_of_ready hk hready)
  · set u := writeTransaction s.a [s.d] (openWp (clearFault s))
    have hm := hr.moved_of_clearFault
    have hquiet := waitMs_quiet (P := True) u s.cfg.writeCycleMs
    have hend := waitMs_ready u hhas k
    rw [hm.cfg] at hend
    refine finishWrite_byte_ready (s := waitMs s.cfg.writeCycleMs u) (k := k)
      (hquiet.frame.kind.trans (hstored.kind.trans hkind)) ?_ ?_ hend ?_ (hm.op.trans hop) (hfault hkind) ?_
    · rw [hquiet.frame.nackSet, hnack]
      exact hw.nackNonzero
    · unfold selectedChip
      rw [waitMs_cfg, waitMs_dsb, hm.cfg, hm.dsb, hquiet.frame.chipFor, chipFor_of_pins hpins]
      exact hk
    · rw [waitMs_a, waitMs_cfg, hm.a, hm.cfg]
      exact ha
    · have hholds := (hstored.holds hw.arraysCanonical hin).of_still hquiet.still
      rwa [waitMs_cfg, waitMs_dsb, waitMs_a, waitMs_d, hm.cfg, hm.dsb, hm.a, hm.d]

theorem execWriteByte_of_readyIO {s : State} (hr : s.ReadyIO) {a : Nat} (ha : a < s.cfg.memorySize) (d : Byte) :
    exec (.writeByte a d) s = .next (writeSequence a [d] (latchData d (latchAddress a (startCommand 3 s)))) := by
  show execWriteByte a d s = _
  simp [execWriteByte, acceptIO_of_readyIO hr, addressOutOfRange, Nat.not_le.2 ha]

theorem execReadByte_of_readyIO {s : State} (hr : s.ReadyIO) (a : Nat) :
    exec (.readByte a) s = .next (endCommand (randomRead a (latchAddress a (startCommand 6 s))).status
      (deliverByte (randomRead a (latchAddress a (startCommand 6 s))).bytes
        (randomRead a (latchAddress a (startCommand 6 s))).after)) := by
  show execReadByte a s = _
  rw [execReadByte, acceptIO_of_readyIO hr]

/-- A command that has ended leaves the block ready for the next (60_exceptions.md R192). -/
theorem State.ReadyIO.of_keepsBlock {s t : State} (hr : s.ReadyIO) (hk : KeepsBlock s t) (hidle : t.seq = .idle) :
    t.ReadyIO :=
  ⟨⟨hk.cfg ▸ hr.1.1, hidle⟩, hk.dsbSet ▸ hr.2⟩

/-- Settles O52: the write ends with OK and has landed in chip `k`, which it leaves ready; so the read ends with OK, and
gives back what stands there. -/
theorem byteRoundTripCompletes : Obligations.ByteRoundTripCompletes := by
  intro s k a d hr hd hkind hw hidle hp ha
  obtain ⟨hk, hnotBusy⟩ := hidle
  have hn := hw.nackNonzero
  have hready : s.env.ChipReady k := fun ch hch => hnotBusy ch (List.mem_of_getElem? hch)
  have hwrite := execWriteByte_of_readyIO hr ha d
  have htok := writeSequence_byte_ready (s := latchData d (latchAddress a (startCommand 3 s))) hkind hw hk hready hp ha rfl
    (hd.wireInside hr.2 hr.1.1 ha)
  have htready := (writeSequence_ready (latchData d (latchAddress a (startCommand 3 s))) a [d] (.inl hkind)).1 hp k
  have htseq := (writeSequence_moved (latchData d (latchAddress a (startCommand 3 s))) a [d]).2
  have hrun := execWriteByte_run hd (.inl hkind) hw hwrite
  set t := writeSequence a [d] (latchData d (latchAddress a (startCommand 3 s)))
  have htidle : t.seq = .idle := by
    rcases htseq with ⟨hi, -⟩ | ⟨hpolling, -⟩
    · exact hi
    · exact absurd (hp.symm.trans hpolling) (by decide)
  have htk : selectedChip t = some k := by
    unfold selectedChip
    rw [hrun.block.cfg, hrun.block.dsb, chipFor_of_pins hrun.board.pins]
    exact hk
  have hread := execReadByte_of_readyIO (hr.of_keepsBlock hrun.block htidle) a
  have huok := randomRead_ready (s := latchAddress a (startCommand 6 t)) (k := k) (a := a)
    (hrun.board.kind.trans hkind) htk htready (hrun.block.cfg ▸ ha)
  refine ⟨t, _, hwrite, htok, ?_, hread, congrArg some huok, ?_⟩
  · obtain ⟨-, k', hk', hstand⟩ := hrun.lands.holds htok
    rw [chipFor_of_pins hrun.board.pins] at hk'
    obtain rfl : k' = k := Option.some.inj (hk'.symm.trans hk)
    exact hstand 0 (by simp)
  · exact execReadByte_back (.inl hkind) hn htok hrun hread (congrArg some huok)

end Sys2Proof.Machine

/-! PROOFS. The encodings: the command record both ways (30_encoding.md R70 to R73), the device value's bits (R75), the
status codes (R74), and the refusal of a command that does not exist (R73). -/

namespace Sys2Proof.Machine

/-! ### The command record -/

theorem decode_eq_ok {c : Config} {r : Command} (h : r.word < 2 ^ recordBits c) :
    decode c r = .ok (instrOfFields (unpackFields c r.word) r.buf) :=
  if_neg (Nat.not_le.2 h)

theorem decode_eq_error {c : Config} {r : Command} (h : 2 ^ recordBits c ≤ r.word) :
    decode c r = .error .bitsBeyondRecord :=
  if_pos h

theorem wpModeOfBit_wpModeBit (mode : WpMode) : wpModeOfBit (wpModeBit mode) = mode := by
  cases mode <;> rfl

/-- A command's own fields name it (30_encoding.md R71): the other ports' zeros are not read. -/
theorem instrOfFields_fieldsOf (i : Instr) : instrOfFields (fieldsOf i) (bufferOf i) = i := by
  cases i with
  | init => rfl
  | selectDevice id => rfl
  | wp mode => exact congrArg Instr.wp (wpModeOfBit_wpModeBit mode)
  | writeByte a d => simp [instrOfFields, fieldsOf]
  | writePage p n buf => rfl
  | readCurrentByte => rfl
  | readByte a => rfl
  | readSequential a n => rfl

/-- Settles O2: the command's fields fit their ports, so packing loses none of them and sets no further wire. -/
theorem decodeInvertsEncode : Obligations.DecodeInvertsEncode := by
  intro c i hfit
  have hfields := fieldsOf_fit hfit
  rw [decode_eq_ok (packFields_lt hfields)]
  simp only [encode, unpackFields_packFields hfields, instrOfFields_fieldsOf]

/-- Each port's own wires carry no more than the port does. -/
theorem unpackFields_fit (c : Config) (w : Nat) : (unpackFields c w).Fit c :=
  have below (x k : Nat) : x % 2 ^ k < 2 ^ k := Nat.mod_lt x (Nat.two_pow_pos k)
  ⟨below _ _, below _ _, below _ _, below _ _, below _ _, below _ _, Nat.mod_lt _ Nat.two_pos⟩

/-- Every 3-bit code names a command, and that command has the code (30_encoding.md R73). -/
theorem opcodeOf_instrOfFields {f : Fields} (hop : f.op < 8) (buf : List Byte) :
    opcodeOf (instrOfFields f buf) = f.op := by
  unfold instrOfFields
  split_ifs <;> simp only [opcodeOf] <;> omega

theorem operandsFit_instrOfFields {c : Config} {f : Fields} (h : f.Fit c) (buf : List Byte) :
    (instrOfFields f buf).operandsFit c = true := by
  obtain ⟨-, ha, -, hp, hn, hid, -⟩ := h
  unfold instrOfFields
  split_ifs <;> simp [Instr.operandsFit, ha, hp, hn, hid]

/-- Settles O3: within the record decoding reads each field off its own port's wires (`unpackFields_fit`). -/
theorem everyRecordIsItsCodesCommand : Obligations.EveryRecordIsItsCodesCommand := by
  intro c r
  have hfit := unpackFields_fit c r.word
  exact ⟨fun hin => ⟨_, decode_eq_ok hin, opcodeOf_instrOfFields hfit.1 r.buf, operandsFit_instrOfFields hfit r.buf⟩,
    decode_eq_error⟩

/-- A table word that the encoder drives without a buffer stands for its command. -/
theorem decodeTableWord_of_encode {nbits w : Nat} {i : Instr} (hfit : i.operandsFit Config.atReset = true)
    (henc : encode Config.atReset i = ⟨w % 2 ^ nbits, []⟩) : decodeTableWord nbits w = some i := by
  rw [decodeTableWord, ← henc, decodeInvertsEncode _ i hfit]
  rfl

/-- Settles O1: each word is what the encoder drives for its command. -/
theorem tableWordsDecode : Obligations.TableWordsDecode := by
  refine ⟨?_, ?_, ?_, ?_, ?_, ?_, ?_, ?_, ?_⟩ <;> exact decodeTableWord_of_encode (by decide) (by decide)

/-! ### The device value -/

/-- A bit of the device value is the address's where `ADDR_HIGH_MASK` is set, and the register's elsewhere
(30_encoding.md R75, 40_address_phase.md R100). -/
theorem encodeAddr_dev7_bit {c : Config} {dsb : Dev7} (hd : dsb &&& c.addrHighMask = 0) (a : Nat) {k : Nat} (hk : k < 7) :
    (encodeAddr c dsb a).dev7.getLsbD k = if c.addrHighMask.getLsbD k then a.testBit (16 + k) else dsb.getLsbD k := by
  have hclear : (dsb.getLsbD k && c.addrHighMask.getLsbD k) = false := by
    rw [← BitVec.getLsbD_and, hd]
    simp
  simp only [encodeAddr, BitVec.getLsbD_or, BitVec.getLsbD_and, BitVec.getLsbD_ofNat, Nat.testBit_shiftRight, hk,
    decide_true, Bool.true_and]
  cases hmask : c.addrHighMask.getLsbD k with
  | true =>
    rw [hmask, Bool.and_true] at hclear
    simp [hclear]
  | false => simp

/-- No memory size gives `ADDR_HIGH_MASK` a bit above bit 1 (00_scope.md R5). -/
theorem addrHighMask_bit_of_two_le {c : Config} (hA : admitted c = true) {k : Nat} (h2 : 2 ≤ k) (hk : k < 7) :
    c.addrHighMask.getLsbD k = false := by
  rcases masks_cases hA with ⟨-, hmask, -⟩ | ⟨-, hmask, -⟩ <;> rw [hmask]
  · exact (by decide : ∀ k < 7, 2 ≤ k → (0x03 : Dev7).getLsbD k = false) k hk h2
  · exact (by decide : ∀ k < 7, 2 ≤ k → (0x01 : Dev7).getLsbD k = false) k hk h2

/-- Settles O16: `ADDR_HIGH_MASK` is bits 1 and 0 on V2M and bit 0 below that (00_scope.md R5). -/
theorem deviceValueBits : Obligations.DeviceValueBits := by
  intro c dsb a hA hd
  have hbit {k : Nat} (hk : k < 7) := encodeAddr_dev7_bit hd a hk
  have hrest : ∀ k, 2 ≤ k → k < 7 → (encodeAddr c dsb a).dev7.getLsbD k = dsb.getLsbD k := fun k h2 hk => by
    simp [hbit hk, addrHighMask_bit_of_two_le hA h2 hk]
  rcases masks_cases hA with ⟨hsize, hmask, -⟩ | ⟨hsize, hmask, -⟩ <;> rw [hmask] at hbit
  · exact ⟨hbit (by decide), fun _ => hbit (by decide), fun hlt => absurd hsize (by omega), hrest⟩
  · exact ⟨hbit (by decide), fun hge => absurd hsize (by omega), fun _ => hbit (by decide), hrest⟩

/-! ### Absent commands -/

theorem fetchCommand_of_absent {c : Config} {r : Command} {i : Instr} (hdec : decode c r = .ok i)
    (habsent : i.existsIn c = false) : fetchCommand c r = .error (.illFormed .featureAbsent) := by
  simp [fetchCommand, hdec, Instr.problem, habsent]

/-- Settles O5: the port's record is fetched as the refusal, and both commands look first whether they exist. -/
theorem absentCommandsRefused : Obligations.AbsentCommandsRefused := by
  refine ⟨fun s r rest i hidle hport hdec habsent => ?_, fun s id hmulti => ?_, fun s mode hwp => ?_⟩
  · simp [step, hidle, hport, fetchCommand_of_absent hdec habsent]
  · simp [exec, execSelectDevice, hmulti]
  · simp [exec, execWp, hwp]

/-! ### The status codes -/

/-- The statuses in the order of the taxonomy (30_encoding.md R74). -/
def statusTaxonomy : List Status :=
  [.ok, .addressError, .pageError, .sizeError, .dataError, .transportError, .generalError]

/-- A status's code is its place in the taxonomy. -/
theorem statusTaxonomy_statusCode (st : Status) : statusTaxonomy[(statusCode st).toNat]? = some st := by
  cases st <;> rfl

theorem statusCode_injective : Function.Injective statusCode := by
  intro st st' h
  have hst := statusTaxonomy_statusCode st
  rw [h, statusTaxonomy_statusCode] at hst
  exact (Option.some.inj hst).symm

/-- The taxonomy has no place 7. -/
theorem statusCode_ne_seven (st : Status) : statusCode st ≠ 7 := by
  intro h
  have hst := statusTaxonomy_statusCode st
  rw [h] at hst
  exact absurd hst (by simp [statusTaxonomy])

/-- Settles O45: a code is its status's place in the taxonomy. -/
theorem statusCodesDistinct : Obligations.StatusCodesDistinct :=
  ⟨rfl, rfl, rfl, rfl, rfl, rfl, rfl, fun st _ => ⟨statusCode_ne_seven st, fun h => statusCode_injective h⟩⟩

end Sys2Proof.Machine

/-! PROOFS. The address phase: the triple of a valid address gives it back (40_address_phase.md R102). -/

namespace Sys2Proof.Machine

/-- Both variants meet R102's condition with equality. -/
theorem memorySize_eq_of_variant {c : Config} (hA : admitted c = true)
    (hvariant : c.memorySize = 131072 ∨ c.memorySize = 262144) :
    c.memorySize = 2 ^ 16 * (c.addrHighMask.toNat + 1) := by
  rcases masks_cases hA with ⟨hsize, hmask, -⟩ | ⟨hsize, hmask, -⟩ <;> rw [hmask]
  · exact hvariant.resolve_left (by omega)
  · exact hvariant.resolve_right (by omega)

/-- Two different valid addresses never produce the same triple: each is what a chip reassembles from its own. -/
theorem encodeAddr_inj {c : Config} {dsb : Dev7} (hA : admitted c = true) (hd : dsb &&& c.addrHighMask = 0)
    (hf : Addressable c) {a b : Nat} (ha : a < c.memorySize) (hb : b < c.memorySize)
    (htriple : encodeAddr c dsb a = encodeAddr c dsb b) : a = b := by
  rw [← joinAddr_encodeAddr_valid hA hd hf ha, htriple, joinAddr_encodeAddr_valid hA hd hf hb]

/-- Settles O15: a chip reassembles every valid address from its triple (`joinAddr_encodeAddr_valid`). -/
theorem encoderInvertible : Obligations.EncoderInvertible := fun _ _ hA hd =>
  ⟨memorySize_eq_of_variant hA, fun hf _ ha => (joinAddr_encodeAddr_valid hA hd hf ha).symm,
    fun hf _ _ ha hb => encodeAddr_inj hA hd hf ha hb⟩

end Sys2Proof.Machine

/-! PROOFS. INIT and SELECT_DEVICE, each as the whole next state (41_init_select.md R110, R111); the commands that write
nothing leave every array as it was. -/

namespace Sys2Proof.Machine

section InitSelect
variable {s : State}

theorem execInit_of_ready (hr : s.Ready) :
    exec .init s = .next (endCommand .ok (protectAtInit (writeDsb (initialDsb s.cfg) (startCommand 0 s)))) := by
  show execInit s = _
  exact accept_of_ready hr

theorem execSelectDevice_of_ready (hr : s.Ready) (hmulti : s.cfg.multiDevices = true) (id : Nat) :
    exec (.selectDevice id) s = .next (endCommand .ok (writeDsb (selectedDsb s.cfg id) (startCommand 1 s))) :=
  (if_pos hmulti).trans (accept_of_ready hr)

/-- A command that never left IDLE moves nothing but the response when it ends. -/
theorem endCommand_of_idle (hidle : s.seq = .idle) (st : Status) : endCommand st s = { s with status := some st } := by
  rw [endCommand, ← hidle]

end InitSelect

/-- INIT's WP step, with WP control and without, as one state. -/
theorem protectAtInit_eq (s : State) :
    protectAtInit s = { s with
      env := if s.cfg.wpControl then { s.env with wpLevel := .high } else s.env
      trace := s.trace ++ wpCalls s.cfg .high } := by
  cases hw : s.cfg.wpControl <;> simp [protectAtInit, wpSet, envWp, wpCalls, hw]

/-- Settles O11: INIT runs in IDLE, where its end moves the response only; its WP step is `protectAtInit_eq`. -/
theorem initResult : Obligations.InitResult := by
  intro s hr
  have hidle : (protectAtInit (writeDsb (initialDsb s.cfg) (startCommand 0 s))).seq = .idle := by
    simp [protectAtInit_eq, hr.2]
  rw [execInit_of_ready hr, endCommand_of_idle hidle, protectAtInit_eq]
  rfl

/-- Settles O12: SELECT_DEVICE runs in IDLE, where its end moves the response only; between the two it writes `dsb`. -/
theorem selectDeviceResult : Obligations.SelectDeviceResult := by
  intro s id hr hmulti
  have hidle : (writeDsb (selectedDsb s.cfg id) (startCommand 1 s)).seq = .idle := hr.2
  rw [execSelectDevice_of_ready hr hmulti id, endCommand_of_idle hidle]
  rfl

/-- Settles O48: a command that stores a transaction is one of the two write commands (`exec_env`), and what stores
nothing keeps every array. -/
theorem arraysUnchangedWithoutWrite : Obligations.ArraysUnchangedWithoutWrite := by
  intro i s t hbyte hpage hexec
  obtain hstill | ⟨-, _, _, _, _, -, -, hwrite, -⟩ := exec_env hexec
  · exact byteAt_of_arrays hstill.arrays
  · obtain ⟨_, hi, -⟩ | ⟨_, _, _, hi, -⟩ := hwrite
    · exact absurd hi (hbyte _ _)
    · exact absurd hi (hpage _ _ _)

end Sys2Proof.Machine

/-! PROOFS. The polling loop (42_write_wait.md R121, 70_reset_and_hazards.md R216): one attempt, and any number of them
against an absent chip and against a transport of given answers. -/

namespace Sys2Proof.Machine

section Attempt
variable {s : State}

/-- A refused attempt stays in the loop, and only its two calls have been made (42_write_wait.md R121). -/
theorem pollAttempt_of_refused (hs : s.seq = .pollStart) (hg : (busAddr s.dsb .write (busStart s)).1 ≠ 0) :
    pollAttempt s = (busAddr s.dsb .write (busStart s)).2 := by
  simp only [pollAttempt, hg, if_false]
  rw [← hs]
  rfl

/-- An acknowledged attempt goes on to the end of the write. -/
theorem pollAttempt_of_acknowledged (hg : (busAddr s.dsb .write (busStart s)).1 = 0) :
    pollAttempt s = finishWrite (busStop (busAddr s.dsb .write (busStart s)).2) := by
  simp only [pollAttempt, hg, if_true]

/-- In the loop the first step of a run is one more attempt. -/
theorem run_of_polling (hA : admitted s.cfg = true) (hs : s.seq = .pollStart) (k : Nat) :
    core.run (k + 1) s = core.run k (pollAttempt s) := by
  have hstep : core.step s = .next (pollAttempt s) := step_of_polling hA hs
  simp only [Host.Core.run, hstep]

end Attempt

/-- Settles O23: the attempt of `pollAttempt_spec`, whose refused calls leave the WP level (`probe_quiet`). -/
theorem pollingAttempt : Obligations.PollingAttempt := by
  intro s hA hs ha hop
  have hv : LatchedValid s := by
    refine ⟨ha, fun h4 => ?_⟩
    obtain h3 | ⟨-, hn⟩ := hop
    · simp [h3] at h4
    · exact hn
  obtain ⟨g, ⟨_, hm⟩, hrefused, hacknowledged⟩ := pollAttempt_spec hv
  refine ⟨g, _, step_of_polling hA hs, hm.keepsBlock, fun hg => ?_, hacknowledged⟩
  obtain ⟨he, henv⟩ := hrefused hg
  rw [← hs] at he
  exact ⟨he, henv ▸ (probe_quiet (P := True) s s.dsb .write).frame.wpLevel⟩

/-! ### An absent chip -/

/-- No chip acknowledges a device value that none has (20_memory.md R61). -/
theorem busAddr_absent {s : State} (h : s.env.HasChips) (hn : s.env.nackSet ≠ 0) (habsent : selectedChip s = none)
    (dir : Dir) : (busAddr s.dsb dir (busStart s)).1 ≠ 0 := by
  show (envAddr s.cfg s.dsb dir (envStart s.env)).1 ≠ 0
  rw [envStart_chips h]
  obtain ⟨f, ds, n, -, ⟨-, he⟩ | ⟨k, hk, -⟩⟩ := envAddr_chips (e := { s.env with nsent := 0 }) h s.cfg s.dsb dir
  · rw [he]
    exact or_ne_zero_left hn
  · exact absurd (habsent.symm.trans hk) (by simp)

/-- Settles O24, by induction on the number of steps: a refused attempt leaves the board, so the next one finds no chip
either. -/
theorem pollingAbsentChipNeverReturns : Obligations.PollingAbsentChipNeverReturns := by
  intro s k
  induction k generalizing s with
  | zero =>
    intro _ hs _ _ _
    exact ⟨s, rfl, hs, rfl, rfl, rfl, rfl⟩
  | succ k ih =>
    intro hA hs hkind hn habsent
    have hframe := (probe_quiet (P := True) s s.dsb .write).frame
    obtain ⟨t, hrun, hloop, hst, hwp, hport, hlen⟩ := ih (busAddr s.dsb .write (busStart s)).2 hA hs
      (hframe.kind.trans hkind) (hframe.nackSet ▸ hn) ((hframe.chipFor _ _).trans habsent)
    have hcalls : (busAddr s.dsb .write (busStart s)).2.trace.length = s.trace.length + 2 := by simp
    refine ⟨t, ?_, hloop, hst, hwp.trans hframe.wpLevel, hport, by omega⟩
    rw [run_of_polling hA hs, pollAttempt_of_refused hs (busAddr_absent (.inl hkind) hn habsent .write), hrun]

/-! ### Given answers -/

/-- A mock answers a device value with the next draw's fault set (10_state.md R32; log 6). -/
theorem busAddr_mock {s : State} {d : Draw} {ds : List Draw} (hmock : s.env.kind = .mock) (hd : s.env.draws = d :: ds)
    (dev : Dev7) (dir : Dir) : (busAddr dev dir (busStart s)).1 = faultSet s.cfg d.fault ∧
      (busAddr dev dir (busStart s)).2.env = { s.env with draws := ds } := by
  simp [envStart_mock hmock, envAddr, nextDraw, hmock, hd]

/-- Settles O25, by induction on the faults before the first acknowledge: each is answered to one attempt. -/
theorem pollingEndsAtFirstAcknowledge : Obligations.PollingEndsAtFirstAcknowledge := by
  intro s faults good more
  induction faults generalizing s with
  | nil =>
    intro hA hs hst hmock hd _ hgood
    obtain ⟨hanswer, -⟩ := busAddr_mock hmock hd s.dsb .write
    obtain ⟨-, hidle, hended⟩ := finishWrite_moved (busStop (busAddr s.dsb .write (busStart s)).2)
    refine ⟨⟨s, rfl, hs, hst⟩, pollAttempt s, run_of_polling hA hs 0, ?_⟩
    rw [pollAttempt_of_acknowledged (hanswer.trans hgood)]
    exact ⟨hidle, hended⟩
  | cons d faults ih =>
    intro hA hs hst hmock hd hfaults hgood
    obtain ⟨hanswer, henv⟩ := busAddr_mock hmock hd s.dsb .write
    obtain ⟨hd0, hfaults⟩ := List.forall_mem_cons.1 hfaults
    have hrefused := pollAttempt_of_refused hs (hanswer ▸ hd0)
    rw [List.length_cons, run_of_polling hA hs, run_of_polling hA hs, hrefused]
    exact ih _ hA hs hst (by rw [henv]; exact hmock) (by rw [henv]; rfl) hfaults hgood

end Sys2Proof.Machine

/-! PROOFS. The two wait strategies (42_write_wait.md R123): which commands wait or poll, by their calls, and in which shape
a write stays in the polling loop (R121). -/

namespace Sys2Proof.Machine

/-! ### Calls that neither wait nor poll -/

/-- The calls hold no wait and no polling call, whatever follows them. -/
structure Plain (cs : List Call) : Prop where
  noWait : ∀ m, .waitMs m ∉ cs
  noPoll : ∀ r, pollsIn (cs ++ r) = pollsIn r

section Plain
variable {cs ds : List Call}

theorem Plain.nil : Plain [] := ⟨by simp, fun _ => rfl⟩

theorem Plain.append (h : Plain cs) (h' : Plain ds) : Plain (cs ++ ds) :=
  ⟨fun m hm => (List.mem_append.1 hm).elim (h.noWait m) (h'.noWait m),
    fun r => by rw [List.append_assoc, h.noPoll, h'.noPoll]⟩

theorem Plain.pollsIn_eq (h : Plain cs) : pollsIn cs = false := by
  simpa [pollsIn] using h.noPoll []

end Plain

theorem waitMs_notMem_recvCalls (m : Nat) (bs : List Byte) : Call.waitMs m ∉ recvCalls bs := by
  induction bs with
  | nil => simp [recvCalls]
  | cons b bs ih =>
    cases bs with
    | nil => simp [recvCalls]
    | cons b' bs => simpa [recvCalls] using ih

theorem waitMs_notMem_sends (m : Nat) (bytes : List Byte) (fs : List Nat) :
    Call.waitMs m ∉ List.zipWith Call.send bytes fs := by
  induction bytes generalizing fs with
  | nil => simp
  | cons b bs ih =>
    cases fs with
    | nil => simp
    | cons f fs => simpa using ih fs

theorem wpCalls_plain (c : Config) (l : Level) : Plain (wpCalls c l) := by
  refine ⟨fun m => ?_, pollsIn_wpCalls c l⟩
  unfold wpCalls
  split <;> simp

theorem writeCalls_plain (c : Config) (dsb : Dev7) (a f0 f1 f2 : Nat) (bytes : List Byte) (fs : List Nat) :
    Plain (writeCalls c dsb a f0 f1 f2 bytes fs) := by
  refine ⟨fun m => ?_, pollsIn_writeCalls c dsb a f0 f1 f2 bytes fs⟩
  simp [writeCalls, addressCalls, waitMs_notMem_sends]

theorem readCalls_plain (c : Config) (dsb : Dev7) (a f0 f1 f2 f3 : Nat) (bs : List Byte) :
    Plain (readCalls c dsb a f0 f1 f2 f3 bs) := by
  refine ⟨fun m => ?_, pollsIn_readCalls c dsb a f0 f1 f2 f3 bs⟩
  simp [readCalls, addressCalls, waitMs_notMem_recvCalls]

/-! ### A write past its validation -/

/-- After its wait a write closes WP and reads back at most. -/
theorem WriteEnds.plain {s t : State} {a f : Nat} {bytes : List Byte} {pre : List Call}
    (h : WriteEnds s a bytes f pre t) : ∃ cs, t.trace = pre ++ cs ∧ Plain cs := by
  have hwp := wpCalls_plain s.cfg .high
  by_cases hf : f = 0
  · cases hi : s.cfg.integrityCheck with
    | false => exact ⟨_, (h.unchecked hf hi).1, hwp⟩
    | true =>
      obtain ⟨g0, g1, g2, g3, bs, -, htrace, -⟩ := h.checked hf hi
      exact ⟨_, htrace.trans (List.append_assoc ..), hwp.append (readCalls_plain s.cfg s.dsb a g0 g1 g2 g3 bs)⟩
  · exact ⟨_, (h.faulted hf).1, hwp⟩

/-- The calls of the write-completion wait, by the configured strategy (42_write_wait.md R120, R121). -/
structure WaitCalls (c : Config) (cs : List Call) : Prop where
  polling : c.ackPolling = true → ∀ m, .waitMs m ∉ cs
  delay : c.ackPolling = false → cs = [.waitMs c.writeCycleMs]

theorem WaitCalls.of_polling {c : Config} {cs : List Call} (hp : c.ackPolling = true) (h : ∀ m, .waitMs m ∉ cs) :
    WaitCalls c cs :=
  ⟨fun _ => h, fun hd => by simp [hp] at hd⟩

theorem WaitCalls.of_delay {c : Config} (hp : ¬ c.ackPolling = true) : WaitCalls c [.waitMs c.writeCycleMs] :=
  ⟨fun h => absurd h hp, fun _ => rfl⟩

/-- Whatever the strategy, a wait is of `WRITE_CYCLE_MS`. -/
theorem WaitCalls.eq_of_waitMs_mem {c : Config} {cs : List Call} (h : WaitCalls c cs) {m : Nat} (hm : .waitMs m ∈ cs) :
    m = c.writeCycleMs := by
  cases hp : c.ackPolling with
  | true => exact absurd hm (h.polling hp m)
  | false =>
    rw [h.delay hp] at hm
    simpa using hm

/-- The wait's own calls come first, then those of the end. -/
theorem waitWrite_calls {s : State} (hv : LatchedValid s) :
    ∃ ws cs, (waitWrite s).trace = s.trace ++ (ws ++ cs) ∧ WaitCalls s.cfg ws ∧ Plain cs := by
  unfold waitWrite
  split
  · next hp =>
    obtain ⟨g, -, hrefused, hacknowledged⟩ := pollAttempt_spec hv
    by_cases hg : g = 0
    · obtain ⟨cs, htrace, hplain⟩ := (hacknowledged hg).plain
      exact ⟨_, cs, htrace.trans (List.append_assoc ..), .of_polling hp (by simp), hplain⟩
    · obtain ⟨he, -⟩ := hrefused hg
      exact ⟨[.start, .addr s.dsb .write g], [], by rw [he, List.append_nil], .of_polling hp (by simp), .nil⟩
  · next hp =>
    obtain ⟨cs, htrace, hplain⟩ := (finishWrite_spec (s := waitMs s.cfg.writeCycleMs s) hv).2.plain
    exact ⟨_, cs, htrace.trans (List.append_assoc ..), .of_delay hp, hplain⟩

theorem writeSequence_calls {s : State} (hv : LatchedValid s) (a : Nat) (bytes : List Byte) :
    ∃ pre ws post, (writeSequence a bytes s).trace = s.trace ++ (pre ++ (ws ++ post)) ∧
      Plain pre ∧ WaitCalls s.cfg ws ∧ Plain post := by
  obtain ⟨f0, f1, f2, fs, -, hr, -⟩ := beforeWait_ran s a bytes
  have hu : LatchedValid (writeTransaction a bytes (openWp (clearFault s))) := by
    unfold LatchedValid at *
    rwa [hr.cfg, hr.a, hr.op, hr.n, hr.bufPort]
  obtain ⟨ws, post, htrace, hwait, hpost⟩ := waitWrite_calls hu
  rw [hr.trace, List.append_assoc] at htrace
  rw [hr.cfg] at hwait
  exact ⟨_, ws, post, htrace, (wpCalls_plain _ _).append (writeCalls_plain ..), hwait, hpost⟩

/-- A write whose first attempt is refused has WP open: neither its transaction nor the attempt drives the pin
(43_write.md R134, 70_reset_and_hazards.md R216). -/
theorem writeSequence_wpLow {s : State} {a : Nat} {bytes : List Byte} (hw : s.cfg.wpControl = true)
    (hloop : (writeSequence a bytes s).seq = .pollStart) : (writeSequence a bytes s).env.wpLevel = .low := by
  obtain ⟨_, _, _, _, -, hr, -⟩ := beforeWait_ran s a bytes
  obtain ⟨-, -, -, hopen⟩ := openWp_board (clearFault s)
  have hbus := (writeTransaction_frame (openWp (clearFault s)) a bytes).wpLevel
  simp only [writeSequence] at hloop ⊢
  generalize writeTransaction a bytes (openWp (clearFault s)) = u at hbus hloop ⊢
  unfold waitWrite at hloop ⊢
  split at hloop
  · next hpolling =>
    obtain ⟨hidle, -⟩ | ⟨-, -, henv⟩ := pollAttempt_cases u
    · simp [hidle] at hloop
    · rw [if_pos hpolling, henv, (probe_quiet (P := True) u u.dsb .write).frame.wpLevel, hbus, hopen hw]
  · simp [(finishWrite_moved _).2.1] at hloop

/-! ### Each command -/

/-- The command is one of the two writes. -/
def IsWrite (i : Instr) : Prop := (∃ a d, i = .writeByte a d) ∨ ∃ p n buf, i = .writePage p n buf

/-- From `u` a write command that `s` has accepted begins its write sequence: its operands are latched and have passed
validation, and no call has been made. -/
structure WriteBegins (s u : State) : Prop where
  block : KeepsBlock s u
  dsbSet : u.dsbSet = true
  op : u.op = 3 ∨ u.op = 4
  valid : LatchedValid u
  status : u.status = none
  trace : u.trace = s.trace

/-- The command has run a write sequence after its validation. -/
def RunsWrite (s t : State) : Prop := ∃ u a bytes, WriteBegins s u ∧ t = writeSequence a bytes u

/-- The command has ended at once, with neither a wait nor a polling call. -/
def EndedPlain (s t : State) : Prop := t.seq = .idle ∧ ∃ cs, t.trace = s.trace ++ cs ∧ Plain cs

/-- A sequential read of bad operands ends before its first call (60_exceptions.md R181, R183). -/
theorem sequentialRead_of_invalid {s : State} {a n : Nat} (h : ¬ (a < s.cfg.memorySize ∧ n ≠ 0)) :
    (sequentialRead a n s).after = s := by
  unfold sequentialRead
  split
  · rfl
  · next ha =>
    have ha : a < s.cfg.memorySize := by simpa [addressOutOfRange] using ha
    split
    · rfl
    · next hn => exact absurd ⟨ha, hn⟩ h

section Commands
variable {s t : State} {a n p : Nat} {d : Byte} {buf : List Byte}

theorem execWriteByte_begins (h : exec (.writeByte a d) s = .next t) : EndedPlain s t ∨ RunsWrite s t := by
  obtain ⟨⟨-, hset⟩, ⟨-, rfl⟩ | ⟨ha, rfl⟩⟩ := execWriteByte_next h
  · exact .inl ⟨rfl, [], by simp, .nil⟩
  · refine .inr ⟨latchData d (latchAddress a (startCommand 3 s)), a, [d],
      ⟨⟨rfl, rfl, rfl, rfl⟩, hset, .inl rfl, ?_, rfl, rfl⟩, rfl⟩
    exact ⟨ha, fun h4 => by simp at h4⟩

theorem execWritePage_begins (h : exec (.writePage p n buf) s = .next t) : EndedPlain s t ∨ RunsWrite s t := by
  obtain ⟨⟨⟨hA, -⟩, hset⟩, ⟨-, rfl⟩ | ⟨-, -, rfl⟩ | ⟨hp, hn, -, rfl⟩⟩ := execWritePage_next h
  · exact .inl ⟨rfl, [], by simp, .nil⟩
  · exact .inl ⟨rfl, [], by simp, .nil⟩
  · refine .inr ⟨latchAddress (pageAddress s.cfg p) (latchPage n buf (latchLength n (startCommand 4 s))),
      pageAddress s.cfg p, _, ⟨⟨rfl, rfl, rfl, rfl⟩, hset, .inr rfl, ?_, rfl, rfl⟩, rfl⟩
    exact ⟨pageAddress_lt hA hp, fun _ => ⟨hn, by simp [length_pagePort]⟩⟩

theorem execReadCurrentByte_endedPlain (h : exec .readCurrentByte s = .next t) : EndedPlain s t := by
  obtain ⟨-, rfl⟩ := execReadCurrentByte_next h
  obtain ⟨f, b, hr, -⟩ := currentRead_ran (startCommand 5 s)
  rw [deliverByte_eq]
  exact ⟨rfl, _, hr.trace, by simp, fun _ => rfl⟩

theorem execReadByte_endedPlain (h : exec (.readByte a) s = .next t) : EndedPlain s t := by
  obtain ⟨-, rfl⟩ := execReadByte_next h
  rw [deliverByte_eq]
  refine ⟨rfl, ?_⟩
  by_cases ha : a < s.cfg.memorySize
  · obtain ⟨f0, f1, f2, f3, b, hr, -⟩ := randomRead_ran (latchAddress a (startCommand 6 s)) ha
    exact ⟨_, hr.trace, readCalls_plain ..⟩
  · exact ⟨[], by simp [randomRead, addressOutOfRange, Nat.not_lt.1 ha], .nil⟩

theorem execReadSequential_endedPlain (h : exec (.readSequential a n) s = .next t) : EndedPlain s t := by
  obtain ⟨-, rfl⟩ := execReadSequential_next h
  refine ⟨rfl, ?_⟩
  by_cases hvalid : a < s.cfg.memorySize ∧ n ≠ 0
  · obtain ⟨f0, f1, f2, f3, bs, -, hr, -⟩ :=
      sequentialRead_ran (latchLength n (latchAddress a (startCommand 7 s))) hvalid.1 hvalid.2
    exact ⟨_, hr.trace, readCalls_plain ..⟩
  · have hafter := sequentialRead_of_invalid (s := latchLength n (latchAddress a (startCommand 7 s))) hvalid
    exact ⟨[], (congrArg State.trace hafter).trans (List.append_nil _).symm, .nil⟩

end Commands

/-- What an accepted command does about waiting: it ends at once with neither wait nor polling, or it is a write past its
validation. -/
theorem exec_endedPlain_or_write {i : Instr} {s t : State} (h : exec i s = .next t) :
    EndedPlain s t ∨ IsWrite i ∧ RunsWrite s t := by
  cases i with
  | init =>
    obtain ⟨-, rfl⟩ := execInit_next h
    rw [protectAtInit_eq]
    exact .inl ⟨rfl, _, rfl, wpCalls_plain _ _⟩
  | selectDevice id =>
    obtain ⟨-, -, rfl⟩ := execSelectDevice_next h
    exact .inl ⟨rfl, [], by simp, .nil⟩
  | wp mode =>
    obtain ⟨-, -, rfl⟩ := execWp_next h
    exact .inl ⟨rfl, _, rfl, by simp, fun _ => rfl⟩
  | writeByte a d => exact (execWriteByte_begins h).imp_right fun hw => ⟨.inl ⟨a, d, rfl⟩, hw⟩
  | writePage p n buf => exact (execWritePage_begins h).imp_right fun hw => ⟨.inr ⟨p, n, buf, rfl⟩, hw⟩
  | readCurrentByte => exact .inl (execReadCurrentByte_endedPlain h)
  | readByte a => exact .inl (execReadByte_endedPlain h)
  | readSequential a n => exact .inl (execReadSequential_endedPlain h)

/-- Settles O27: only a write past its validation waits or polls (`exec_endedPlain_or_write`), and its calls but for the
wait's own are plain (`writeSequence_calls`). -/
theorem waitStrategiesExclusive : Obligations.WaitStrategiesExclusive := by
  intro i s t h
  obtain ⟨hidle, cs, htrace, hplain⟩ | ⟨hi, u, a, bytes, hu, rfl⟩ := exec_endedPlain_or_write h
  · refine ⟨cs, htrace, fun _ => hplain.noWait, fun _ => ⟨hidle, hplain.pollsIn_eq⟩,
      fun m hm => absurd hm (hplain.noWait m), ?_⟩
    rintro (⟨m, hm⟩ | hpoll)
    · exact absurd hm (hplain.noWait m)
    · simp [hplain.pollsIn_eq] at hpoll
  · obtain ⟨pre, ws, post, htrace, hpre, hwait, hpost⟩ := writeSequence_calls hu.valid a bytes
    obtain ⟨-, hends⟩ := writeSequence_moved u a bytes
    rw [hu.trace] at htrace
    rw [hu.block.cfg] at hwait hends
    have hmem : ∀ m, Call.waitMs m ∈ pre ++ (ws ++ post) → Call.waitMs m ∈ ws := fun m hm => by
      simpa [hpre.noWait, hpost.noWait] using hm
    refine ⟨_, htrace, fun hp m hm => hwait.polling hp m (hmem m hm), fun hp => ⟨?_, ?_⟩,
      fun m hm => hwait.eq_of_waitMs_mem (hmem m hm), fun _ => hi⟩
    · obtain ⟨hidle, -⟩ | ⟨hpolling, -⟩ := hends
      · exact hidle
      · simp [hp] at hpolling
    · rw [hpre.noPoll, hwait.delay hp]
      exact hpost.pollsIn_eq

/-! ### The shape of a polling state -/

/-- One more attempt keeps the latches, the status and, while it is refused, the WP level. -/
theorem pollAttempt_pollingShape {s : State} (hs : s.seq = .pollStart) :
    (s.PollingShape → (pollAttempt s).PollingShape) ∧ (s.PollingBuffer → (pollAttempt s).PollingBuffer) := by
  obtain ⟨⟨_, hm⟩, -⟩ := pollAttempt_moved s
  constructor
  · intro hshape hloop
    obtain ⟨hidle, -⟩ | ⟨-, hst, henv⟩ := pollAttempt_cases s
    · simp [hidle] at hloop
    · rw [hm.cfg, hm.dsbSet, hm.op, hst, hm.a, hm.n, henv, (probe_quiet (P := True) s s.dsb .write).frame.wpLevel]
      exact hshape hs
  · intro hbuffer _
    rw [hm.op, hm.n, hm.bufPort]
    exact hbuffer hs

/-- A command that stays in the loop is a write past its validation, with its latches held and WP open. -/
theorem exec_pollingShape {i : Instr} {s t : State} (h : exec i s = .next t) : t.PollingShape ∧ t.PollingBuffer := by
  obtain ⟨hidle, -⟩ | ⟨-, u, a, bytes, hu, rfl⟩ := exec_endedPlain_or_write h
  · constructor <;> intro hloop <;> simp [hidle] at hloop
  · obtain ⟨⟨_, hm⟩, hends⟩ := writeSequence_moved u a bytes
    obtain ⟨ha, hpage⟩ := hu.valid
    constructor
    · intro hloop
      obtain ⟨hidle, -⟩ | ⟨hpolling, -, hst⟩ := hends
      · simp [hidle] at hloop
      · refine ⟨?_, hm.dsbSet.trans hu.dsbSet, ?_, hst.trans hu.status, ?_, ?_, fun hw => ?_⟩
        · rwa [hm.cfg]
        · rw [hm.op]
          exact hu.op
        · rwa [hm.a, hm.cfg]
        · rw [hm.op, hm.n]
          exact fun h4 => (hpage h4).1
        · exact writeSequence_wpLow (hm.cfg ▸ hw) hloop
    · intro _
      rw [hm.op, hm.n, hm.bufPort]
      exact fun h4 => (hpage h4).2

/-- Settles O34: an attempt keeps the shape (`pollAttempt_pollingShape`), a waiting block stays as it is, and a command
that comes into the loop has it (`exec_pollingShape`). -/
theorem pollingShapeInvariant : Obligations.PollingShapeInvariant := by
  intro s t h
  obtain ⟨hs, -, rfl⟩ | ⟨-, -, rfl⟩ | ⟨_, rest, _, -, -, -, hexec⟩ := step_next h
  · exact pollAttempt_pollingShape hs
  · exact ⟨id, id⟩
  · obtain ⟨hshape, hbuffer⟩ := exec_pollingShape (s := { s with port := rest }) hexec
    exact ⟨fun _ => hshape, fun _ => hbuffer⟩

end Sys2Proof.Machine

/-! PROOFS. What a write command past its validation calls and how it ends (43_write.md R130 to R135), and what its buffer
port holds (R131 (6)). -/

namespace Sys2Proof.Machine

/-! ### The write sequence from latched operands -/

/-- How a write comes out of its first wait, `pre` being the calls before it: with a fixed delay it ends; with polling it ends
on an acknowledge and stays in the loop on a refusal (42_write_wait.md R120, R121). -/
structure WaitEnds (s : State) (a : Nat) (bytes : List Byte) (f : Nat) (pre : List Call) (t : State) : Prop where
  delayed : s.cfg.ackPolling = false → WriteEnds s a bytes f (pre ++ [.waitMs s.cfg.writeCycleMs]) t
  polled : s.cfg.ackPolling = true → ∃ g,
    (g = 0 → WriteEnds s a bytes f (pre ++ [.start, .addr s.dsb .write 0, .stop]) t) ∧
    (g ≠ 0 → t = { s with
      seq := .pollStart
      fault := f
      i := t.i
      env := t.env
      trace := pre ++ [.start, .addr s.dsb .write g] })

theorem waitWrite_spec {s : State} (hv : LatchedValid s) :
    WaitEnds s s.a (latchedBytes s) s.fault s.trace (waitWrite s) := by
  constructor <;> intro hp
  · rw [waitWrite, if_neg (by simp [hp])]
    exact (finishWrite_spec (s := waitMs s.cfg.writeCycleMs s) hv).2.of_eq (waitMs_cfg s _) (waitMs_dsb s _)
  · rw [waitWrite, if_pos hp]
    obtain ⟨g, -, hrefused, hacknowledged⟩ := pollAttempt_spec hv
    refine ⟨g, hacknowledged, fun hg => ?_⟩
    rw [(hrefused hg).1]

/-- The calls before the wait move neither the latches nor the status. -/
theorem WaitEnds.of_ran {s u t : State} {a f : Nat} {bytes : List Byte} {cs pre : List Call}
    (hr : Ran (clearFault s) cs u) (h : WaitEnds u a bytes f pre t) : WaitEnds s a bytes f pre t := by
  obtain ⟨hdelayed, hpolled⟩ := h
  rw [hr.cfg] at hdelayed hpolled
  rw [hr.dsb] at hpolled
  refine ⟨fun hp => (hdelayed hp).of_eq hr.cfg hr.dsb, fun hp => ?_⟩
  obtain ⟨g, hacknowledged, hrefused⟩ := hpolled hp
  refine ⟨g, fun hg => (hacknowledged hg).of_eq hr.cfg hr.dsb, fun hg => ?_⟩
  rw [hrefused hg, hr]
  rfl

/-- The write sequence of the latched operands: WP opened, the transaction with all its calls whatever they answer, the wait
(43_write.md R130, R131, R135). -/
theorem writeSequence_spec {s : State} {a : Nat} {bytes : List Byte} (hv : LatchedValid s) (ha : s.a = a)
    (hb : latchedBytes s = bytes) :
    ∃ f0 f1 f2, ∃ fs : List Nat, fs.length = bytes.length ∧
      WaitEnds s a bytes (f0 ||| f1 ||| f2 ||| fs.foldr (· ||| ·) 0)
        (s.trace ++ wpCalls s.cfg .low ++ writeCalls s.cfg s.dsb a f0 f1 f2 bytes fs) (writeSequence a bytes s) := by
  subst ha hb
  obtain ⟨f0, f1, f2, fs, hlen, hr, hf⟩ := beforeWait_ran s s.a (latchedBytes s)
  have hu : LatchedValid (writeTransaction s.a (latchedBytes s) (openWp (clearFault s))) := by
    unfold LatchedValid at *
    rwa [hr.cfg, hr.a, hr.op, hr.n, hr.bufPort]
  have hbytes : latchedBytes (writeTransaction s.a (latchedBytes s) (openWp (clearFault s))) = latchedBytes s := by
    rw [latchedBytes, hr.op, hr.n, hr.bufPort, hr.d]
    rfl
  have hwait := (waitWrite_spec hu).of_ran hr
  rw [hbytes, hf, hr.a, hr.trace, ← List.append_assoc] at hwait
  exact ⟨f0, f1, f2, fs, hlen, hwait⟩

/-! ### WRITE_BYTE -/

/-- The state from which a WRITE_BYTE past its validation runs its write sequence. -/
def byteLatched (a : Nat) (d : Byte) (s : State) : State := latchData d (latchAddress a (startCommand 3 s))

theorem byteLatched_begins {s : State} {a : Nat} (hr : s.ReadyIO) (ha : a < s.cfg.memorySize) (d : Byte) :
    WriteBegins s (byteLatched a d s) where
  block := ⟨rfl, rfl, rfl, rfl⟩
  dsbSet := hr.2
  op := .inl rfl
  valid := ⟨ha, fun h4 => by simp [byteLatched] at h4⟩
  status := rfl
  trace := rfl

/-- Settles O21: WRITE_BYTE on a valid address is the write sequence of its latches (`writeSequence_spec`), with one data
byte. -/
theorem writeByteResult : Obligations.WriteByteResult := by
  intro s a d hr ha
  have hbegins := byteLatched_begins hr ha d
  have hk := hbegins.block
  obtain ⟨⟨_, hm⟩, -⟩ := writeSequence_moved (byteLatched a d s) a [d]
  obtain ⟨f0, f1, f2, fs, hlen, hdelayed, hpolled⟩ := writeSequence_spec hbegins.valid rfl rfl
  obtain ⟨f3, rfl⟩ := List.length_eq_one_iff.1 hlen
  simp only [List.foldr_cons, List.foldr_nil, Nat.or_zero] at hdelayed hpolled
  refine ⟨f0, f1, f2, f3, _, _, execWriteByte_of_readyIO hr ha d, hm.keepsBlock.after hk, rfl,
    fun hp => (hdelayed hp).of_eq hk.cfg hk.dsb, fun hp => ?_⟩
  obtain ⟨g, hacknowledged, hrefused⟩ := hpolled hp
  refine ⟨g, fun hg => (hacknowledged hg).of_eq hk.cfg hk.dsb, fun hg => ?_⟩
  have ht := hrefused hg
  exact ⟨congrArg State.seq ht, congrArg State.status ht, congrArg State.fault ht, hm.op, hm.a, hm.d,
    congrArg State.trace ht⟩

/-! ### WRITE_PAGE -/

/-- The state from which a WRITE_PAGE past its validation runs its write sequence. -/
def pageLatched (p n : Nat) (buf : List Byte) (s : State) : State :=
  latchAddress (pageAddress s.cfg p) (latchPage n buf (latchLength n (startCommand 4 s)))

section Page
variable {s : State} {p n : Nat} {buf : List Byte}

theorem execWritePage_of_readyIO (hr : s.ReadyIO) (hp : p < s.cfg.pages) (hn : n ≠ 0) (hlen : n < s.cfg.pageSize) :
    exec (.writePage p n buf) s = .next (writeSequence (pageAddress s.cfg p) ((pagePort s.portDrawn n buf).take n)
      (pageLatched p n buf s)) := by
  show execWritePage p n buf s = _
  simp [execWritePage, acceptIO_of_readyIO hr, pageOutOfRange, pageLengthBad, Nat.not_le.2 hp, hn, Nat.not_le.2 hlen,
    pageLatched]

theorem pageLatched_begins (hr : s.ReadyIO) (hp : p < s.cfg.pages) (hn : n ≠ 0) (buf : List Byte) :
    WriteBegins s (pageLatched p n buf s) where
  block := ⟨rfl, rfl, rfl, rfl⟩
  dsbSet := hr.2
  op := .inr rfl
  valid := ⟨pageAddress_lt hr.1.1 hp, fun _ => ⟨hn, by simp [pageLatched, length_pagePort]⟩⟩
  status := rfl
  trace := rfl

end Page

/-- Settles O22: WRITE_PAGE on valid operands is the write sequence of its latches (`writeSequence_spec`), with the first `n`
bytes of its port. -/
theorem writePageResult : Obligations.WritePageResult := by
  intro s p n buf hr hp hn hlt
  have hbytes := length_take_pagePort s.portDrawn n buf
  have hbegins := pageLatched_begins hr hp hn buf
  have hk := hbegins.block
  obtain ⟨⟨_, hm⟩, -⟩ := writeSequence_moved (pageLatched p n buf s) (pageAddress s.cfg p)
    ((pagePort s.portDrawn n buf).take n)
  obtain ⟨f0, f1, f2, fs, hlen, hdelayed, hpolled⟩ := writeSequence_spec hbegins.valid rfl rfl
  refine ⟨f0, f1, f2, fs, _, _, _, _, execWritePage_of_readyIO hr hp hn hlt, hm.keepsBlock.after hk,
    hlen.trans hbytes, rfl, ?_, hbytes, rfl, rfl, fun hp => (hdelayed hp).of_eq hk.cfg hk.dsb, fun hp => ?_⟩
  · rw [List.take_take, Nat.min_comm, take_pagePort]
  · obtain ⟨g, hacknowledged, hrefused⟩ := hpolled hp
    refine ⟨g, fun hg => (hacknowledged hg).of_eq hk.cfg hk.dsb, fun hg => ?_⟩
    have ht := hrefused hg
    exact ⟨congrArg State.seq ht, congrArg State.status ht, congrArg State.fault ht, hm.op, hm.a, hm.n, hm.bufPort,
      congrArg State.trace ht⟩

/-- Settles O6: what the port's record decodes to is a well-formed WRITE_PAGE, since valid operands fit their ports; its
write sequence leaves the port and the buffer port as they were latched. -/
theorem shortBufferRuns : Obligations.ShortBufferRuns := by
  constructor
  · intro s r rest p n buf hr hport hdec hp hn hlen
    have hfacts := admitted_facts hr.1.1
    have hwf : (Instr.writePage p n buf).wellFormed s.cfg = true := by
      have hpage : p < 2 ^ s.cfg.pageW := hp.trans hfacts.pageFits
      have hlength : n < 2 ^ s.cfg.lenW := hlen.trans hfacts.lenFits
      simp [Instr.existsIn, Instr.operandsFit, hpage, hlength]
    obtain ⟨⟨_, hm⟩, -⟩ := writeSequence_moved (pageLatched p n buf { s with port := rest }) (pageAddress s.cfg p)
      ((pagePort s.portDrawn n buf).take n)
    refine ⟨_, ?_, hm.port, hm.bufPort, hm.portDrawn⟩
    rw [stepRunsDecodedCommand s r rest _ hr.1.2 hport hdec hwf]
    exact execWritePage_of_readyIO (s := { s with port := rest }) hr hp hn hlen
  · exact fun k n buf => ⟨freePortBytes k (n - buf.length), rfl, length_freePortBytes _ _⟩

end Sys2Proof.Machine

/-! PROOFS. What a write command leaves behind: the WP level (43_write.md R134, 60_exceptions.md R191) and every byte outside
those it stores (20_memory.md R42, R62, R63). -/

namespace Sys2Proof.Machine

/-! ### The WP level -/

section WpLevel
variable {s t : State} (hw : s.cfg.wpControl = true)
include hw

/-- The end of a write closes WP, and no read-back drives the pin (43_write.md R134). -/
theorem finishWrite_wpHigh : (finishWrite s).env.wpLevel = .high := by
  rw [(finishWrite_quiet s).frame.wpLevel, closeWp_env, if_pos hw]

theorem pollAttempt_wpHigh (hidle : (pollAttempt s).seq = .idle) : (pollAttempt s).env.wpLevel = .high := by
  obtain ⟨-, he⟩ | ⟨hloop, -⟩ := pollAttempt_cases s
  · rw [he]
    exact finishWrite_wpHigh hw
  · simp [hloop] at hidle

theorem writeSequence_wpHigh {a : Nat} {bytes : List Byte} (hidle : (writeSequence a bytes s).seq = .idle) :
    (writeSequence a bytes s).env.wpLevel = .high := by
  obtain ⟨_, _, _, _, -, hr, -⟩ := beforeWait_ran s a bytes
  have hu : (writeTransaction a bytes (openWp (clearFault s))).cfg.wpControl = true := hr.cfg ▸ hw
  simp only [writeSequence, waitWrite] at hidle ⊢
  split
  · next hp =>
    rw [if_pos hp] at hidle
    exact pollAttempt_wpHigh hu hidle
  · exact finishWrite_wpHigh (s := waitMs _ _) hu

end WpLevel

/-- The statuses of a failed validation (60_exceptions.md R181 to R183). -/
def Status.ofValidation (st : Status) : Prop := st = .addressError ∨ st = .pageError ∨ st = .sizeError

/-- A write command fails its validation before it has touched the environment, or it runs its write sequence
(43_write.md R130, R131). -/
theorem exec_invalid_or_runs {i : Instr} {s t : State} (hi : IsWrite i) (h : exec i s = .next t) :
    (t.env = s.env ∧ t.seq = .idle ∧ ∃ st, t.status = some st ∧ st.ofValidation) ∨ RunsWrite s t := by
  obtain ⟨a, d, rfl⟩ | ⟨p, n, buf, rfl⟩ := hi
  · obtain ⟨hr, ⟨-, rfl⟩ | ⟨ha, rfl⟩⟩ := execWriteByte_next h
    · exact .inl ⟨rfl, rfl, _, rfl, .inl rfl⟩
    · exact .inr ⟨_, _, _, byteLatched_begins hr ha d, rfl⟩
  · obtain ⟨hr, ⟨-, rfl⟩ | ⟨-, -, rfl⟩ | ⟨hp, hn, -, rfl⟩⟩ := execWritePage_next h
    · exact .inl ⟨rfl, rfl, _, rfl, .inr (.inl rfl)⟩
    · exact .inl ⟨rfl, rfl, _, rfl, .inr (.inr rfl)⟩
    · exact .inr ⟨_, _, _, pageLatched_begins hr hp hn buf, rfl⟩

/-- A write past its validation ends with none of the statuses of a failed one (60_exceptions.md R189). -/
theorem RunsWrite.not_ofValidation {s t : State} (h : RunsWrite s t) {st : Status} (hst : t.status = some st) :
    ¬ st.ofValidation := by
  obtain ⟨u, a, bytes, hu, rfl⟩ := h
  have hinside : LatchedInside u := ⟨hu.valid.1, fun h4 => (hu.valid.2 h4).1⟩
  obtain ⟨-, hended⟩ | ⟨-, hnone, -⟩ := writeSequence_ends hinside a bytes
  · rw [hst] at hended
    obtain h | h | ⟨h, -⟩ := hended <;> cases h <;> simp [Status.ofValidation]
  · simp [hnone, hu.status] at hst

/-- Settles O26: a failed validation leaves the environment (`exec_invalid_or_runs`), the loop keeps WP open
(`writeSequence_wpLow`, `probe_quiet`), and every end of a write closes it (`finishWrite_wpHigh`). -/
theorem writesEndProtected : Obligations.WritesEndProtected := by
  refine ⟨fun i s t hi hw h => ?_, fun s t hw hs h => ?_⟩
  · obtain ⟨henv, hidle, st, hst, hval⟩ | hruns := exec_invalid_or_runs hi h
    · refine ⟨fun hloop => by simp [hidle] at hloop, fun _ => henv, fun _ haddr hpage hsize => ?_⟩
      obtain rfl | rfl | rfl := hval
      · exact absurd hst haddr
      · exact absurd hst hpage
      · exact absurd hst hsize
    · refine ⟨fun hloop => ?_, fun hval => ?_, fun hidle _ _ _ => ?_⟩
      · obtain ⟨u, a, bytes, hu, rfl⟩ := hruns
        exact writeSequence_wpLow (hu.block.cfg ▸ hw) hloop
      · obtain hst | hst | hst := hval
        · exact absurd (.inl rfl) (hruns.not_ofValidation hst)
        · exact absurd (.inr (.inl rfl)) (hruns.not_ofValidation hst)
        · exact absurd (.inr (.inr rfl)) (hruns.not_ofValidation hst)
      · obtain ⟨u, a, bytes, hu, rfl⟩ := hruns
        exact writeSequence_wpHigh (hu.block.cfg ▸ hw) hidle
  · obtain ⟨-, rfl⟩ := step_polling hs h
    refine ⟨fun hloop => ?_, pollAttempt_wpHigh hw⟩
    obtain ⟨hidle, -⟩ | ⟨-, -, henv⟩ := pollAttempt_cases s
    · simp [hidle] at hloop
    · rw [henv]
      exact (probe_quiet (P := True) s s.dsb .write).frame.wpLevel

/-! ### The bytes outside a write -/

theorem Stored.byteAt_after {c : Config} {P : Prop} {dsb : Dev7} {a k : Nat} {bytes : List Byte} {e u e' : Env}
    (h : Stored c dsb a bytes k e u) (hstill : Still c P u e') (k' x : Nat)
    (hx : x < wireAddr c dsb a ∨ wireAddr c dsb a + bytes.length ≤ x ∨ chipFor c e.chips dsb ≠ some k') :
    byteAt e' k' x = byteAt e k' x := by
  rw [byteAt_of_arrays hstill.arrays, h.byteAt_outside k' x]
  exact hx.imp_right (Or.imp_right fun hk heq => hk (heq ▸ h.reached))

/-- Settles O49: what a write command stores, it stores in one transaction (`exec_env`), which leaves the bytes outside it
alone; polling stores nothing; the triple's address is the operand's by R102. -/
theorem writesChangeOnlyTheirBytes : Obligations.WritesChangeOnlyTheirBytes := by
  refine ⟨fun s t a d h k x hx => ?_, fun s t p n buf h k x hx => ?_, fun s t hs h k x => ?_,
    fun c dsb a hA hd hf ha => joinAddr_encodeAddr_valid hA hd hf ha⟩
  · obtain hstill | ⟨-, a', bytes, k', e, hstored, -, ⟨d', hi, rfl⟩ | ⟨_, _, _, hi, -⟩, hstill⟩ := exec_env h
    · exact byteAt_of_arrays hstill.arrays k x
    · cases hi
      refine hstored.byteAt_after hstill k x ?_
      obtain hx | hk := hx
      · have : x < wireAddr s.cfg s.dsb a ∨ wireAddr s.cfg s.dsb a + 1 ≤ x := by omega
        exact this.imp_right .inl
      · exact .inr (.inr hk)
    · cases hi
  · obtain hstill | ⟨-, a', bytes, k', e, hstored, -, ⟨_, hi, -⟩ | ⟨p', n', buf', hi, -, -, rfl, rfl⟩, hstill⟩ :=
      exec_env h
    · exact byteAt_of_arrays hstill.arrays k x
    · cases hi
    · cases hi
      refine hstored.byteAt_after hstill k x ?_
      rw [length_take_pagePort]
      exact hx
  · obtain ⟨-, rfl⟩ := step_polling hs h
    exact byteAt_of_arrays (pollAttempt_still s).arrays k x

end Sys2Proof.Machine

/-! PROOFS. No early exit (43_write.md R135, 70_reset_and_hazards.md R223): with a fixed delay and no read-back, what a command
asks of its collaborators is fixed before the first answer. -/

namespace Sys2Proof.Machine

/-! ### The requests of the spec's sequences -/

/-- The address phase as the block asks for it (40_address_phase.md R101). -/
def addressRequests (c : Config) (dsb : Dev7) (a : Nat) : List Request :=
  [.addr (deviceValue c dsb a) .write, .send (BitVec.ofNat 8 (a >>> 8 &&& 0xFF)), .send (BitVec.ofNat 8 (a &&& 0xFF))]

/-- The receives of a read of `n` bytes, the last one alone with NACK (44_read.md R153). -/
def recvRequests : Nat → List Request
  | 0 => []
  | rest + 1 => .recv (recvPolicy rest) :: recvRequests rest

/-- A write command past its validation, with a fixed delay and no read-back (43_write.md R130, R131, R134). -/
def writeRequests (c : Config) (dsb : Dev7) (a : Nat) (bytes : List Byte) : List Request :=
  (wpCalls c .low).map requestOf ++ ([.start] ++ addressRequests c dsb a ++ bytes.map .send ++ [.stop]) ++
    [.waitMs c.writeCycleMs] ++ (wpCalls c .high).map requestOf

/-- A random or sequential read of `n` bytes (44_read.md R151, R152). -/
def readRequests (c : Config) (dsb : Dev7) (a n : Nat) : List Request :=
  [.start] ++ addressRequests c dsb a ++ [.stop, .start, .addr (deviceValue c dsb a) .read] ++ recvRequests n ++ [.stop]

theorem map_requestOf_sends (bytes : List Byte) (fs : List Nat) (h : fs.length = bytes.length) :
    (List.zipWith Call.send bytes fs).map requestOf = bytes.map .send := by
  induction bytes generalizing fs with
  | nil => rfl
  | cons b bs ih =>
    cases fs with
    | nil => simp at h
    | cons f fs => simp [requestOf, ih fs (by simpa using h)]

theorem map_requestOf_recvCalls (bs : List Byte) : (recvCalls bs).map requestOf = recvRequests bs.length := by
  induction bs with
  | nil => rfl
  | cons b bs ih =>
    cases bs with
    | nil => rfl
    | cons b' bs => exact congrArg _ ih

theorem map_requestOf_writeCalls (c : Config) (dsb : Dev7) (a f0 f1 f2 : Nat) (bytes : List Byte) (fs : List Nat)
    (h : fs.length = bytes.length) : (writeCalls c dsb a f0 f1 f2 bytes fs).map requestOf =
      [.start] ++ addressRequests c dsb a ++ bytes.map .send ++ [.stop] := by
  simp [writeCalls, addressCalls, addressRequests, requestOf, map_requestOf_sends bytes fs h]

theorem map_requestOf_readCalls (c : Config) (dsb : Dev7) (a f0 f1 f2 f3 : Nat) (bs : List Byte) :
    (readCalls c dsb a f0 f1 f2 f3 bs).map requestOf = readRequests c dsb a bs.length := by
  simp [readCalls, readRequests, addressCalls, addressRequests, requestOf, map_requestOf_recvCalls]

/-! ### The requests of each command -/

/-- Without read-back a write closes WP after its wait and asks for nothing more, faulted or not (43_write.md R134, R135). -/
theorem WriteEnds.trace_of_unchecked {s t : State} {a f : Nat} {bytes : List Byte} {pre : List Call}
    (h : WriteEnds s a bytes f pre t) (hi : s.cfg.integrityCheck = false) : t.trace = pre ++ wpCalls s.cfg .high := by
  by_cases hf : f = 0
  · exact (h.unchecked hf hi).1
  · exact (h.faulted hf).1

/-- What a command asks for, from its operands, the configuration, `dsb` and the counter of free bytes alone. -/
def requestsFor (s : State) : Instr → List Request
  | .init => (wpCalls s.cfg .high).map requestOf
  | .selectDevice _ => []
  | .wp mode => [.wp (levelOf mode)]
  | .writeByte a d => if a < s.cfg.memorySize then writeRequests s.cfg s.dsb a [d] else []
  | .writePage p n buf =>
    if p < s.cfg.pages ∧ n ≠ 0 ∧ n < s.cfg.pageSize then
      writeRequests s.cfg s.dsb (pageAddress s.cfg p) ((pagePort s.portDrawn n buf).take n)
    else []
  | .readCurrentByte => [.start, .addr s.dsb .read, .recv .nack, .stop]
  | .readByte a => if a < s.cfg.memorySize then readRequests s.cfg s.dsb a 1 else []
  | .readSequential a n => if a < s.cfg.memorySize ∧ n ≠ 0 then readRequests s.cfg s.dsb a n else []

/-- The command has asked for `rs`, in this order and nothing else. -/
def Asked (s : State) (rs : List Request) (t : State) : Prop := t.trace.map requestOf = s.trace.map requestOf ++ rs

section Asked
variable {s u t : State} {a n p : Nat} {d : Byte} {buf bytes : List Byte}

theorem Asked.of_trace {cs : List Call} {rs : List Request} (h : t.trace = s.trace ++ cs) (hcs : cs.map requestOf = rs) :
    Asked s rs t := by
  rw [Asked, h, List.map_append, hcs]

theorem WriteBegins.asked (h : WriteBegins s u) (hp : s.cfg.ackPolling = false) (hi : s.cfg.integrityCheck = false)
    (ha : u.a = a) (hb : latchedBytes u = bytes) :
    Asked s (writeRequests s.cfg s.dsb a bytes) (writeSequence a bytes u) := by
  obtain ⟨f0, f1, f2, fs, hlen, hwait⟩ := writeSequence_spec h.valid ha hb
  have htrace := (hwait.delayed (h.block.cfg ▸ hp)).trace_of_unchecked (h.block.cfg ▸ hi)
  rw [h.trace, h.block.cfg, h.block.dsb] at htrace
  simp only [List.append_assoc] at htrace
  refine .of_trace htrace ?_
  simp [writeRequests, map_requestOf_writeCalls s.cfg s.dsb a f0 f1 f2 bytes fs hlen, requestOf]

theorem execWriteByte_asked (hp : s.cfg.ackPolling = false) (hi : s.cfg.integrityCheck = false)
    (h : exec (.writeByte a d) s = .next t) : Asked s (requestsFor s (.writeByte a d)) t := by
  obtain ⟨hr, ⟨ha, rfl⟩ | ⟨ha, rfl⟩⟩ := execWriteByte_next h
  · rw [requestsFor, if_neg (Nat.not_lt.2 ha)]
    exact .of_trace (List.append_nil _).symm rfl
  · rw [requestsFor, if_pos ha]
    exact (byteLatched_begins hr ha d).asked hp hi rfl rfl

theorem execWritePage_asked (hp : s.cfg.ackPolling = false) (hi : s.cfg.integrityCheck = false)
    (h : exec (.writePage p n buf) s = .next t) : Asked s (requestsFor s (.writePage p n buf)) t := by
  obtain ⟨hr, ⟨hpage, rfl⟩ | ⟨-, hlen, rfl⟩ | ⟨hpage, hn, hlen, rfl⟩⟩ := execWritePage_next h
  · rw [requestsFor, if_neg (by omega)]
    exact .of_trace (List.append_nil _).symm rfl
  · rw [requestsFor, if_neg (by omega)]
    exact .of_trace (List.append_nil _).symm rfl
  · rw [requestsFor, if_pos ⟨hpage, hn, hlen⟩]
    exact (pageLatched_begins hr hpage hn buf).asked hp hi rfl rfl

theorem execReadCurrentByte_asked (h : exec .readCurrentByte s = .next t) :
    Asked s (requestsFor s .readCurrentByte) t := by
  obtain ⟨-, rfl⟩ := execReadCurrentByte_next h
  obtain ⟨f, b, hr, -⟩ := currentRead_ran (startCommand 5 s)
  rw [deliverByte_eq]
  exact .of_trace hr.trace rfl

theorem execReadByte_asked (h : exec (.readByte a) s = .next t) : Asked s (requestsFor s (.readByte a)) t := by
  obtain ⟨-, rfl⟩ := execReadByte_next h
  rw [deliverByte_eq]
  by_cases ha : a < s.cfg.memorySize
  · obtain ⟨f0, f1, f2, f3, b, hr, -⟩ := randomRead_ran (latchAddress a (startCommand 6 s)) ha
    rw [requestsFor, if_pos ha]
    exact .of_trace hr.trace (map_requestOf_readCalls ..)
  · rw [requestsFor, if_neg ha]
    exact .of_trace (cs := []) (by simp [randomRead, addressOutOfRange, Nat.not_lt.1 ha]) rfl

theorem execReadSequential_asked (h : exec (.readSequential a n) s = .next t) :
    Asked s (requestsFor s (.readSequential a n)) t := by
  obtain ⟨-, rfl⟩ := execReadSequential_next h
  by_cases hvalid : a < s.cfg.memorySize ∧ n ≠ 0
  · obtain ⟨f0, f1, f2, f3, bs, hlen, hr, -⟩ :=
      sequentialRead_ran (latchLength n (latchAddress a (startCommand 7 s))) hvalid.1 hvalid.2
    rw [requestsFor, if_pos hvalid]
    refine .of_trace hr.trace ?_
    rw [map_requestOf_readCalls, hlen]
    rfl
  · have hafter := sequentialRead_of_invalid (s := latchLength n (latchAddress a (startCommand 7 s))) hvalid
    rw [requestsFor, if_neg hvalid]
    exact .of_trace ((congrArg State.trace hafter).trans (List.append_nil _).symm) rfl

theorem exec_asked {i : Instr} (hp : s.cfg.ackPolling = false) (hi : s.cfg.integrityCheck = false)
    (h : exec i s = .next t) : Asked s (requestsFor s i) t := by
  cases i with
  | init =>
    obtain ⟨-, rfl⟩ := execInit_next h
    rw [protectAtInit_eq]
    exact .of_trace rfl rfl
  | selectDevice id =>
    obtain ⟨-, -, rfl⟩ := execSelectDevice_next h
    exact .of_trace (List.append_nil _).symm rfl
  | wp mode =>
    obtain ⟨-, -, rfl⟩ := execWp_next h
    exact .of_trace rfl rfl
  | writeByte a d => exact execWriteByte_asked hp hi h
  | writePage p n buf => exact execWritePage_asked hp hi h
  | readCurrentByte => exact execReadCurrentByte_asked h
  | readByte a => exact execReadByte_asked h
  | readSequential a n => exact execReadSequential_asked h

end Asked

/-- No request is read off the environment. -/
theorem requestsFor_env (s : State) (e : Env) (i : Instr) : requestsFor { s with env := e } i = requestsFor s i := by
  cases i <;> rfl

/-- Settles O43: both runs make the requests of the command (`exec_asked`), which no environment enters
(`requestsFor_env`). -/
theorem requestsIndependentOfAnswers : Obligations.RequestsIndependentOfAnswers := by
  intro i s t t' e hp hi h h'
  have hasked := exec_asked hp hi h
  have hasked' := exec_asked (s := { s with env := e }) hp hi h'
  rw [requestsFor_env] at hasked'
  exact hasked.trans hasked'.symm

end Sys2Proof.Machine

/-! PROOFS. The three read commands (44_read.md R150 to R154): the calls of each, where its bytes go, its status, and the one
NACK that ends a sequential read. -/

namespace Sys2Proof.Machine

/-! ### Each read command as a whole -/

theorem execReadSequential_of_readyIO {s : State} (hr : s.ReadyIO) (a n : Nat) :
    exec (.readSequential a n) s = .next (endCommand
      (sequentialRead a n (latchLength n (latchAddress a (startCommand 7 s)))).status
      (deliverBuffer (sequentialRead a n (latchLength n (latchAddress a (startCommand 7 s)))).bytes
        (sequentialRead a n (latchLength n (latchAddress a (startCommand 7 s)))).after)) := by
  show execReadSequential a n s = _
  rw [execReadSequential, acceptIO_of_readyIO hr]

/-- Settles O28: the calls by `currentRead_ran`; delivery and end move no more than `out`, the step register and the
response. -/
theorem readCurrentByteResult : Obligations.ReadCurrentByteResult := by
  intro s hr
  obtain ⟨f, b, hran, hbytes, hst⟩ := currentRead_ran (startCommand 5 s)
  have hexec := execReadCurrentByte_of_readyIO hr
  have hm := (hran.moved_of_clearFault.deliverByte [b]).ended (currentRead (startCommand 5 s)).status
  rw [hbytes] at hexec
  exact ⟨f, b, _, hexec, hm.keepsBlock.after ⟨rfl, rfl, rfl, rfl⟩, rfl, hm.trace, hm.out, hm.outBuf, congrArg some hst⟩

/-- Settles O29: the calls by `randomRead_ran`, whose one byte goes to `out`. -/
theorem readByteResult : Obligations.ReadByteResult := by
  intro s a hr ha
  obtain ⟨f0, f1, f2, f3, b, hran, hbytes, hst⟩ := randomRead_ran (latchAddress a (startCommand 6 s)) ha
  have hexec := execReadByte_of_readyIO hr a
  have hm := (hran.moved_of_clearFault.deliverByte [b]).ended (randomRead a (latchAddress a (startCommand 6 s))).status
  rw [hbytes] at hexec
  rw [statusOfCalls_readCalls] at hst
  exact ⟨f0, f1, f2, f3, b, _, hexec, hm.keepsBlock.after ⟨rfl, rfl, rfl, rfl⟩, rfl, hm.trace, hm.out, hm.outBuf,
    congrArg some hst⟩

/-- Settles O30: the calls by `sequentialRead_ran`, whose `n` bytes stand before the further places of the host's buffer. -/
theorem readSequentialResult : Obligations.ReadSequentialResult := by
  intro s a n hr ha hn
  obtain ⟨f0, f1, f2, f3, bs, hlen, hran, hbytes, hst⟩ :=
    sequentialRead_ran (latchLength n (latchAddress a (startCommand 7 s))) ha hn
  have hexec := execReadSequential_of_readyIO hr a n
  have hm := (hran.moved_of_clearFault.deliverBuffer bs).ended
    (sequentialRead a n (latchLength n (latchAddress a (startCommand 7 s)))).status
  rw [hbytes] at hexec
  rw [statusOfCalls_readCalls] at hst
  subst hlen
  exact ⟨f0, f1, f2, f3, bs, _, hexec, hm.keepsBlock.after ⟨rfl, rfl, rfl, rfl⟩, rfl, rfl, hm.trace, hm.out, hm.outBuf,
    congrArg some hst⟩

/-! ### The terminal NACK -/

/-- Every byte before the last is received with ACK, the last with NACK (44_read.md R153). -/
theorem recvCalls_concat (bs : List Byte) (b : Byte) :
    recvCalls (bs ++ [b]) = bs.map (.recv .ack) ++ [.recv .nack b] := by
  induction bs with
  | nil => rfl
  | cons b' bs ih =>
    cases bs with
    | nil => rfl
    | cons b'' bs => exact congrArg _ ih

theorem map_requestOf_recvCalls_concat (bs : List Byte) (b : Byte) :
    (recvCalls (bs ++ [b])).map requestOf = List.replicate bs.length (.recv .ack) ++ [.recv .nack] := by
  rw [recvCalls_concat, List.map_append, List.map_map]
  exact congrArg (· ++ _) (List.map_const' ..)

/-- Outside its receive loop a read receives nothing, so its receives are those of the loop. -/
theorem count_recv_readCalls (c : Config) (dsb : Dev7) (a f0 f1 f2 f3 : Nat) (bs : List Byte) (pol : AckPolicy) :
    ((readCalls c dsb a f0 f1 f2 f3 bs).map requestOf).count (.recv pol) =
      ((recvCalls bs).map requestOf).count (.recv pol) := by
  simp [readCalls, addressCalls, requestOf]

/-- A read of at least one byte ends with the receive of its last byte, with NACK, and the stop (44_read.md R153). -/
theorem readCalls_endsWithNack (c : Config) (dsb : Dev7) (a f0 f1 f2 f3 : Nat) (bs : List Byte) (b : Byte) :
    ∃ front, readCalls c dsb a f0 f1 f2 f3 (bs ++ [b]) = front ++ [.recv .nack b, .stop] :=
  ⟨[.start] ++ addressCalls c dsb a f0 f1 f2 ++ [.stop, .start, .addr (deviceValue c dsb a) .read f3] ++
    bs.map (.recv .ack), by simp [readCalls, recvCalls_concat]⟩

/-- Settles O31: of the `n` bytes the last is split off, and `recvCalls_concat` says how each was answered. -/
theorem terminalNackOnly : Obligations.TerminalNackOnly := by
  intro s t a n ha hn h
  obtain ⟨hr, -⟩ := execReadSequential_next h
  obtain ⟨f0, f1, f2, f3, bs, t', h', -, -, hlen, htrace, -⟩ := readSequentialResult s a n hr ha hn
  obtain rfl : t = t' := eq_of_next (h'.symm.trans h)
  obtain rfl | ⟨init, b, rfl⟩ := bs.eq_nil_or_concat'
  · exact absurd hlen.symm hn
  · obtain ⟨front, hfront⟩ := readCalls_endsWithNack s.cfg s.dsb a f0 f1 f2 f3 init b
    refine ⟨_, htrace, ?_, ?_, front, b, hfront⟩
    · rw [count_recv_readCalls, map_requestOf_recvCalls_concat, ← hlen]
      simp
    · rw [count_recv_readCalls, map_requestOf_recvCalls_concat]
      simp [List.count_replicate]

end Sys2Proof.Machine

/-! PROOFS. WP as the whole next state (45_wp.md R170). -/

namespace Sys2Proof.Machine

/-- The mode's pin level, spelled as a test for ENABLED. -/
theorem levelOf_eq (mode : WpMode) : levelOf mode = if mode = .enabled then .high else .low := by
  cases mode <;> rfl

theorem execWp_of_ready {s : State} (hr : s.Ready) (hwp : s.cfg.wpControl = true) (mode : WpMode) :
    exec (.wp mode) s = .next (endCommand .ok (wpSet (levelOf mode) (startCommand 2 s))) :=
  (if_pos hwp).trans (accept_of_ready hr)

/-- Settles O14: WP runs in IDLE, where its end moves the response only; before that its one call drives the pin to
`levelOf mode`. -/
theorem wpResult : Obligations.WpResult := by
  intro s mode hr hwp
  have hidle : (wpSet (levelOf mode) (startCommand 2 s)).seq = .idle := hr.2
  rw [execWp_of_ready hr hwp mode, endCommand_of_idle hidle, levelOf_eq]
  rfl

end Sys2Proof.Machine

/-! PROOFS. The bus protocol (60_exceptions.md R195, R191; 44_read.md R153, R154): every sequence of calls is followed through
the transport's phases, from a closed transaction to a closed one, or into the polling loop. -/

namespace Sys2Proof.Machine

/-! ### The phase of the transport -/

/-- The trace has kept the protocol so far, and the transport stands at `p`. -/
def AtPhase (p : BusPhase) (s : State) : Prop := busPhaseAfter (some .closed) s.trace = some p

theorem busPhaseAfter_none (cs : List Call) : busPhaseAfter none cs = none := by
  cases cs <;> rfl

theorem busPhaseAfter_append (p : Option BusPhase) (cs ds : List Call) :
    busPhaseAfter p (cs ++ ds) = busPhaseAfter (busPhaseAfter p cs) ds := by
  induction cs generalizing p with
  | nil => rfl
  | cons c cs ih =>
    cases p with
    | none => exact (busPhaseAfter_none ds).symm
    | some p => exact ih (busPhaseStep p c)

section AtPhase
variable {p q : BusPhase} {s t : State} {cs : List Call}

theorem AtPhase.after (h : AtPhase p s) (ht : t.trace = s.trace ++ cs) (hcs : busPhaseAfter (some p) cs = some q) :
    AtPhase q t := by
  unfold AtPhase at *
  rw [ht, busPhaseAfter_append, h, hcs]

theorem busProtocol_iff_of_idle (hs : s.seq = .idle) : s.BusProtocol ↔ AtPhase .closed s := by
  simp only [State.BusProtocol, hs, AtPhase]

theorem busProtocol_iff_of_pollStart (hs : s.seq = .pollStart) : s.BusProtocol ↔ AtPhase (.writing false) s := by
  simp only [State.BusProtocol, hs, AtPhase]

theorem State.BusProtocol.of_idle (hs : s.seq = .idle) (h : AtPhase .closed s) : s.BusProtocol :=
  (busProtocol_iff_of_idle hs).2 h

end AtPhase

/-! ### The calls of the spec's sequences (30_encoding.md R77 to R83) -/

theorem busPhaseAfter_wpCalls (c : Config) (l : Level) : busPhaseAfter (some .closed) (wpCalls c l) = some .closed := by
  unfold wpCalls
  split <;> rfl

theorem busPhaseAfter_sends (bytes : List Byte) (fs : List Nat) :
    busPhaseAfter (some (.writing true)) (List.zipWith Call.send bytes fs) = some (.writing true) := by
  induction bytes generalizing fs with
  | nil => rfl
  | cons b bs ih =>
    cases fs with
    | nil => rfl
    | cons f fs => exact ih fs

/-- The receives of at least one byte end with the one NACK (44_read.md R153). -/
theorem busPhaseAfter_recvCalls {bs : List Byte} (hbs : bs ≠ []) :
    busPhaseAfter (some .reading) (recvCalls bs) = some .ended := by
  induction bs with
  | nil => exact absurd rfl hbs
  | cons b bs ih =>
    cases bs with
    | nil => rfl
    | cons b' bs => exact ih (by simp)

theorem busPhaseAfter_writeCalls (c : Config) (dsb : Dev7) (a f0 f1 f2 : Nat) (bytes : List Byte) (fs : List Nat) :
    busPhaseAfter (some .closed) (writeCalls c dsb a f0 f1 f2 bytes fs) = some .closed := by
  have hphase : busPhaseAfter (some .closed) ([.start] ++ addressCalls c dsb a f0 f1 f2) = some (.writing true) := rfl
  rw [writeCalls, busPhaseAfter_append, busPhaseAfter_append, hphase, busPhaseAfter_sends]
  rfl

theorem busPhaseAfter_readCalls (c : Config) (dsb : Dev7) (a f0 f1 f2 f3 : Nat) {bs : List Byte} (hbs : bs ≠ []) :
    busPhaseAfter (some .closed) (readCalls c dsb a f0 f1 f2 f3 bs) = some .closed := by
  have hphase : busPhaseAfter (some .closed) ([.start] ++ addressCalls c dsb a f0 f1 f2 ++
      [.stop, .start, .addr (deviceValue c dsb a) .read f3]) = some .reading := rfl
  rw [readCalls, busPhaseAfter_append, busPhaseAfter_append, hphase, busPhaseAfter_recvCalls hbs]
  rfl

/-! ### Each sequence, whatever its operands and answers -/

/-- What the end of a write does after its wait: WP closed, then a status by the fault check, or the verify step
(43_write.md R130). -/
theorem finishWrite_cases (s : State) :
    (∃ st, (st = .ok ∨ st = .transportError) ∧ finishWrite s = endCommand st (closeWp s)) ∨
      finishWrite s = verifyLatched (closeWp s) := by
  simp only [finishWrite]
  split
  · exact .inl ⟨_, .inr rfl, rfl⟩
  · split
    · exact .inr rfl
    · exact .inl ⟨_, .inl rfl, rfl⟩

/-- The verify step compares what a read from the latches has received. -/
theorem verifyLatched_cases (s : State) :
    ∃ expected, verifyLatched s = compareReadBack expected (sequentialRead s.a s.n s) ∨
      verifyLatched s = compareReadBack expected (randomRead s.a s) := by
  unfold verifyLatched
  split
  · exact ⟨_, .inl rfl⟩
  · exact ⟨_, .inr rfl⟩

theorem randomRead_of_outOfRange {s : State} {a : Nat} (ha : s.cfg.memorySize ≤ a) :
    randomRead a s = ⟨.addressError, [], s⟩ := by
  simp [randomRead, addressOutOfRange, ha]

section Sequences
variable {s : State} (h : AtPhase .closed s)
include h

theorem sequentialRead_closed (a n : Nat) : AtPhase .closed (sequentialRead a n s).after := by
  by_cases hvalid : a < s.cfg.memorySize ∧ n ≠ 0
  · obtain ⟨_, _, _, _, bs, hlen, hr, -⟩ := sequentialRead_ran s hvalid.1 hvalid.2
    have hbs : bs ≠ [] := List.ne_nil_of_length_pos (by omega)
    exact h.after hr.trace (busPhaseAfter_readCalls _ _ _ _ _ _ _ hbs)
  · rwa [sequentialRead_of_invalid hvalid]

theorem randomRead_closed (a : Nat) : AtPhase .closed (randomRead a s).after := by
  by_cases ha : a < s.cfg.memorySize
  · obtain ⟨_, _, _, _, _, hr, -⟩ := randomRead_ran s ha
    exact h.after hr.trace (busPhaseAfter_readCalls _ _ _ _ _ _ _ (by simp))
  · rwa [randomRead_of_outOfRange (Nat.not_lt.1 ha)]

theorem currentRead_closed : AtPhase .closed (currentRead s).after := by
  obtain ⟨_, _, hr, -⟩ := currentRead_ran s
  exact h.after hr.trace rfl

theorem verifyLatched_closed : AtPhase .closed (verifyLatched s) := by
  have key : ∀ expected r, AtPhase .closed r.after → AtPhase .closed (compareReadBack expected r) := fun expected r hr =>
    hr.after (compareReadBack_spec expected r (.refl _)).1.trace rfl
  obtain ⟨expected, he | he⟩ := verifyLatched_cases s <;> rw [he]
  · exact key _ _ (sequentialRead_closed h s.a s.n)
  · exact key _ _ (randomRead_closed h s.a)

theorem finishWrite_busProtocol : (finishWrite s).BusProtocol := by
  have hc : AtPhase .closed (closeWp s) := h.after (closeWp_ran s).trace (busPhaseAfter_wpCalls _ _)
  refine .of_idle (finishWrite_moved s).2.1 ?_
  obtain ⟨_, -, he⟩ | he := finishWrite_cases s <;> rw [he]
  · exact hc
  · exact verifyLatched_closed hc

end Sequences

/-- A polling attempt from where a start may be made: refused it leaves its device value open, acknowledged it closes its
transaction first (42_write_wait.md R121). -/
theorem pollAttempt_busProtocol {p : BusPhase} {s : State} (h : AtPhase p s) (hp : busPhaseStep p .start = some .opened) :
    (pollAttempt s).BusProtocol := by
  have hcalls : ∀ g cs, busPhaseAfter (some p) (.start :: .addr s.dsb .write g :: cs) =
      busPhaseAfter (some (.writing false)) cs := fun g cs => by
    simp only [busPhaseAfter, hp]
    rfl
  simp only [pollAttempt]
  split
  · exact finishWrite_busProtocol (h.after (pollStop_moved s).trace (hcalls _ _))
  · exact (busProtocol_iff_of_pollStart rfl).2 (h.after (pollAddr_moved s).trace (hcalls _ _))

theorem writeSequence_busProtocol {s : State} (h : AtPhase .closed s) (a : Nat) (bytes : List Byte) :
    (writeSequence a bytes s).BusProtocol := by
  obtain ⟨_, _, _, _, -, hr, -⟩ := beforeWait_ran s a bytes
  have hu : AtPhase .closed (writeTransaction a bytes (openWp (clearFault s))) := by
    refine h.after hr.trace ?_
    rw [busPhaseAfter_append, busPhaseAfter_wpCalls, busPhaseAfter_writeCalls]
  unfold writeSequence waitWrite
  split
  · exact pollAttempt_busProtocol hu rfl
  · exact finishWrite_busProtocol (hu.after (waitMs_trace _ _) rfl)

/-! ### Every command and every step -/

theorem exec_busProtocol {i : Instr} {s t : State} (h : AtPhase .closed s) (hexec : exec i s = .next t) : t.BusProtocol := by
  cases i with
  | init =>
    obtain ⟨-, rfl⟩ := execInit_next hexec
    rw [protectAtInit_eq]
    exact .of_idle rfl (h.after rfl (busPhaseAfter_wpCalls _ _))
  | selectDevice id =>
    obtain ⟨-, -, rfl⟩ := execSelectDevice_next hexec
    exact .of_idle rfl h
  | wp mode =>
    obtain ⟨-, -, rfl⟩ := execWp_next hexec
    exact .of_idle rfl (h.after rfl rfl)
  | writeByte a d =>
    obtain ⟨-, ⟨-, rfl⟩ | ⟨-, rfl⟩⟩ := execWriteByte_next hexec
    · exact .of_idle rfl h
    · exact writeSequence_busProtocol (s := byteLatched a d s) h a [d]
  | writePage p n buf =>
    obtain ⟨-, ⟨-, rfl⟩ | ⟨-, -, rfl⟩ | ⟨-, -, -, rfl⟩⟩ := execWritePage_next hexec
    · exact .of_idle rfl h
    · exact .of_idle rfl h
    · exact writeSequence_busProtocol (s := pageLatched p n buf s) h _ _
  | readCurrentByte =>
    obtain ⟨-, rfl⟩ := execReadCurrentByte_next hexec
    rw [deliverByte_eq]
    exact .of_idle rfl (currentRead_closed (s := startCommand 5 s) h)
  | readByte a =>
    obtain ⟨-, rfl⟩ := execReadByte_next hexec
    rw [deliverByte_eq]
    exact .of_idle rfl (randomRead_closed (s := latchAddress a (startCommand 6 s)) h a)
  | readSequential a n =>
    obtain ⟨-, rfl⟩ := execReadSequential_next hexec
    exact .of_idle rfl (sequentialRead_closed (s := latchLength n (latchAddress a (startCommand 7 s))) h a n)

/-- Settles O32: an attempt starts after a refused device value, to which nothing was sent; a wait makes no call; a command
starts from a closed transaction, and its sequences close theirs (`exec_busProtocol`). -/
theorem busProtocolInvariant : Obligations.BusProtocolInvariant := by
  intro s t h hstep
  obtain ⟨hs, -, rfl⟩ | ⟨-, -, rfl⟩ | ⟨_, rest, _, hs, -, -, hexec⟩ := step_next hstep
  · exact pollAttempt_busProtocol ((busProtocol_iff_of_pollStart hs).1 h) rfl
  · exact h
  · exact exec_busProtocol (s := { s with port := rest }) ((busProtocol_iff_of_idle hs).1 h) hexec

end Sys2Proof.Machine

/-! PROOFS. How each command ends (60_exceptions.md R180 to R189): a failed validation without any effect, the statuses that
each command can answer, and that none answers GENERAL_ERROR. -/

namespace Sys2Proof.Machine

/-! ### A failed validation -/

/-- The validation of the command fails with the status: page or address first, then the length (60_exceptions.md R181 to
R184). -/
inductive Invalid (c : Config) : Instr → Status → Prop where
  | writeByte {a : Nat} (d : Byte) (ha : c.memorySize ≤ a) : Invalid c (.writeByte a d) .addressError
  | readByte {a : Nat} (ha : c.memorySize ≤ a) : Invalid c (.readByte a) .addressError
  | readSequential {a : Nat} (n : Nat) (ha : c.memorySize ≤ a) : Invalid c (.readSequential a n) .addressError
  | page {p : Nat} (n : Nat) (buf : List Byte) (hp : c.pages ≤ p) : Invalid c (.writePage p n buf) .pageError
  | pageLength {p n : Nat} (buf : List Byte) (hp : p < c.pages) (hn : n = 0 ∨ c.pageSize ≤ n) :
      Invalid c (.writePage p n buf) .sizeError
  | readLength {a : Nat} (ha : a < c.memorySize) : Invalid c (.readSequential a 0) .sizeError

/-- From `s` to `t` a command has ended with the status, without any call: of all it could touch only its latches have moved
(60_exceptions.md R181 to R183). -/
structure Rejected (st : Status) (s t : State) : Prop where
  status : t.status = some st
  idle : t.seq = .idle
  trace : t.trace = s.trace
  env : t.env = s.env
  out : t.out = s.out
  outBuf : t.outBuf = s.outBuf
  fault : t.fault = s.fault
  block : KeepsBlock s t
  portDrawn : t.portDrawn = s.portDrawn

/-- What R181 to R183 say of a failed validation, as the statements write it. -/
theorem Rejected.effects {st : Status} {s t : State} (h : Rejected st s t) :
    t.status = some st ∧ t.seq = .idle ∧ t.trace = s.trace ∧ t.env = s.env ∧ t.out = s.out ∧ t.outBuf = s.outBuf ∧
      t.fault = s.fault ∧ KeepsBlock s t :=
  ⟨h.status, h.idle, h.trace, h.env, h.out, h.outBuf, h.fault, h.block⟩

/-- A command that ends when it has only latched is rejected. -/
theorem endCommand_rejected (st : Status) (s : State) (op : BitVec 3) (a : Nat) (d : Byte) (n : Nat) (buf : List Byte) :
    Rejected st s (endCommand st { s with op := op, a := a, d := d, n := n, bufPort := buf, status := none }) :=
  ⟨rfl, rfl, rfl, rfl, rfl, rfl, rfl, ⟨rfl, rfl, rfl, rfl⟩, rfl⟩

theorem sequentialRead_of_outOfRange {s : State} {a : Nat} (ha : s.cfg.memorySize ≤ a) (n : Nat) :
    sequentialRead a n s = ⟨.addressError, [], s⟩ := by
  simp [sequentialRead, addressOutOfRange, ha]

theorem sequentialRead_of_empty {s : State} {a : Nat} (ha : a < s.cfg.memorySize) :
    sequentialRead a 0 s = ⟨.sizeError, [], s⟩ := by
  simp [sequentialRead, addressOutOfRange, Nat.not_le.2 ha]

section Rejection
variable {s : State} (hr : s.ReadyIO)
include hr

theorem execWriteByte_of_outOfRange {a : Nat} (ha : s.cfg.memorySize ≤ a) (d : Byte) :
    exec (.writeByte a d) s = .next (endCommand .addressError (byteLatched a d s)) := by
  show execWriteByte a d s = _
  simp [execWriteByte, acceptIO_of_readyIO hr, addressOutOfRange, ha, byteLatched]

theorem execWritePage_of_outOfRange {p : Nat} (hp : s.cfg.pages ≤ p) (n : Nat) (buf : List Byte) :
    exec (.writePage p n buf) s = .next (endCommand .pageError (latchBuffer buf (latchLength n (startCommand 4 s)))) := by
  show execWritePage p n buf s = _
  simp [execWritePage, acceptIO_of_readyIO hr, pageOutOfRange, hp]

theorem execWritePage_of_badLength {p n : Nat} (hp : p < s.cfg.pages) (hn : n = 0 ∨ s.cfg.pageSize ≤ n) (buf : List Byte) :
    exec (.writePage p n buf) s = .next (endCommand .sizeError (latchBuffer buf (latchLength n (startCommand 4 s)))) := by
  show execWritePage p n buf s = _
  simp [execWritePage, acceptIO_of_readyIO hr, pageOutOfRange, pageLengthBad, Nat.not_le.2 hp, hn]

theorem exec_of_invalid {i : Instr} {st : Status} (h : Invalid s.cfg i st) : ∃ t, exec i s = .next t ∧ Rejected st s t := by
  cases h with
  | writeByte d ha => exact ⟨_, execWriteByte_of_outOfRange hr ha d, endCommand_rejected ..⟩
  | @readByte a ha =>
    have hexec := execReadByte_of_readyIO hr a
    rw [randomRead_of_outOfRange (s := latchAddress a (startCommand 6 s)) ha] at hexec
    exact ⟨_, hexec, endCommand_rejected ..⟩
  | @readSequential a n ha =>
    have hexec := execReadSequential_of_readyIO hr a n
    rw [sequentialRead_of_outOfRange (s := latchLength n (latchAddress a (startCommand 7 s))) ha] at hexec
    exact ⟨_, hexec, endCommand_rejected ..⟩
  | page n buf hp => exact ⟨_, execWritePage_of_outOfRange hr hp n buf, endCommand_rejected ..⟩
  | pageLength buf hp hn => exact ⟨_, execWritePage_of_badLength hr hp hn buf, endCommand_rejected ..⟩
  | @readLength a ha =>
    have hexec := execReadSequential_of_readyIO hr a 0
    rw [sequentialRead_of_empty (s := latchLength 0 (latchAddress a (startCommand 7 s))) ha] at hexec
    exact ⟨_, hexec, endCommand_rejected ..⟩

end Rejection

/-! ### The status of each command -/

/-- The command has ended with a status of its table row, and with one of a failed validation only for its cause. -/
def Answered (c : Config) (i : Instr) (t : State) : Prop :=
  t.seq = .idle ∧ ∃ st, t.status = some st ∧ mayReturn c i st = true ∧ (st.ofValidation → Invalid c i st)

/-- The command is a write in the polling loop, not yet answered. -/
def Unanswered (c : Config) (i : Instr) (t : State) : Prop :=
  t.seq = .pollStart ∧ t.status = none ∧ mayHang c i = true

theorem mayReturn_ok (c : Config) (i : Instr) : mayReturn c i .ok = true := by
  cases i <;> rfl

theorem mayReturn_generalError (c : Config) (i : Instr) : mayReturn c i .generalError = false := rfl

theorem Invalid.mayReturn {c : Config} {i : Instr} {st : Status} (h : Invalid c i st) : mayReturn c i st = true := by
  cases h <;> rfl

section Answered
variable {c : Config} {i : Instr} {s t : State}

theorem Answered.of_invalid {st : Status} (h : Invalid c i st) : Answered c i (endCommand st s) :=
  ⟨rfl, st, rfl, h.mayReturn, fun _ => h⟩

theorem Answered.of_valid {st : Status} (hidle : t.seq = .idle) (hst : t.status = some st)
    (hrow : mayReturn c i st = true) (hvalid : ¬ st.ofValidation) : Answered c i t :=
  ⟨hidle, st, hst, hrow, fun h => absurd h hvalid⟩

theorem not_ofValidation_ok : ¬ Status.ok.ofValidation := by simp [Status.ofValidation]

theorem not_ofValidation_transportError : ¬ Status.transportError.ofValidation := by simp [Status.ofValidation]

theorem Answered.of_ok : Answered c i (endCommand .ok s) := .of_valid rfl rfl (mayReturn_ok c i) not_ofValidation_ok

/-- The fault check gives OK or TRANSPORT_ERROR (60_exceptions.md R185). -/
theorem Answered.of_transfer {st : Status} (hst : st = .ok ∨ st = .transportError)
    (hrow : mayReturn c i .transportError = true) : Answered c i (endCommand st s) := by
  obtain rfl | rfl := hst
  · exact .of_ok
  · exact .of_valid rfl rfl hrow not_ofValidation_transportError

theorem EndedWrite.answered (h : EndedWrite c t) (hi : IsWrite i) : Answered c i t := by
  obtain ⟨hidle, hst | hst | ⟨hst, hcheck⟩⟩ := h
  · exact .of_valid hidle hst (mayReturn_ok c i) not_ofValidation_ok
  · refine .of_valid hidle hst ?_ not_ofValidation_transportError
    obtain ⟨a, d, rfl⟩ | ⟨p, n, buf, rfl⟩ := hi <;> rfl
  · refine .of_valid hidle hst ?_ (by simp [Status.ofValidation])
    obtain ⟨a, d, rfl⟩ | ⟨p, n, buf, rfl⟩ := hi <;> simp [mayReturn, hcheck]

end Answered

/-- A write past its validation ends as one (`EndedWrite`), or its first attempt is refused (42_write_wait.md R121). -/
theorem RunsWrite.answered {i : Instr} {s t : State} (h : RunsWrite s t) (hi : IsWrite i) :
    Answered s.cfg i t ∨ Unanswered s.cfg i t := by
  obtain ⟨u, a, bytes, hu, rfl⟩ := h
  have hinside : LatchedInside u := ⟨hu.valid.1, fun h4 => (hu.valid.2 h4).1⟩
  rw [← hu.block.cfg]
  obtain hended | ⟨hloop, hst, hpolling⟩ := writeSequence_ends hinside a bytes
  · exact .inl (hended.answered hi)
  · refine .inr ⟨hloop, hst.trans hu.status, ?_⟩
    obtain ⟨a, d, rfl⟩ | ⟨p, n, buf, rfl⟩ := hi <;> exact hpolling

theorem sequentialRead_transfer {s : State} {a n : Nat} (ha : a < s.cfg.memorySize) (hn : n ≠ 0) :
    (sequentialRead a n s).status = .ok ∨ (sequentialRead a n s).status = .transportError := by
  rw [(sequentialRead_valid s ha hn).1]
  exact transferStatus_cases _

theorem randomRead_transfer {s : State} {a : Nat} (ha : a < s.cfg.memorySize) :
    (randomRead a s).status = .ok ∨ (randomRead a s).status = .transportError := by
  rw [(randomRead_as_sequential s a).1]
  exact sequentialRead_transfer ha one_ne_zero

/-- Every accepted command answers from its row of the status table, or it is a write in the polling loop
(60_exceptions.md R189). -/
theorem exec_answered {i : Instr} {s t : State} (h : exec i s = .next t) : Answered s.cfg i t ∨ Unanswered s.cfg i t := by
  cases i with
  | init =>
    obtain ⟨-, rfl⟩ := execInit_next h
    exact .inl .of_ok
  | selectDevice id =>
    obtain ⟨-, -, rfl⟩ := execSelectDevice_next h
    exact .inl .of_ok
  | wp mode =>
    obtain ⟨-, -, rfl⟩ := execWp_next h
    exact .inl .of_ok
  | writeByte a d =>
    obtain ⟨hr, ⟨ha, rfl⟩ | ⟨ha, rfl⟩⟩ := execWriteByte_next h
    · exact .inl (.of_invalid (.writeByte d ha))
    · exact RunsWrite.answered ⟨_, _, _, byteLatched_begins hr ha d, rfl⟩ (.inl ⟨a, d, rfl⟩)
  | writePage p n buf =>
    obtain ⟨hr, ⟨hp, rfl⟩ | ⟨hp, hn, rfl⟩ | ⟨hp, hn, -, rfl⟩⟩ := execWritePage_next h
    · exact .inl (.of_invalid (.page n buf hp))
    · exact .inl (.of_invalid (.pageLength buf hp hn))
    · exact RunsWrite.answered ⟨_, _, _, pageLatched_begins hr hp hn buf, rfl⟩ (.inr ⟨p, n, buf, rfl⟩)
  | readCurrentByte =>
    obtain ⟨-, rfl⟩ := execReadCurrentByte_next h
    exact .inl (.of_transfer (transferStatus_cases _) rfl)
  | readByte a =>
    obtain ⟨-, rfl⟩ := execReadByte_next h
    by_cases ha : a < s.cfg.memorySize
    · exact .inl (.of_transfer (randomRead_transfer (s := latchAddress a (startCommand 6 s)) ha) rfl)
    · have ha := Nat.not_lt.1 ha
      rw [randomRead_of_outOfRange (s := latchAddress a (startCommand 6 s)) ha]
      exact .inl (.of_invalid (.readByte ha))
  | readSequential a n =>
    obtain ⟨-, rfl⟩ := execReadSequential_next h
    by_cases ha : a < s.cfg.memorySize
    · by_cases hn : n = 0
      · subst hn
        rw [sequentialRead_of_empty (s := latchLength 0 (latchAddress a (startCommand 7 s))) ha]
        exact .inl (.of_invalid (.readLength ha))
      · exact .inl (.of_transfer
          (sequentialRead_transfer (s := latchLength n (latchAddress a (startCommand 7 s))) ha hn) rfl)
    · have ha := Nat.not_lt.1 ha
      rw [sequentialRead_of_outOfRange (s := latchLength n (latchAddress a (startCommand 7 s))) ha]
      exact .inl (.of_invalid (.readSequential n ha))

/-- A command that ends with a status of a failed validation has failed it. -/
theorem exec_invalid {i : Instr} {s t : State} {st : Status} (h : exec i s = .next t) (hst : t.status = some st)
    (hval : st.ofValidation) : Invalid s.cfg i st := by
  obtain ⟨-, st', hst', -, hinvalid⟩ | ⟨-, hnone, -⟩ := exec_answered h
  · obtain rfl : st = st' := Option.some.inj (hst.symm.trans hst')
    exact hinvalid hval
  · simp [hnone] at hst

/-! ### The statements on validation -/

/-- Settles O18: the three commands fail their validation (`exec_of_invalid`), and of all failed validations those of an
address alone answer ADDRESS_ERROR (`exec_invalid`). -/
theorem addressErrorWithoutTraffic : Obligations.AddressErrorWithoutTraffic := by
  refine ⟨fun s a hr ha i hi => ?_, fun i s t h hst => ?_⟩
  · have hinvalid : Invalid s.cfg i .addressError := by
      obtain ⟨d, rfl⟩ | rfl | ⟨n, rfl⟩ := hi
      · exact .writeByte d ha
      · exact .readByte ha
      · exact .readSequential n ha
    obtain ⟨t, hexec, hrej⟩ := exec_of_invalid hr hinvalid
    exact ⟨t, hexec, hrej.effects⟩
  · cases exec_invalid h hst (.inl rfl) with
    | writeByte d ha => exact ⟨_, ha, .inl ⟨d, rfl⟩⟩
    | readByte ha => exact ⟨_, ha, .inr (.inl rfl)⟩
    | readSequential n ha => exact ⟨_, ha, .inr (.inr ⟨n, rfl⟩)⟩

/-- Settles O19: as O18, with the page test, which comes before the length test. -/
theorem pageErrorWithoutTraffic : Obligations.PageErrorWithoutTraffic := by
  refine ⟨fun s p n buf hr hp => ?_, fun i s t h hst => ?_⟩
  · obtain ⟨t, hexec, hrej⟩ := exec_of_invalid hr (.page n buf hp)
    exact ⟨t, hexec, hrej.effects⟩
  · cases exec_invalid h hst (.inr (.inl rfl)) with
    | page n buf hp => exact ⟨_, n, buf, rfl, hp⟩

/-- Settles O20: as O18, with the length tests, which a bad page or address does not come to (92_eei_decisions.md D11). -/
theorem sizeErrorWithoutTraffic : Obligations.SizeErrorWithoutTraffic := by
  refine ⟨fun s i hr hi => ?_, fun i s t h hst => ?_⟩
  · have hinvalid : Invalid s.cfg i .sizeError := by
      obtain ⟨p, n, buf, rfl, hp, hn⟩ | ⟨a, rfl, ha⟩ := hi
      · exact .pageLength buf hp hn
      · exact .readLength ha
    obtain ⟨t, hexec, hrej⟩ := exec_of_invalid hr hinvalid
    exact ⟨t, hexec, hrej.effects⟩
  · cases exec_invalid h hst (.inr (.inr rfl)) with
    | pageLength buf hp hn => exact .inl ⟨_, _, buf, rfl, hp, hn⟩
    | readLength ha => exact .inr ⟨_, rfl, ha⟩

/-! ### The statements on all statuses -/

/-- Settles O40: a command by `exec_answered`; an attempt from the polling shape has latches that a read-back accepts, so it
ends as a validated write does, or stays without status (`pollAttempt_ends`). -/
theorem statusTable : Obligations.StatusTable := by
  refine ⟨fun i s t h => ?_, fun s t hshape hs h => ?_⟩
  · obtain ⟨hidle, st, hst, hrow, -⟩ | hun := exec_answered h
    · exact .inl ⟨hidle, st, hst, hrow⟩
    · exact .inr hun
  · obtain ⟨-, rfl⟩ := step_polling hs h
    obtain ⟨-, -, -, hnone, ha, hn, -⟩ := hshape hs
    obtain hended | ⟨hloop, hst⟩ := pollAttempt_ends (s := s) ⟨ha, hn⟩
    · exact .inl hended
    · exact .inr ⟨hloop, hst.trans hnone⟩

theorem exec_ne_generalError {i : Instr} {s t : State} (h : exec i s = .next t) : t.status ≠ some .generalError := by
  intro hst
  obtain ⟨-, st, hst', hrow, -⟩ | ⟨-, hnone, -⟩ := exec_answered h
  · obtain rfl : .generalError = st := Option.some.inj (hst.symm.trans hst')
    simp [mayReturn_generalError] at hrow
  · simp [hnone] at hst

theorem sequentialRead_ne_generalError (s : State) (a n : Nat) : (sequentialRead a n s).status ≠ .generalError := by
  by_cases ha : a < s.cfg.memorySize
  · by_cases hn : n = 0
    · simp [hn, sequentialRead_of_empty ha]
    · obtain h | h := sequentialRead_transfer ha hn <;> simp [h]
  · simp [sequentialRead_of_outOfRange (Nat.not_lt.1 ha)]

/-- A verify step answers what its read answers, DATA_ERROR or OK (60_exceptions.md R188). -/
theorem compareReadBack_ne_generalError {r : ReadResult} (hr : r.status ≠ .generalError) (expected : List Byte) :
    (compareReadBack expected r).status ≠ some .generalError := by
  rw [(compareReadBack_spec expected r (.refl _)).2.2.2]
  split
  · simpa using hr
  · split <;> simp

theorem verifyLatched_ne_generalError (s : State) : (verifyLatched s).status ≠ some .generalError := by
  obtain ⟨expected, he | he⟩ := verifyLatched_cases s <;> rw [he] <;> apply compareReadBack_ne_generalError
  · exact sequentialRead_ne_generalError s s.a s.n
  · rw [(randomRead_as_sequential s s.a).1]
    exact sequentialRead_ne_generalError s s.a 1

theorem finishWrite_ne_generalError (s : State) : (finishWrite s).status ≠ some .generalError := by
  obtain ⟨st, rfl | rfl, he⟩ | he := finishWrite_cases s <;> rw [he]
  · simp
  · simp
  · exact verifyLatched_ne_generalError _

/-- Settles O41: the status table has no GENERAL_ERROR (`exec_answered`), a refused attempt keeps the status, and the end of a
write has none, whatever its latches. -/
theorem generalErrorNever : Obligations.GeneralErrorNever := by
  refine ⟨fun i s t h => exec_ne_generalError h, fun s t h hs => ?_⟩
  obtain ⟨-, -, rfl⟩ | ⟨-, -, rfl⟩ | ⟨_, rest, _, -, -, -, hexec⟩ := step_next h
  · obtain ⟨-, he⟩ | ⟨-, hst, -⟩ := pollAttempt_cases s
    · exact he ▸ finishWrite_ne_generalError _
    · exact hst ▸ hs
  · exact hs
  · exact exec_ne_generalError (s := { s with port := rest }) hexec

end Sys2Proof.Machine

/-! PROOFS. No residue between commands (60_exceptions.md R192): two runs of a command from states that differ in what the
commands before them left make the same calls and get the same answers. -/

namespace Sys2Proof.Machine

/-! ### What a command finds of the commands before it, and what a sequence of calls does not read -/

/-- `r` differs from `s` only in what commands leave behind: the accumulator, the latches, the scratch of the verify step and
the status (10_state.md R26, R27). -/
inductive Residue (s : State) : State → Prop where
  | intro (fault : Nat) (op : BitVec 3) (a : Nat) (d : Byte) (n i : Nat) (bufPort rb : List Byte) (status : Option Status) :
      Residue s { s with
        fault := fault, op := op, a := a, d := d, n := n, i := i, bufPort := bufPort, rb := rb, status := status }

/-- `r` differs from `s` only in the operand latches, the loop index and the scratch: two runs of one command after their
acceptance, once the accumulator is cleared. -/
inductive Alike (s : State) : State → Prop where
  | intro (a : Nat) (d : Byte) (n i : Nat) (bufPort rb : List Byte) :
      Alike s { s with a := a, d := d, n := n, i := i, bufPort := bufPort, rb := rb }

/-- What R192 compares of two next states. -/
structure SameOutcome (t t' : State) : Prop where
  trace : t'.trace = t.trace
  status : t'.status = t.status
  seq : t'.seq = t.seq
  out : t'.out = t.out
  outBuf : t'.outBuf = t.outBuf
  portDrawn : t'.portDrawn = t.portDrawn
  dsb : t'.dsb = t.dsb
  dsbSet : t'.dsbSet = t.dsbSet
  env : t'.env = t.env

/-- Two reads that have received and answered the same. -/
structure ReadAlike (x y : ReadResult) : Prop where
  status : y.status = x.status
  bytes : y.bytes = x.bytes
  after : Alike x.after y.after

section Calls
variable {s r : State} (h : Alike s r)
include h

theorem Alike.sameOutcome : SameOutcome s r := by
  cases h
  exact ⟨rfl, rfl, rfl, rfl, rfl, rfl, rfl, rfl, rfl⟩

theorem Alike.cfg : r.cfg = s.cfg := by cases h; rfl

theorem Alike.op : r.op = s.op := by cases h; rfl

theorem Alike.fault : r.fault = s.fault := by cases h; rfl

theorem Alike.clearFault : Alike (clearFault s) (clearFault r) := by cases h; exact .intro ..

theorem Alike.firstIndex : Alike (firstIndex s) (firstIndex r) := by cases h; exact .intro ..

theorem Alike.nextIndex : Alike (nextIndex s) (nextIndex r) := by cases h; exact .intro ..

theorem Alike.busStart : Alike (busStart s) (busStart r) := by cases h; exact .intro ..

theorem Alike.busStop : Alike (busStop s) (busStop r) := by cases h; exact .intro ..

theorem Alike.waitMs (n : Nat) : Alike (waitMs n s) (waitMs n r) := by cases h; exact .intro ..

theorem Alike.wpSet (l : Level) : Alike (wpSet l s) (wpSet l r) := by cases h; exact .intro ..

theorem Alike.sendCounted (b : Byte) : Alike (sendCounted b s) (sendCounted b r) := by cases h; exact .intro ..

theorem Alike.addrPhase (a : Nat) : Alike (addrPhase a s) (addrPhase a r) := by cases h; exact .intro ..

theorem Alike.positionForRead (a : Nat) : Alike (positionForRead a s) (positionForRead a r) := by cases h; exact .intro ..

theorem Alike.busRecv (pol : AckPolicy) :
    (busRecv pol r).1 = (busRecv pol s).1 ∧ Alike (busRecv pol s).2 (busRecv pol r).2 := by
  cases h
  exact ⟨rfl, .intro ..⟩

theorem Alike.pollAddr : (busAddr r.dsb .write (Machine.busStart r)).1 = (busAddr s.dsb .write (Machine.busStart s)).1 ∧
    Alike (busAddr s.dsb .write (Machine.busStart s)).2 (busAddr r.dsb .write (Machine.busStart r)).2 := by
  cases h
  exact ⟨rfl, .intro ..⟩

theorem Alike.setSeq (q : Seq) : Alike { s with seq := q } { r with seq := q } := by cases h; exact .intro ..

theorem Alike.setScratch (rb : List Byte) : Alike { s with rb := rb } { r with rb := rb } := by cases h; exact .intro ..

theorem Alike.endCommand (st : Status) : Alike (endCommand st s) (endCommand st r) := by cases h; exact .intro ..

theorem Alike.deliverByte (bytes : List Byte) : Alike (deliverByte bytes s) (deliverByte bytes r) := by
  rw [deliverByte_eq, deliverByte_eq]
  cases h
  exact .intro ..

theorem Alike.deliverBuffer (bytes : List Byte) : Alike (deliverBuffer bytes s) (deliverBuffer bytes r) := by
  cases h; exact .intro ..

theorem Alike.openWp : Alike (openWp s) (openWp r) := by
  unfold Machine.openWp
  rw [h.cfg]
  split
  · exact h.wpSet .low
  · exact h

theorem Alike.closeWp : Alike (closeWp s) (closeWp r) := by
  unfold Machine.closeWp
  rw [h.cfg]
  split
  · exact h.wpSet .high
  · exact h

/-- A current read's start and device value (44_read.md R150). -/
theorem Alike.currentAddr : Alike (addrCounted s.dsb .read (Machine.busStart s))
    (addrCounted r.dsb .read (Machine.busStart r)) := by
  cases h; exact .intro ..

/-- A read that stops after having received the same bytes. -/
theorem Alike.readEnd {bytes bytes' : List Byte} (hbytes : bytes' = bytes) :
    ReadAlike ⟨transferStatus (Machine.busStop s), bytes, Machine.busStop s⟩
      ⟨transferStatus (Machine.busStop r), bytes', Machine.busStop r⟩ :=
  ⟨by unfold transferStatus; rw [h.busStop.fault], hbytes, h.busStop⟩

end Calls

theorem Alike.sendAll {s r : State} (h : Alike s r) (bytes : List Byte) : Alike (sendAll bytes s) (sendAll bytes r) := by
  induction bytes generalizing s r with
  | nil => exact h
  | cons b bs ih => exact ih (h.sendCounted b).nextIndex

theorem Alike.recvAll {s r : State} (h : Alike s r) (n : Nat) :
    (recvAll n r).1 = (recvAll n s).1 ∧ Alike (recvAll n s).2 (recvAll n r).2 := by
  induction n generalizing s r with
  | zero => exact ⟨rfl, h⟩
  | succ n ih =>
    obtain ⟨hbyte, hafter⟩ := h.busRecv (recvPolicy n)
    obtain ⟨hbytes, hrest⟩ := ih hafter.nextIndex
    exact ⟨congrArg₂ List.cons hbyte hbytes, hrest⟩

theorem Alike.writeTransaction {s r : State} (h : Alike s r) (a : Nat) (bytes : List Byte) :
    Alike (writeTransaction a bytes s) (writeTransaction a bytes r) :=
  ((h.busStart.addrPhase a).firstIndex.sendAll bytes).busStop

/-! ### The reads -/

theorem sequentialRead_of_valid {s : State} {a n : Nat} (ha : a < s.cfg.memorySize) (hn : n ≠ 0) :
    sequentialRead a n s =
      ⟨transferStatus (busStop (recvAll n (firstIndex (positionForRead a (clearFault s)))).2),
        (recvAll n (firstIndex (positionForRead a (clearFault s)))).1,
        busStop (recvAll n (firstIndex (positionForRead a (clearFault s)))).2⟩ := by
  simp [sequentialRead, addressOutOfRange, Nat.not_le.2 ha, hn]

theorem randomRead_of_valid {s : State} {a : Nat} (ha : a < s.cfg.memorySize) :
    randomRead a s =
      ⟨transferStatus (busStop (busRecv .nack (positionForRead a (clearFault s))).2),
        [(busRecv .nack (positionForRead a (clearFault s))).1],
        busStop (busRecv .nack (positionForRead a (clearFault s))).2⟩ := by
  simp [randomRead, addressOutOfRange, Nat.not_le.2 ha]

section Reads
variable {s r : State} (h : Alike (clearFault s) (clearFault r))
include h

theorem currentRead_alike : ReadAlike (currentRead s) (currentRead r) := by
  obtain ⟨hbyte, hafter⟩ := h.currentAddr.busRecv .nack
  exact hafter.readEnd (congrArg (fun b => [b]) hbyte)

theorem sequentialRead_alike_of_valid {a n : Nat} (ha : a < s.cfg.memorySize) (hn : n ≠ 0) :
    ReadAlike (sequentialRead a n s) (sequentialRead a n r) := by
  have ha' : a < r.cfg.memorySize := h.cfg.symm ▸ ha
  obtain ⟨hbytes, hafter⟩ := (h.positionForRead a).firstIndex.recvAll n
  rw [sequentialRead_of_valid ha hn, sequentialRead_of_valid ha' hn]
  exact hafter.readEnd hbytes

theorem randomRead_alike_of_valid {a : Nat} (ha : a < s.cfg.memorySize) :
    ReadAlike (randomRead a s) (randomRead a r) := by
  have ha' : a < r.cfg.memorySize := h.cfg.symm ▸ ha
  obtain ⟨hbyte, hafter⟩ := (h.positionForRead a).busRecv .nack
  rw [randomRead_of_valid ha, randomRead_of_valid ha']
  exact hafter.readEnd (congrArg (fun b => [b]) hbyte)

end Reads

/-! ### The writes -/

/-- The latches that a write reads after its validation are the same, and valid: its address, and its bytes with their number
(10_state.md R27). -/
structure SameLatches (s r : State) : Prop where
  a : r.a = s.a
  n : s.op = 4 → r.n = s.n
  bytes : latchedBytes r = latchedBytes s
  inside : LatchedInside s

/-- No sequence of calls moves these latches. -/
theorem SameLatches.of_moved {s r s' r' : State} {cs ds : List Call} (h : SameLatches s r) (hs : Moved s cs s')
    (hr : Moved r ds r') : SameLatches s' r' := by
  obtain ⟨ha, hn, hbytes, hinside⟩ := h
  refine ⟨?_, ?_, ?_, ?_⟩
  · rw [hr.a, hs.a, ha]
  · rw [hr.n, hs.n, hs.op]
    exact hn
  · unfold latchedBytes at *
    rwa [hr.op, hr.bufPort, hr.n, hr.d, hs.op, hs.bufPort, hs.n, hs.d]
  · unfold LatchedInside at *
    rwa [hs.a, hs.cfg, hs.op, hs.n]

theorem compareReadBack_alike {x y : ReadResult} (h : ReadAlike x y) (expected : List Byte) :
    Alike (compareReadBack expected x) (compareReadBack expected y) := by
  have hscratch := h.after.setScratch x.bytes
  simp only [compareReadBack]
  rw [h.status, h.bytes]
  split
  · exact hscratch.endCommand _
  · split <;> exact hscratch.endCommand _

/-- The verify step as one over the latched bytes. -/
theorem verifyLatched_eq (s : State) : verifyLatched s = compareReadBack (latchedBytes s)
    (if s.op = 4 then sequentialRead s.a s.n s else randomRead s.a s) := by
  unfold verifyLatched latchedBytes
  split <;> rfl

section Writes
variable {s r : State} (h : Alike s r) (hl : SameLatches s r)
include h hl

theorem verifyLatched_alike : Alike (verifyLatched s) (verifyLatched r) := by
  obtain ⟨ha, hn, hbytes, hvalid, hlen⟩ := hl
  rw [verifyLatched_eq, verifyLatched_eq, hbytes, h.op, ha]
  apply compareReadBack_alike
  split
  · next hop =>
    rw [hn hop]
    exact sequentialRead_alike_of_valid h.clearFault hvalid (hlen hop)
  · exact randomRead_alike_of_valid h.clearFault hvalid

theorem finishWrite_alike : Alike (finishWrite s) (finishWrite r) := by
  have hc := h.closeWp
  have hlc := hl.of_moved (closeWp_ran s).moved (closeWp_ran r).moved
  simp only [finishWrite]
  rw [hc.fault, hc.cfg]
  split
  · exact hc.endCommand _
  · split
    · exact verifyLatched_alike hc hlc
    · exact hc.endCommand _

theorem pollAttempt_alike : Alike (pollAttempt s) (pollAttempt r) := by
  obtain ⟨hanswer, hafter⟩ := h.pollAddr
  simp only [pollAttempt]
  rw [hanswer]
  split
  · exact finishWrite_alike hafter.busStop (hl.of_moved (pollStop_moved s) (pollStop_moved r))
  · exact hafter.setSeq .pollStart

theorem waitWrite_alike : Alike (waitWrite s) (waitWrite r) := by
  unfold waitWrite
  rw [h.cfg]
  split
  · exact pollAttempt_alike h hl
  · exact finishWrite_alike (h.waitMs _) (hl.of_moved (waitMs_ran s _).moved (waitMs_ran r _).moved)

end Writes

theorem writeSequence_alike {s r : State} (h : Alike (clearFault s) (clearFault r)) (hl : SameLatches s r) (a : Nat)
    (bytes : List Byte) : Alike (writeSequence a bytes s) (writeSequence a bytes r) := by
  obtain ⟨_, _, _, _, -, hs, -⟩ := beforeWait_ran s a bytes
  obtain ⟨_, _, _, _, -, hr, -⟩ := beforeWait_ran r a bytes
  exact waitWrite_alike (h.openWp.writeTransaction a bytes) (hl.of_moved hs.moved_of_clearFault hr.moved_of_clearFault)

/-! ### Each command -/

/-- From `r` the command gives a next state too, and with the same outcome. -/
def Repeats (i : Instr) (r t : State) : Prop := ∃ t', exec i r = .next t' ∧ SameOutcome t t'

/-- WRITE_BYTE latches all that it reads later. -/
theorem byteLatched_sameLatches {s : State} {a : Nat} (ha : a < s.cfg.memorySize) (d : Byte) (r : State) :
    SameLatches (byteLatched a d s) (byteLatched a d r) :=
  have hop : (byteLatched a d s).op ≠ 4 := by simp [byteLatched]
  ⟨rfl, fun h4 => absurd h4 hop, rfl, ha, fun h4 => absurd h4 hop⟩

section Commands
variable {i : Instr} {s r t : State} (h : Residue s r)
include h

theorem Residue.ready (hr : s.Ready) : r.Ready := by
  cases h
  exact hr

theorem Residue.readyIO (hr : s.ReadyIO) : r.ReadyIO := by
  cases h
  exact hr

/-! #### Accepted, latched and with the accumulator cleared, only unread latches differ -/

theorem Residue.accepted (op : BitVec 3) :
    Alike (clearFault (startCommand op s)) (clearFault (startCommand op r)) := by
  cases h; exact .intro ..

theorem Residue.byteLatched (a : Nat) (d : Byte) :
    Alike (clearFault (byteLatched a d s)) (clearFault (byteLatched a d r)) := by
  cases h; exact .intro ..

theorem Residue.pageLatched (p n : Nat) (buf : List Byte) :
    Alike (clearFault (pageLatched p n buf s)) (clearFault (pageLatched p n buf r)) := by
  cases h; exact .intro ..

theorem Residue.pageLatches {p n : Nat} (hA : admitted s.cfg = true) (hp : p < s.cfg.pages) (hn : n ≠ 0) (buf : List Byte) :
    SameLatches (Machine.pageLatched p n buf s) (Machine.pageLatched p n buf r) := by
  cases h
  exact ⟨rfl, fun _ => rfl, rfl, pageAddress_lt hA hp, fun _ => hn⟩

theorem Residue.readLatched (a : Nat) :
    Alike (clearFault (latchAddress a (startCommand 6 s))) (clearFault (latchAddress a (startCommand 6 r))) := by
  cases h; exact .intro ..

theorem Residue.sequentialLatched (a n : Nat) :
    Alike (clearFault (latchLength n (latchAddress a (startCommand 7 s))))
      (clearFault (latchLength n (latchAddress a (startCommand 7 r)))) := by
  cases h; exact .intro ..

/-- A failed validation reads none of the residue and leaves everything compared but the answer. -/
theorem Residue.repeats_invalid {st : Status} (hr : s.ReadyIO) (hi : Invalid s.cfg i st) (hexec : exec i s = .next t) :
    Repeats i r t := by
  obtain ⟨u, hu, hrej⟩ := exec_of_invalid hr hi
  obtain rfl : t = u := eq_of_next (hu.symm.trans hexec)
  have hi' : Invalid r.cfg i st := by cases h; exact hi
  obtain ⟨t', ht', hrej'⟩ := exec_of_invalid (h.readyIO hr) hi'
  refine ⟨t', ht', ?_⟩
  cases h
  exact {
    trace := hrej'.trace.trans hrej.trace.symm
    status := hrej'.status.trans hrej.status.symm
    seq := hrej'.idle.trans hrej.idle.symm
    out := hrej'.out.trans hrej.out.symm
    outBuf := hrej'.outBuf.trans hrej.outBuf.symm
    portDrawn := hrej'.portDrawn.trans hrej.portDrawn.symm
    dsb := hrej'.block.dsb.trans hrej.block.dsb.symm
    dsbSet := hrej'.block.dsbSet.trans hrej.block.dsbSet.symm
    env := hrej'.env.trans hrej.env.symm }

theorem execInit_repeats (hexec : exec .init s = .next t) : Repeats .init r t := by
  obtain ⟨hr, rfl⟩ := execInit_next hexec
  refine ⟨_, execInit_of_ready (h.ready hr), ?_⟩
  rw [protectAtInit_eq, protectAtInit_eq]
  cases h
  exact ⟨rfl, rfl, rfl, rfl, rfl, rfl, rfl, rfl, rfl⟩

theorem execSelectDevice_repeats {id : Nat} (hexec : exec (.selectDevice id) s = .next t) :
    Repeats (.selectDevice id) r t := by
  obtain ⟨hr, hmulti, rfl⟩ := execSelectDevice_next hexec
  have hr' := h.ready hr
  cases h
  exact ⟨_, execSelectDevice_of_ready hr' hmulti id, rfl, rfl, rfl, rfl, rfl, rfl, rfl, rfl, rfl⟩

theorem execWp_repeats {mode : WpMode} (hexec : exec (.wp mode) s = .next t) : Repeats (.wp mode) r t := by
  obtain ⟨hr, hwp, rfl⟩ := execWp_next hexec
  have hr' := h.ready hr
  cases h
  exact ⟨_, execWp_of_ready hr' hwp mode, rfl, rfl, rfl, rfl, rfl, rfl, rfl, rfl, rfl⟩

theorem execWriteByte_repeats {a : Nat} {d : Byte} (hexec : exec (.writeByte a d) s = .next t) :
    Repeats (.writeByte a d) r t := by
  obtain ⟨hr, ⟨ha, -⟩ | ⟨ha, rfl⟩⟩ := execWriteByte_next hexec
  · exact h.repeats_invalid hr (.writeByte d ha) hexec
  · have halike := writeSequence_alike (h.byteLatched a d) (byteLatched_sameLatches ha d r) a [d]
    have ha' : a < r.cfg.memorySize := (h.accepted 3).cfg.symm ▸ ha
    exact ⟨_, execWriteByte_of_readyIO (h.readyIO hr) ha' d, halike.sameOutcome⟩

theorem execWritePage_repeats {p n : Nat} {buf : List Byte} (hexec : exec (.writePage p n buf) s = .next t) :
    Repeats (.writePage p n buf) r t := by
  obtain ⟨hr, ⟨hp, -⟩ | ⟨hp, hn, -⟩ | ⟨hp, hn, hlen, rfl⟩⟩ := execWritePage_next hexec
  · exact h.repeats_invalid hr (.page n buf hp) hexec
  · exact h.repeats_invalid hr (.pageLength buf hp hn) hexec
  · have hr' := h.readyIO hr
    have halike := writeSequence_alike (h.pageLatched p n buf) (h.pageLatches hr.1.1 hp hn buf)
    cases h
    exact ⟨_, execWritePage_of_readyIO hr' hp hn hlen, (halike _ _).sameOutcome⟩

theorem execReadCurrentByte_repeats (hexec : exec .readCurrentByte s = .next t) : Repeats .readCurrentByte r t := by
  obtain ⟨hr, rfl⟩ := execReadCurrentByte_next hexec
  have hread := currentRead_alike (h.accepted 5)
  refine ⟨_, execReadCurrentByte_of_readyIO (h.readyIO hr), ?_⟩
  rw [hread.status, hread.bytes]
  exact ((hread.after.deliverByte _).endCommand _).sameOutcome

theorem execReadByte_repeats {a : Nat} (hexec : exec (.readByte a) s = .next t) : Repeats (.readByte a) r t := by
  obtain ⟨hr, rfl⟩ := execReadByte_next hexec
  by_cases ha : a < s.cfg.memorySize
  · have hread := randomRead_alike_of_valid (h.readLatched a) ha
    refine ⟨_, execReadByte_of_readyIO (h.readyIO hr) a, ?_⟩
    rw [hread.status, hread.bytes]
    exact ((hread.after.deliverByte _).endCommand _).sameOutcome
  · exact h.repeats_invalid hr (.readByte (Nat.not_lt.1 ha)) hexec

theorem execReadSequential_repeats {a n : Nat} (hexec : exec (.readSequential a n) s = .next t) :
    Repeats (.readSequential a n) r t := by
  obtain ⟨hr, rfl⟩ := execReadSequential_next hexec
  by_cases ha : a < s.cfg.memorySize
  · by_cases hn : n = 0
    · subst hn
      exact h.repeats_invalid hr (.readLength ha) hexec
    · have hread := sequentialRead_alike_of_valid (h.sequentialLatched a n) ha hn
      refine ⟨_, execReadSequential_of_readyIO (h.readyIO hr) a n, ?_⟩
      rw [hread.status, hread.bytes]
      exact ((hread.after.deliverBuffer _).endCommand _).sameOutcome
  · exact h.repeats_invalid hr (.readSequential n (Nat.not_lt.1 ha)) hexec

theorem exec_repeats (hexec : exec i s = .next t) : Repeats i r t := by
  cases i with
  | init => exact execInit_repeats h hexec
  | selectDevice id => exact execSelectDevice_repeats h hexec
  | wp mode => exact execWp_repeats h hexec
  | writeByte a d => exact execWriteByte_repeats h hexec
  | writePage p n buf => exact execWritePage_repeats h hexec
  | readCurrentByte => exact execReadCurrentByte_repeats h hexec
  | readByte a => exact execReadByte_repeats h hexec
  | readSequential a n => exact execReadSequential_repeats h hexec

end Commands

/-- Settles O44: acceptance latches the code and clears the status, each command latches the operands it reads and clears the
accumulator before its first call; so both runs make the same calls (`Alike`) and come out alike (`exec_repeats`). -/
theorem noResidueBetweenCommands : Obligations.NoResidueBetweenCommands := by
  intro i s r t hr hexec
  have hresidue : Residue s r := hr ▸ .intro ..
  obtain ⟨t', ht', h⟩ := exec_repeats hresidue hexec
  exact ⟨t', ht', h.trace, h.status, h.seq, h.out, h.outBuf, h.portDrawn, h.dsb, h.dsbSet, h.env⟩

end Sys2Proof.Machine

/-! PROOFS. Commands that read `dsb` before it has a value (70_reset_and_hazards.md R211). -/

namespace Sys2Proof.Machine

/-- The acceptance of the five commands that read `dsb`: accepted, but without a value of `dsb` the work is not begun. -/
theorem acceptIO_of_dsbUnset {op : BitVec 3} {s : State} {run : State → Host.Outcome State Fault Refusal}
    (hr : s.Ready) (hd : s.dsbSet = false) : acceptIO op s run = .fault .dsbHasNoValue := by
  rw [acceptIO, accept_of_ready hr, startCommand_dsbSet, hd]
  exact if_neg Bool.false_ne_true

/-- Settles O10: each of the five commands is accepted by `acceptIO`, which tests `dsb` before it looks at an operand. -/
theorem commandsBeforeInitFault : Obligations.CommandsBeforeInitFault := by
  intro s hr hd
  refine ⟨fun a d => ?_, fun p n buf => ?_, ?_, fun a => ?_, fun a n => ?_⟩
  · rw [exec, execWriteByte, acceptIO_of_dsbUnset hr hd]
  · rw [exec, execWritePage, acceptIO_of_dsbUnset hr hd]
  · rw [exec, execReadCurrentByte, acceptIO_of_dsbUnset hr hd]
  · rw [exec, execReadByte, acceptIO_of_dsbUnset hr hd]
  · rw [exec, execReadSequential, acceptIO_of_dsbUnset hr hd]

end Sys2Proof.Machine
